-- ==== Sys2Proof/Word.lean ====
section
/-! DEFINITION. The words of the block: a byte and a 16-bit value (spec/00_scope.md R18). No value of the block is signed. -/

namespace Sys2Proof

/-- `Byte`: an unsigned 8-bit value (R18). -/
abbrev Byte := BitVec 8

/-- `U16`: an unsigned 16-bit value (R18). -/
abbrev U16 := BitVec 16

end Sys2Proof
end

