-- ==== Sys2Proof/Config.lean ====
section
/-! DEFINITION. The implementation parameters of spec/00_scope.md R10 to R16. They are fixed for the life of a model
instance (spec/10_state.md R56): `State` carries one `Params` record, no operation writes it (log entry 1). -/

namespace Sys2Proof

/-- `LEN_ORDER` (R11): the byte order of the payload length and of every multi-byte integer of a payload. -/
inductive LenOrder where
  | le
  | be
  deriving DecidableEq, Repr

/-- `OVF_POLICY` (R12): what the encoder does when a message does not fit. -/
inductive OvfPolicy where
  /-- Normative: the whole message is rejected (spec/41_framer.md R229). -/
  | atomic
  /-- The reference code's behaviour: bytes are pushed until one does not fit (R230). -/
  | truncate
  deriving DecidableEq, Repr

/-- The parameters of one model instance. -/
structure Params where
  /-- `FIFO_DEPTH` N (R10), 2 to 65536 slots. -/
  fifoDepth : Nat
  /-- `LEN_ORDER` (R11). -/
  lenOrder : LenOrder
  /-- `OVF_POLICY` (R12). -/
  ovfPolicy : OvfPolicy
  /-- `COLL_BIT` (R13): the value a collided bit is given. -/
  collBit : Bool
  /-- `MC_LIKE` (R14): the predicate as its table; bit s holds its value for the SAK s. -/
  mcLike : BitVec 256
  /-- `FAMILY_TAG_A` (R15). -/
  familyTagA : Byte
  /-- `PROTOCOL_VERSION` (R16): returned by no operation of the block. -/
  protocolVersion : BitVec 64
  deriving DecidableEq, Repr

/-- R10: `2 <= N <= 65536`, the only bound the spec puts on a parameter. -/
abbrev Params.Legal (p : Params) : Prop := 2 ≤ p.fifoDepth ∧ p.fifoDepth ≤ 65536

/-- The instance of `State.reset`: the default parameters of spec/95_test_vectors.md (N = 8, LE, ATOMIC, COLL_BIT = 1,
MC_LIKE false everywhere) and its example FAMILY_TAG_A; PROTOCOL_VERSION has no value anywhere.
DESIGN CHOICE, unsafe for statements about `State.reset` alone (log entry 2). -/
def Config.vectorParams : Params where
  fifoDepth := 8
  lenOrder := .le
  ovfPolicy := .atomic
  collBit := true
  mcLike := 0
  familyTagA := 0x01
  protocolVersion := 0

end Sys2Proof
end

