-- ==== Sys2Proof/Syntax.lean ====
section
/-! DEFINITION. The syntax: the six agents (spec/10_state.md R30), the cascade levels, and `Instr`, one constructor per
row of spec/opcode_table.json. -/

namespace Sys2Proof

/-- The agents that operate the block (R30). -/
inductive Agent where
  | worker
  | transport
  | consumer
  | writer
  | sink
  | host
  deriving DecidableEq, Repr

/-- A cascade level, 1 to 3 (spec/10_state.md R34). -/
inductive Level where
  | one
  | two
  | three
  deriving DecidableEq, Repr

/-- The instructions. Port operations: spec/30_encoding.md R101; pseudo-operations: R108; RF frames: R110 to R114;
wire messages: R123. -/
inductive Instr where
  /-- RESET (R340). -/
  | reset
  /-- CANCEL (R341). -/
  | cancel
  /-- AC_START (R150). -/
  | acStart
  /-- AC_RESP_TIMEOUT (R158). -/
  | acRespTimeout
  /-- AC_RESP_XERR (R157). -/
  | acRespXerr
  /-- AC_RESP_FRAME (R159): NBITS, COLL (R103) and the DATA bytes (R104). -/
  | acRespFrame (nbits : Byte) (coll : Option (BitVec 6)) (data : List Byte)
  /-- AC_STATUS (R175). -/
  | acStatus
  /-- AC_DESC (R176). -/
  | acDesc
  /-- FIFO_PUSH (R275). -/
  | fifoPush (b : Byte)
  /-- FIFO_POP (R277). -/
  | fifoPop
  /-- FIFO_READ (R279). -/
  | fifoRead (n : U16)
  /-- FIFO_AVAIL (R280). -/
  | fifoAvail
  /-- FIFO_SPACE (R281). -/
  | fifoSpace
  /-- FRM_ENC (R228): the type byte and the payload. -/
  | frmEnc (ty : Byte) (payload : List Byte)
  /-- FRM_DEC (R236). -/
  | frmDec (b : Byte)
  /-- FRM_WRITE (R243). -/
  | frmWrite (bytes : List Byte)
  /-- FRM_ACCEPT (R246). -/
  | frmAccept
  /-- AC_RESP_BYTES (R108): whole bytes, no collision. -/
  | acRespBytes (data : List Byte)
  /-- AC_RESP_COLL (R108): a collision at relative position `c`. -/
  | acRespColl (nbits : Byte) (c : BitVec 6) (data : List Byte)
  /-- RF_REQA (R110). -/
  | rfReqa
  /-- RF_ANTICOLL_CL1 (R113): the known bits that follow SEL and NVB. -/
  | rfAnticollCl1 (known : List Bool)
  /-- RF_SELECT_CL1 (R114): the 40 bits of the UID CLn and BCC. -/
  | rfSelectCl1 (cl : BitVec 40)
  /-- RF_ANTICOLL_CL2 (R113). -/
  | rfAnticollCl2 (known : List Bool)
  /-- RF_SELECT_CL2 (R114). -/
  | rfSelectCl2 (cl : BitVec 40)
  /-- RF_ANTICOLL_CL3 (R113). -/
  | rfAnticollCl3 (known : List Bool)
  /-- RF_SELECT_CL3 (R114). -/
  | rfSelectCl3 (cl : BitVec 40)
  /-- MSG_IDENTIFY, type 0 (R123). -/
  | msgIdentify (payload : List Byte)
  /-- MSG_IDENTIFY_RESP, type 1 (R128). -/
  | msgIdentifyResp (payload : List Byte)
  /-- MSG_IDLE, type 2 (R123). -/
  | msgIdle (payload : List Byte)
  /-- MSG_IDLE_ACK, type 3 (R123). -/
  | msgIdleAck (payload : List Byte)
  /-- MSG_DISCOVER, type 4 (R124). -/
  | msgDiscover (payload : List Byte)
  /-- MSG_DETECTED_TAG, type 5 (R127). -/
  | msgDetectedTag (payload : List Byte)
  /-- MSG_SELECT, type 6 (R125). -/
  | msgSelect (payload : List Byte)
  /-- MSG_SELECTED_TAG, type 7 (R127). -/
  | msgSelectedTag (payload : List Byte)
  /-- MSG_TRANSCEIVE, type 8 (R126). -/
  | msgTransceive (payload : List Byte)
  /-- MSG_TRANSCEIVE_RESP, type 9 (R126). -/
  | msgTransceiveResp (payload : List Byte)
  deriving DecidableEq, Repr

end Sys2Proof
end

