-- ==== Sys2Proof/WellFormed.lean ====
section
/-! DEFINITION. Which instructions have an encoding. A packet that names a pseudo-operation of R108 is spelled as that
pseudo-operation, so `acRespFrame` is well formed for the other packets only (log entry 11); what it does is defined for
every operand all the same. -/

namespace Sys2Proof

/-- R104: `ceil(NBITS/8)` DATA bytes carry NBITS bits. -/
def dataBytes (nbits : Byte) : Nat := (nbits.toNat + 7) / 8

/-- R108: NBITS = 8*(m+1) is a whole, positive number of bytes. -/
def wholeBytes (nbits : Byte) : Bool := nbits.toNat % 8 == 0 && nbits != 0

/-- The instruction has words: its lists have the lengths their length operands can say (R101, R104, R112, R120), and it
is the one spelling of its packet (R108). -/
def Instr.wellFormed : Instr → Bool
  | .acRespFrame nbits coll data => coll.isNone && !wholeBytes nbits && data.length == dataBytes nbits
  | .acRespBytes data => 1 ≤ data.length && data.length ≤ 31
  | .acRespColl nbits _ data => data.length == dataBytes nbits
  | .frmEnc _ payload => payload.length ≤ 65535
  | .frmWrite bytes => bytes.length ≤ 65535
  | .rfAnticollCl1 known => known.length ≤ 39
  | .rfAnticollCl2 known => known.length ≤ 39
  | .rfAnticollCl3 known => known.length ≤ 39
  | .msgIdentify p => p.length ≤ 65535
  | .msgIdentifyResp p => p.length ≤ 65535
  | .msgIdle p => p.length ≤ 65535
  | .msgIdleAck p => p.length ≤ 65535
  | .msgDiscover p => p.length ≤ 65535
  | .msgDetectedTag p => p.length ≤ 65535
  | .msgSelect p => p.length ≤ 65535
  | .msgSelectedTag p => p.length ≤ 65535
  | .msgTransceive p => p.length ≤ 65535
  | .msgTransceiveResp p => p.length ≤ 65535
  | .reset => true
  | .cancel => true
  | .acStart => true
  | .acRespTimeout => true
  | .acRespXerr => true
  | .acStatus => true
  | .acDesc => true
  | .fifoPush _ => true
  | .fifoPop => true
  | .fifoRead _ => true
  | .fifoAvail => true
  | .fifoSpace => true
  | .frmDec _ => true
  | .frmAccept => true
  | .rfReqa => true
  | .rfSelectCl1 _ => true
  | .rfSelectCl2 _ => true
  | .rfSelectCl3 _ => true

end Sys2Proof
end

