-- ==== Sys2Proof/Decode.lean ====
section
/-! DEFINITION. The three encoded interfaces of spec/30_encoding.md: port-operation packets (section 1), RF frames
(section 2) and wire messages (section 3): the decoder, total and rejecting by name, then the encoder. -/

namespace Sys2Proof

/-! ### Bits and bytes (spec/00_scope.md R18 to R20) -/

/-- `v` with the bit at position `p` set to `b`; a position beyond the width changes nothing (R19). -/
def setPos {w : Nat} (v : BitVec w) (p : Nat) (b : Bool) : BitVec w :=
  if b then v ||| BitVec.twoPow w p else v &&& ~~~(BitVec.twoPow w p)

/-- Positions `k` to `k + n - 1` of `v` take the values `f 0` to `f (n - 1)`. -/
def fillBits {w : Nat} (v : BitVec w) (k : Nat) (f : Nat → Bool) : Nat → BitVec w
  | 0 => v
  | n + 1 => setPos (fillBits v k f n) (k + n) (f n)

/-- The word whose bit i is `f i`. -/
def ofBits (w : Nat) (f : Nat → Bool) : BitVec w := fillBits 0 0 f w

/-- The eight bits of a byte, bit 0 first. -/
def byteBits (b : Byte) : List Bool := (List.range 8).map fun i => b.getLsbD i

/-- `bytesToBitsLSB` (R20). -/
def bytesToBitsLSB (bs : List Byte) : List Bool := bs.flatMap byteBits

/-- `bitsToBytesLSB` (R20): a short last byte is padded with 0 in its high bits. -/
def bitsToBytesLSB (bits : List Bool) : List Byte :=
  (List.range ((bits.length + 7) / 8)).map fun j => ofBits 8 fun i => bits.getD (8 * j + i) false

/-- `CL.byte(j)` (R19): byte j of a 40-bit UID CLn. -/
def clByte (cl : BitVec 40) (j : Nat) : Byte := cl.extractLsb' (8 * j) 8

/-- The five bytes of a 40-bit UID CLn, in order of reception. -/
def clBytes (cl : BitVec 40) : List Byte := [clByte cl 0, clByte cl 1, clByte cl 2, clByte cl 3, clByte cl 4]

/-- Positions 0 to k-1 of a 40-bit UID CLn. -/
def clPrefix (cl : BitVec 40) (k : Nat) : List Bool := (List.range k).map fun p => cl.getLsbD p

/-! ### Integers in LEN_ORDER (spec/30_encoding.md R120) -/

/-- `u16(v)`: the two bytes of a U16 in `LEN_ORDER` (R120): the low byte is `v & 0xFF`, the high byte `v >> 8`. -/
def u16 (o : LenOrder) (v : U16) : List Byte :=
  match o with
  | .le => [BitVec.ofNat 8 v.toNat, BitVec.ofNat 8 (v.toNat / 256)]
  | .be => [BitVec.ofNat 8 (v.toNat / 256), BitVec.ofNat 8 v.toNat]

/-- `len16(x1, x2)`: a U16 assembled from its two bytes (R120). -/
def len16 (o : LenOrder) (x1 x2 : Byte) : U16 :=
  match o with
  | .le => BitVec.ofNat 16 (x1.toNat + 256 * x2.toNat)
  | .be => BitVec.ofNat 16 (256 * x1.toNat + x2.toNat)

/-- `ser(T, P)` (spec/41_framer.md R220): the bytes of a wire message. -/
def ser (o : LenOrder) (ty : Byte) (payload : List Byte) : List Byte :=
  ty :: (u16 o (BitVec.ofNat 16 payload.length) ++ payload)

/-! ### RF frames (spec/30_encoding.md R110 to R114, from general knowledge: log entry 14) -/

/-- `SEL(l)` (R111). -/
def sel : Level → Byte
  | .one => 0x93
  | .two => 0x95
  | .three => 0x97

/-- `NVB(k)` (R112). -/
def nvb (k : Nat) : Byte := BitVec.ofNat 8 ((2 + k / 8) * 16 + k % 8)

/-- REQA (R110): the 7 low bits of 0x26, least significant first. -/
def reqaBits : List Bool := (byteBits 0x26).take 7

/-- `ANTICOLL(l, k, CL)` (R113) with the k known bits given as a list. -/
def anticollBits (l : Level) (known : List Bool) : List Bool := bytesToBitsLSB [sel l, nvb known.length] ++ known

/-- `SELECT(l, CL)` (R114), without the CRC_A that TRANSPORT appends. -/
def selectBits (l : Level) (cl : BitVec 40) : List Bool := bytesToBitsLSB ([sel l, 0x70] ++ clBytes cl)

/-! ### What is decoded -/

/-- The words of an instruction, on the interface that carries it. -/
inductive Words where
  /-- The bytes of a port-operation packet (R100). -/
  | port (bytes : List Byte)
  /-- The bits of an RF frame, in the order sent (R110 to R114). -/
  | rf (bits : List Bool)
  /-- The bytes of one wire message (R120). -/
  | wire (bytes : List Byte)
  deriving DecidableEq, Repr

/-- Why words are no instruction. -/
inductive DecodeError where
  /-- A CMD value outside R101 (R105). -/
  | reservedCmd
  /-- A COLL byte with reserved bits set (R103). -/
  | reservedColl
  /-- Shorter or longer than CMD and its length operand say (R100). -/
  | malformedPacket
  /-- Bits that are none of the frames of R110 to R114. -/
  | noSuchFrame
  /-- Wire bytes that are not one whole message of a catalogue type: the framer carries them all the same (R122). -/
  | uncatalogued
  deriving DecidableEq, Repr

/-- Which agent issues an instruction (spec/10_state.md R31). RF frames go to TRANSPORT (R115); a client's message comes
from WRITER, a driver's from WORKER (the direction column of R123). -/
def agentOf : Instr → Agent
  | .reset => .host
  | .cancel => .host
  | .acStart => .worker
  | .acRespTimeout => .transport
  | .acRespXerr => .transport
  | .acRespFrame _ _ _ => .transport
  | .acStatus => .worker
  | .acDesc => .worker
  | .fifoPush _ => .worker
  | .fifoPop => .consumer
  | .fifoRead _ => .consumer
  | .fifoAvail => .consumer
  | .fifoSpace => .worker
  | .frmEnc _ _ => .worker
  | .frmDec _ => .writer
  | .frmWrite _ => .writer
  | .frmAccept => .sink
  | .acRespBytes _ => .transport
  | .acRespColl _ _ _ => .transport
  | .rfReqa => .transport
  | .rfAnticollCl1 _ => .transport
  | .rfSelectCl1 _ => .transport
  | .rfAnticollCl2 _ => .transport
  | .rfSelectCl2 _ => .transport
  | .rfAnticollCl3 _ => .transport
  | .rfSelectCl3 _ => .transport
  | .msgIdentify _ => .writer
  | .msgIdentifyResp _ => .worker
  | .msgIdle _ => .writer
  | .msgIdleAck _ => .worker
  | .msgDiscover _ => .writer
  | .msgDetectedTag _ => .worker
  | .msgSelect _ => .writer
  | .msgSelectedTag _ => .worker
  | .msgTransceive _ => .writer
  | .msgTransceiveResp _ => .worker

/-! ### The decoder -/

/-- The first `n` bytes and the rest, where there are that many. -/
def splitBytes (n : Nat) (bs : List Byte) : Except DecodeError (List Byte × List Byte) :=
  if n ≤ bs.length then .ok (bs.take n, bs.drop n) else .error .malformedPacket

/-- The COLL operand (R103). -/
def decodeColl (c : Byte) : Except DecodeError (Option (BitVec 6)) :=
  if c.getLsbD 7 then
    if c.getLsbD 6 then .error .reservedColl else .ok (some (c.extractLsb' 0 6))
  else if c = 0 then .ok none
  else .error .reservedColl

/-- An AC_RESP_FRAME packet under its most specific name (R108, log entry 11). -/
def spellFrame (nbits : Byte) (coll : Option (BitVec 6)) (data : List Byte) : Instr :=
  match coll with
  | some c => .acRespColl nbits c data
  | none => if wholeBytes nbits then .acRespBytes data else .acRespFrame nbits none data

/-- The operands of AC_RESP_FRAME (R101, R103, R104). -/
def decodeFrameOperands : List Byte → Except DecodeError (Instr × List Byte)
  | nbits :: coll :: more =>
    match decodeColl coll with
    | .error e => .error e
    | .ok c =>
      match splitBytes (dataBytes nbits) more with
      | .error e => .error e
      | .ok (data, rest) => .ok (spellFrame nbits c data, rest)
  | _ => .error .malformedPacket

/-- One byte operand (R102). -/
def decodeByteOperand (f : Byte → Instr) : List Byte → Except DecodeError (Instr × List Byte)
  | b :: rest => .ok (f b, rest)
  | [] => .error .malformedPacket

/-- One U16 operand (R102). -/
def decodeU16Operand (o : LenOrder) (f : U16 → Instr) : List Byte → Except DecodeError (Instr × List Byte)
  | x1 :: x2 :: rest => .ok (f (len16 o x1 x2), rest)
  | _ => .error .malformedPacket

/-- A U16 length operand, then that many bytes (R100). -/
def decodeCounted (o : LenOrder) (f : List Byte → Instr) : List Byte → Except DecodeError (Instr × List Byte)
  | x1 :: x2 :: more =>
    match splitBytes (len16 o x1 x2).toNat more with
    | .error e => .error e
    | .ok (bytes, rest) => .ok (f bytes, rest)
  | _ => .error .malformedPacket

/-- TYPE, then LEN16 and PAYLOAD (FRM_ENC of R101). -/
def decodeEncOperands (o : LenOrder) : List Byte → Except DecodeError (Instr × List Byte)
  | ty :: more => decodeCounted o (.frmEnc ty) more
  | [] => .error .malformedPacket

/-- The packet at the front of `bs`, and the bytes after it (R100, R101, R105). -/
def decodePacket (o : LenOrder) : List Byte → Except DecodeError (Instr × List Byte)
  | [] => .error .malformedPacket
  | cmd :: rest =>
    match cmd with
    | 0x01 => .ok (.reset, rest)
    | 0x02 => .ok (.cancel, rest)
    | 0x10 => .ok (.acStart, rest)
    | 0x11 => .ok (.acRespTimeout, rest)
    | 0x12 => .ok (.acRespXerr, rest)
    | 0x13 => decodeFrameOperands rest
    | 0x14 => .ok (.acStatus, rest)
    | 0x15 => .ok (.acDesc, rest)
    | 0x20 => decodeByteOperand .fifoPush rest
    | 0x21 => .ok (.fifoPop, rest)
    | 0x22 => decodeU16Operand o .fifoRead rest
    | 0x23 => .ok (.fifoAvail, rest)
    | 0x24 => .ok (.fifoSpace, rest)
    | 0x30 => decodeEncOperands o rest
    | 0x31 => decodeByteOperand .frmDec rest
    | 0x32 => decodeCounted o .frmWrite rest
    | 0x33 => .ok (.frmAccept, rest)
    | _ => .error .reservedCmd

/-- One packet and nothing after it. -/
def decodePort (o : LenOrder) (bs : List Byte) : Except DecodeError Instr :=
  match decodePacket o bs with
  | .error e => .error e
  | .ok (i, []) => .ok i
  | .ok (_, _ :: _) => .error .malformedPacket

/-- Byte j of a bit string whose bits were sent least significant first. -/
def frameByte (bits : List Bool) (j : Nat) : Byte := ofBits 8 fun i => bits.getD (8 * j + i) false

/-- The level a SEL code names (R111). -/
def levelOfSel (b : Byte) : Option Level :=
  match b with
  | 0x93 => some .one
  | 0x95 => some .two
  | 0x97 => some .three
  | _ => none

/-- The ANTICOLLISION row of a level. -/
def anticollInstr : Level → List Bool → Instr
  | .one, known => .rfAnticollCl1 known
  | .two, known => .rfAnticollCl2 known
  | .three, known => .rfAnticollCl3 known

/-- The SELECT row of a level. -/
def selectInstr : Level → BitVec 40 → Instr
  | .one, cl => .rfSelectCl1 cl
  | .two, cl => .rfSelectCl2 cl
  | .three, cl => .rfSelectCl3 cl

/-- An RF frame from its bits: REQA is the only frame of 7 bits (R110); NVB = 0x70 marks SELECT, and any other NVB must
count exactly the bits that follow (R112 to R114). -/
def decodeRf (bits : List Bool) : Except DecodeError Instr :=
  if bits = reqaBits then .ok .rfReqa
  else if bits.length < 16 then .error .noSuchFrame
  else
    match levelOfSel (frameByte bits 0) with
    | none => .error .noSuchFrame
    | some l =>
      if frameByte bits 1 = 0x70 then
        if bits.length = 56 then .ok (selectInstr l (ofBits 40 fun i => bits.getD (16 + i) false))
        else .error .noSuchFrame
      else if bits.length ≤ 55 ∧ frameByte bits 1 = nvb (bits.length - 16) then .ok (anticollInstr l (bits.drop 16))
      else .error .noSuchFrame

/-- The catalogue's row of a message type (R122, R123). -/
def messageInstr (ty : Byte) (payload : List Byte) : Option Instr :=
  match ty with
  | 0 => some (.msgIdentify payload)
  | 1 => some (.msgIdentifyResp payload)
  | 2 => some (.msgIdle payload)
  | 3 => some (.msgIdleAck payload)
  | 4 => some (.msgDiscover payload)
  | 5 => some (.msgDetectedTag payload)
  | 6 => some (.msgSelect payload)
  | 7 => some (.msgSelectedTag payload)
  | 8 => some (.msgTransceive payload)
  | 9 => some (.msgTransceiveResp payload)
  | _ => none

/-- The type and payload of bytes that are one whole message, of any type: the header's length is the payload's (R120 to
R122). -/
def wholeMessage (o : LenOrder) : List Byte → Option (Byte × List Byte)
  | ty :: l1 :: l2 :: payload => if payload.length = (len16 o l1 l2).toNat then some (ty, payload) else none
  | _ => none

/-- One whole wire message of a catalogue type (R120, R123). -/
def decodeWire (o : LenOrder) (bs : List Byte) : Except DecodeError Instr :=
  match wholeMessage o bs with
  | none => .error .uncatalogued
  | some (ty, payload) =>
    match messageInstr ty payload with
    | none => .error .uncatalogued
    | some i => .ok i

/-- The decoder. -/
def decode (o : LenOrder) : Words → Except DecodeError Instr
  | .port bytes => decodePort o bytes
  | .rf bits => decodeRf bits
  | .wire bytes => decodeWire o bytes

/-! ### The encoder -/

/-- The COLL byte (R103). -/
def encodeColl : Option (BitVec 6) → Byte
  | none => 0
  | some c => 0x80 ||| c.zeroExtend 8

/-- An AC_RESP_FRAME packet (R101, R103, R104). -/
def encodeFrame (nbits : Byte) (coll : Option (BitVec 6)) (data : List Byte) : List Byte :=
  0x13 :: nbits :: encodeColl coll :: data

/-- The words of an instruction (R101, R108, R110 to R114, R120). -/
def encode (o : LenOrder) : Instr → Words
  | .reset => .port [0x01]
  | .cancel => .port [0x02]
  | .acStart => .port [0x10]
  | .acRespTimeout => .port [0x11]
  | .acRespXerr => .port [0x12]
  | .acRespFrame nbits coll data => .port (encodeFrame nbits coll data)
  | .acStatus => .port [0x14]
  | .acDesc => .port [0x15]
  | .fifoPush b => .port [0x20, b]
  | .fifoPop => .port [0x21]
  | .fifoRead n => .port (0x22 :: u16 o n)
  | .fifoAvail => .port [0x23]
  | .fifoSpace => .port [0x24]
  | .frmEnc ty payload => .port (0x30 :: ser o ty payload)
  | .frmDec b => .port [0x31, b]
  | .frmWrite bytes => .port (0x32 :: (u16 o (BitVec.ofNat 16 bytes.length) ++ bytes))
  | .frmAccept => .port [0x33]
  | .acRespBytes data => .port (encodeFrame (BitVec.ofNat 8 (8 * data.length)) none data)
  | .acRespColl nbits c data => .port (encodeFrame nbits (some c) data)
  | .rfReqa => .rf reqaBits
  | .rfAnticollCl1 known => .rf (anticollBits .one known)
  | .rfSelectCl1 cl => .rf (selectBits .one cl)
  | .rfAnticollCl2 known => .rf (anticollBits .two known)
  | .rfSelectCl2 cl => .rf (selectBits .two cl)
  | .rfAnticollCl3 known => .rf (anticollBits .three known)
  | .rfSelectCl3 cl => .rf (selectBits .three cl)
  | .msgIdentify p => .wire (ser o 0 p)
  | .msgIdentifyResp p => .wire (ser o 1 p)
  | .msgIdle p => .wire (ser o 2 p)
  | .msgIdleAck p => .wire (ser o 3 p)
  | .msgDiscover p => .wire (ser o 4 p)
  | .msgDetectedTag p => .wire (ser o 5 p)
  | .msgSelect p => .wire (ser o 6 p)
  | .msgSelectedTag p => .wire (ser o 7 p)
  | .msgTransceive p => .wire (ser o 8 p)
  | .msgTransceiveResp p => .wire (ser o 9 p)

/-! ### The words of the opcode table (log entry 12) -/

/-- A table word as bytes: spec/opcode_table.json writes byte 0 as the most significant byte of a row. -/
def tableBytes (nbits w : Nat) : List Byte :=
  (List.range ((nbits + 7) / 8)).map fun i => BitVec.ofNat 8 (w >>> (8 * ((nbits + 7) / 8 - 1 - i)))

/-- The packet length column of R101, from the packet's first bytes (bytes not there read as 0); none for a reserved CMD. -/
def packetLength (o : LenOrder) (bs : List Byte) : Option Nat :=
  match bs.getD 0 0 with
  | 0x01 => some 1
  | 0x02 => some 1
  | 0x10 => some 1
  | 0x11 => some 1
  | 0x12 => some 1
  | 0x13 => some (3 + dataBytes (bs.getD 1 0))
  | 0x14 => some 1
  | 0x15 => some 1
  | 0x20 => some 2
  | 0x21 => some 1
  | 0x22 => some 3
  | 0x23 => some 1
  | 0x24 => some 1
  | 0x30 => some (4 + (len16 o (bs.getD 2 0) (bs.getD 3 0)).toNat)
  | 0x31 => some 2
  | 0x32 => some (3 + (len16 o (bs.getD 1 0) (bs.getD 2 0)).toNat)
  | 0x33 => some 1
  | _ => none

/-- `bs` followed by bytes of zero, up to `n` bytes. -/
def padTo (n : Nat) (bs : List Byte) : List Byte := bs ++ List.replicate (n - bs.length) 0

/-- How many bits of an RF frame its first two bytes announce (R110, R112, R114). -/
def frameLength (bs : List Byte) : Nat :=
  if bs.getD 1 0 = 0x70 then 56
  else 16 + 8 * ((bs.getD 1 0).toNat / 16 - 2) + (bs.getD 1 0).toNat % 16

/-- The words of a table row: a packet where the first byte is an assigned CMD; else a frame where it is REQA's byte alone
or a SEL code; else a message where it is a catalogue type; else the bytes as a packet, which is refused. -/
def tableWords (o : LenOrder) (nbits w : Nat) : Words :=
  let bs := tableBytes nbits w
  match packetLength o bs with
  | some n => .port (padTo n bs)
  | none =>
    if bs.length = 1 ∧ (bs.getD 0 0) &&& 0x7F = 0x26 then .rf ((bytesToBitsLSB bs).take 7)
    else if (levelOfSel (bs.getD 0 0)).isSome then .rf ((bytesToBitsLSB (padTo 7 bs)).take (frameLength bs))
    else if (bs.getD 0 0).toNat ≤ 9 then .wire (padTo (3 + (len16 o (bs.getD 1 0) (bs.getD 2 0)).toNat) bs)
    else .port bs

/-- The instruction the decoder reads from a word of the opcode table, every bit above `nbits` being 0. -/
def decodeTableWord (nbits w : Nat) : Option Instr :=
  (decode Config.vectorParams.lenOrder (tableWords Config.vectorParams.lenOrder nbits w)).toOption

end Sys2Proof
end

