-- ==== Sys2Proof/Machine/State.lean ====
section
/-! DEFINITION. The state of the block (spec/10_state.md), as plain data: the registers of its sub-blocks, the operations
in progress, the refusal mark, the parameters, and the model's own inputs and outputs. -/

namespace Sys2Proof.Machine

/-- A storage array: its written slots as (index, byte) pairs, indices strictly rising. A slot that is not listed holds no
value (spec/20_memory.md R76, log entry 3). -/
abbrev Memory := List Host.Cell

/-- `AC_STATE` (R33). -/
inductive AcState where
  | idle
  | waitAtqa
  | waitAc
  | waitSak
  deriving DecidableEq, Repr

/-- `AC_RESULT` (R41), by the names of spec/60_exceptions.md R310. -/
inductive AcResult where
  | none
  | ok
  | noTag
  | cancelled
  | errTransport
  | errTimeout
  | errLength
  | errCollpos
  | errBcc
  | errSakColl
  | errCascadeTag
  | errCascadeDepth
  deriving DecidableEq, Repr

/-- The arbiter's registers (R33 to R41). -/
structure Arbiter where
  /-- `AC_STATE` (R33). -/
  state : AcState
  /-- `AC_LEVEL` (R34). -/
  level : Level
  /-- `AC_KNOWN` (R35). -/
  known : Nat
  /-- `AC_CL` (R36). -/
  cl : BitVec 40
  /-- `AC_UID` (R37). -/
  uid : Vector Byte 10
  /-- `AC_UIDLEN` (R37). -/
  uidLen : Nat
  /-- `AC_ATQA` (R38). -/
  atqa : Vector Byte 2
  /-- `AC_SAK` (R39). -/
  sak : Byte
  /-- `AC_CANCEL` (R40). -/
  cancel : Bool
  /-- `AC_RESULT` (R41). -/
  result : AcResult
  deriving DecidableEq, Repr

/-- The FIFO's storage and registers (R43 to R46). -/
structure Fifo where
  /-- `FIFO_MEM` (R43). -/
  mem : Memory
  /-- `FIFO_HEAD` (R44). -/
  head : Nat
  /-- `FIFO_TAIL` (R45). -/
  tail : Nat
  /-- `FIFO_OVF` (R46). -/
  ovf : Bool
  deriving DecidableEq, Repr

/-- `DEC_PHASE` (R47). -/
inductive DecPhase where
  | hdr
  | pay
  deriving DecidableEq, Repr

/-- The decoder's registers and buffer (R47 to R51). -/
structure Decoder where
  /-- `DEC_PHASE` (R47). -/
  phase : DecPhase
  /-- `DEC_HCNT` (R48). -/
  hcnt : Fin 3
  /-- `DEC_HDR` (R48). -/
  hdr : Vector Byte 3
  /-- `DEC_LEN` (R49). -/
  len : U16
  /-- `DEC_CNT` (R49). -/
  cnt : U16
  /-- `DEC_BUF` (R50). -/
  buf : Memory
  /-- `DEC_PEND` (R51). -/
  pend : Bool
  /-- `DEC_PEND_TYPE` (R51). -/
  pendType : Byte
  /-- `DEC_PEND_LEN` (R51). -/
  pendLen : U16
  deriving DecidableEq, Repr

/-- The encoder's operation in progress (R52). -/
structure Encoder where
  /-- `ENC_BUSY` (R52). -/
  busy : Bool
  /-- `ENC_BYTES` (R52). -/
  bytes : List Byte
  /-- `ENC_IDX` (R52). -/
  idx : Nat
  deriving DecidableEq, Repr

/-- A FIFO_READ in progress (R53, R279). -/
structure ReadOp where
  /-- `RD_N`. -/
  n : U16
  /-- `RD_GOT`. -/
  got : List Byte
  deriving DecidableEq, Repr

/-- Bytes WRITER is feeding to the decoder (R53, R243): an FRM_WRITE, a held FRM_DEC or a client message (log entry 18). -/
structure WriteOp where
  /-- `WR_BYTES`. -/
  bytes : List Byte
  /-- `WR_IDX`. -/
  idx : Nat
  /-- Only FRM_WRITE replies a count (spec/30_encoding.md R106). -/
  replies : Bool
  deriving DecidableEq, Repr

/-- What an agent is about to issue, on the interface that carries it (log entry 5). -/
structure Packet where
  agent : Agent
  words : Words
  deriving DecidableEq, Repr

/-- A reply on an agent's reply port (spec/30_encoding.md R106). -/
structure Reply where
  agent : Agent
  bytes : List Byte
  deriving DecidableEq, Repr

/-- The state of the machine. -/
structure State where
  /-- The instance's parameters, never written (R56, log entry 1). -/
  params : Params
  /-- The arbiter (R33 to R41). -/
  ac : Arbiter
  /-- The FIFO (R43 to R46). -/
  fifo : Fifo
  /-- The framer's decoder (R47 to R51). -/
  dec : Decoder
  /-- The framer's encoder (R52). -/
  enc : Encoder
  /-- CONSUMER's operation in progress (R53). -/
  rd : Option ReadOp
  /-- WRITER's operation in progress (R53). -/
  wr : Option WriteOp
  /-- SINK holds in an FRM_ACCEPT (spec/60_exceptions.md R316). -/
  sinkHeld : Bool
  /-- `REFUSED` (R54). -/
  refused : Bool
  /-- The agents that had an operation refused and take no further step (R318), no agent twice. -/
  halted : List Agent
  /-- The model's own: packets not yet issued, each agent's in its order (log entry 5). -/
  pending : List Packet
  /-- The model's own: which agent is offered each coming step (log entry 5). -/
  sched : List Agent
  /-- The model's own: the replies delivered, oldest first (log entry 8). -/
  replies : List Reply
  /-- The model's own: the RF frames TRANSPORT took, oldest first (log entry 8). -/
  rfOut : List (List Bool)
  deriving DecidableEq, Repr

/-- Why the machine stops with a fault. The block itself has none (spec/93_implementation_defined.md): each stands for an
access the spec says never happens (R57, R76), so none is reached from reset (log entries 3 and 16). -/
inductive Fault where
  /-- `FIFO_HEAD` names a slot outside 0..N-1 (spec/20_memory.md R71). Raised by a push. Safe. -/
  | fifoSlotAbsent
  /-- `FIFO_TAIL` names a slot nothing has written since reset (R76). Raised by a pop. Safe. -/
  | fifoSlotUnwritten
  /-- `DEC_CNT` names a slot outside 0..65534 (R71). Raised by the decoder's payload step. Safe. -/
  | decSlotAbsent
  /-- A pending payload has a byte nothing has written (R76). Raised by FRM_ACCEPT. Safe. -/
  | decSlotUnwritten
  /-- `AC_UIDLEN` leaves no room in the ten bytes of `AC_UID` (R37). Raised by the SAK rules. Safe. -/
  | uidSlotAbsent
  /-- `ENC_IDX` names no byte of `ENC_BYTES` (R52). Raised by an encoder push step. Safe. -/
  | encByteAbsent
  /-- `WR_IDX` names no byte of `WR_BYTES` (R53). Raised by a writer step. Safe. -/
  | wrByteAbsent
  deriving DecidableEq, Repr

/-- Why the machine has no meaning for what it is given. The refusals of R318 are not among them: they are next states that
set `REFUSED` (log entry 4). -/
inductive Refusal where
  /-- An instruction without a meaning yet. Raised by `exec`. Safe. -/
  | notModelled (mnemonic : String)
  /-- Bytes that are shorter or longer than the packet CMD announces (R100), or that WORKER is to encode and that are not one
  whole message (R120, R228); log entry 13. Raised by `step`. Safe. -/
  | malformedPacket
  /-- Bits that are no RF frame of R110 to R114 (log entry 13). Raised by `step`. Safe. -/
  | noSuchFrame
  deriving DecidableEq, Repr

/-- The arbiter at reset (spec/70_reset_and_hazards.md R343). -/
def Arbiter.reset : Arbiter where
  state := .idle
  level := .one
  known := 0
  cl := 0
  uid := Vector.replicate 10 0
  uidLen := 0
  atqa := Vector.replicate 2 0
  sak := 0
  cancel := false
  result := .none

/-- The FIFO at reset (R343); its storage holds no value (log entry 3). -/
def Fifo.reset : Fifo where
  mem := []
  head := 0
  tail := 0
  ovf := false

/-- The decoder at reset (R343); its buffer holds no value (log entry 3). -/
def Decoder.reset : Decoder where
  phase := .hdr
  hcnt := 0
  hdr := Vector.replicate 3 0
  len := 0
  cnt := 0
  buf := []
  pend := false
  pendType := 0
  pendLen := 0

/-- The encoder at reset (R343). -/
def Encoder.reset : Encoder where
  busy := false
  bytes := []
  idx := 0

/-- The state after HOST's first RESET of an instance with parameters `p` (R343, R344): nothing refused, nothing to issue. -/
def State.resetWith (p : Params) : State where
  params := p
  ac := .reset
  fifo := .reset
  dec := .reset
  enc := .reset
  rd := none
  wr := none
  sinkHeld := false
  refused := false
  halted := []
  pending := []
  sched := []
  replies := []
  rfOut := []

/-- The machine right after reset, for the instance of spec/95_test_vectors.md (log entry 2). -/
def State.reset : State := State.resetWith Config.vectorParams

end Sys2Proof.Machine
end

