-- ==== Sys2Proof/Machine/Operands.lean ====
section
/-! DEFINITION. Operand forms: the received bits of a response (spec/30_encoding.md R104, R117) and the payload layouts of
the message catalogue (R124 to R127, spec/40_anticollision.md R179). -/

namespace Sys2Proof.Machine

/-- A response to the outstanding frame (R115). -/
inductive Response where
  | timeout
  | xportError
  /-- The received bits and the relative position of the first collision, if any. -/
  | frame (rx : List Bool) (coll : Option Nat)
  deriving DecidableEq, Repr

/-- The NBITS received bits of DATA, padding ignored (R104); a DATA byte that is not there reads as 0 (log entry 17). -/
def rxBits (nbits : Byte) (data : List Byte) : List Bool :=
  (List.range nbits.toNat).map fun i => (data.getD (i / 8) 0).getLsbD (i % 8)

/-- The response an AC_RESP_FRAME packet carries (R103, R104). -/
def frameResponse (nbits : Byte) (coll : Option (BitVec 6)) (data : List Byte) : Response :=
  .frame (rxBits nbits data) (coll.map BitVec.toNat)

/-! ### Integers of a payload (LEN_ORDER: R75, R124) -/

/-- The `n` low bytes of `v`, least significant first. -/
def bytesLE (n v : Nat) : List Byte := (List.range n).map fun i => BitVec.ofNat 8 (v / 256 ^ i)

/-- The number whose bytes are given least significant first. -/
def valueLE : List Byte → Nat
  | [] => 0
  | b :: bs => b.toNat + 256 * valueLE bs

/-- An integer of `n` bytes in `LEN_ORDER`. -/
def intBytes (o : LenOrder) (n v : Nat) : List Byte :=
  match o with
  | .le => bytesLE n v
  | .be => (bytesLE n v).reverse

/-- The integer some bytes hold in `LEN_ORDER`. -/
def intValue (o : LenOrder) (bs : List Byte) : Nat :=
  match o with
  | .le => valueLE bs
  | .be => valueLE bs.reverse

/-! ### Payload layouts -/

/-- The Discover request payload (R124). -/
structure Discover where
  protocols : BitVec 64
  period : BitVec 32
  deviceCount : Byte
  maxBitrate : Byte
  flags : Byte
  deriving DecidableEq, Repr

/-- The 15 bytes of a Discover request (R124). -/
def Discover.toPayload (o : LenOrder) (d : Discover) : List Byte :=
  intBytes o 8 d.protocols.toNat ++ intBytes o 4 d.period.toNat ++ [d.deviceCount, d.maxBitrate, d.flags]

/-- The fields of a 15-byte Discover payload (R124). -/
def Discover.ofPayload (o : LenOrder) (p : List Byte) : Option Discover :=
  if p.length = 15 then
    some { protocols := BitVec.ofNat 64 (intValue o (p.take 8))
           period := BitVec.ofNat 32 (intValue o ((p.drop 8).take 4))
           deviceCount := p.getD 12 0
           maxBitrate := p.getD 13 0
           flags := p.getD 14 0 }
  else none

/-- The ISO-14443-A Select request payload (R125). -/
structure SelectRequest where
  familyTag : Byte
  uid : List Byte
  deriving DecidableEq, Repr

/-- The bytes of a Select request (R125): the family tag, n, the UID; there are none for an n that is not 4, 7 or 10. -/
def SelectRequest.toPayload (r : SelectRequest) : Option (List Byte) :=
  if r.uid.length = 4 ∨ r.uid.length = 7 ∨ r.uid.length = 10 then
    some (r.familyTag :: BitVec.ofNat 8 r.uid.length :: r.uid)
  else none

/-- The fields of a Select payload (R125), the length exact and n one of 4, 7, 10. -/
def SelectRequest.ofPayload : List Byte → Option SelectRequest
  | f :: n :: uid => if (n = 4 ∨ n = 7 ∨ n = 10) ∧ uid.length = n.toNat then some ⟨f, uid⟩ else none
  | _ => none

/-- The Select request for a UID of the family of the block, FAMILY_TAG_A (R125, spec/00_scope.md R15). -/
def selectPayload (p : Params) (uid : List Byte) : Option (List Byte) := SelectRequest.toPayload ⟨p.familyTagA, uid⟩

/-- A Transceive request or response payload (R126). -/
structure Transceive where
  count : U16
  flags : Byte
  data : List Byte
  deriving DecidableEq, Repr

/-- The bytes of a Transceive payload (R126). -/
def Transceive.toPayload (o : LenOrder) (t : Transceive) : List Byte := u16 o t.count ++ t.flags :: t.data

/-- The fields of a Transceive payload (R126); at most 512 bytes follow the flags. -/
def Transceive.ofPayload (o : LenOrder) : List Byte → Option Transceive
  | c1 :: c2 :: flags :: data => if data.length ≤ 512 then some ⟨len16 o c1 c2, flags, data⟩ else none
  | _ => none

/-- `descPayload(ats)` (R179), the layout of R127: FAMILY_TAG_A, ATQA, SAK, n, the UID, a, the ATS. -/
def descPayload (p : Params) (a : Arbiter) (ats : List Byte) : List Byte :=
  p.familyTagA :: (a.atqa.toList ++ a.sak :: BitVec.ofNat 8 a.uidLen :: (a.uid.toList.take a.uidLen
    ++ BitVec.ofNat 8 ats.length :: ats))

/-- The fields of an ISO-14443-A Detected-tag or Selected-tag payload (R127). -/
structure TagDescriptor where
  familyTag : Byte
  atqa0 : Byte
  atqa1 : Byte
  sak : Byte
  uid : List Byte
  ats : List Byte
  deriving DecidableEq, Repr

/-- Reading a payload laid out as R127, the lengths exact and n one of 4, 7, 10. -/
def TagDescriptor.ofPayload : List Byte → Option TagDescriptor
  | f :: q0 :: q1 :: s :: n :: rest =>
    if (n = 4 ∨ n = 7 ∨ n = 10) ∧ n.toNat < rest.length
        ∧ rest.length = n.toNat + 1 + (rest.getD n.toNat 0).toNat then
      some ⟨f, q0, q1, s, rest.take n.toNat, rest.drop (n.toNat + 1)⟩
    else none
  | _ => none

end Sys2Proof.Machine
end

