-- ==== Sys2Proof/Machine/Flags.lean ====
section
/-! DEFINITION. Everything the block computes for a status or check value: register codes (spec/10_state.md R33,
spec/60_exceptions.md R310), the BCC (spec/40_anticollision.md R153), the SAK classifier (R177, R178), FIFO occupancy
(spec/42_fifo.md R271 to R273) and the catalogue check (spec/41_framer.md R247). -/

namespace Sys2Proof.Machine

/-- The code of `AC_STATE` (R33). -/
def AcState.code : AcState → Byte
  | .idle => 0
  | .waitAtqa => 1
  | .waitAc => 2
  | .waitSak => 3

/-- The code of `AC_RESULT` (R310). -/
def AcResult.code : AcResult → Byte
  | .none => 0x00
  | .ok => 0x01
  | .noTag => 0x02
  | .cancelled => 0x03
  | .errTransport => 0x10
  | .errTimeout => 0x20
  | .errLength => 0x21
  | .errCollpos => 0x22
  | .errBcc => 0x23
  | .errSakColl => 0x24
  | .errCascadeTag => 0x25
  | .errCascadeDepth => 0x26

/-- The number of a cascade level (R34). -/
def levelNumber : Level → Nat
  | .one => 1
  | .two => 2
  | .three => 3

/-- The level after this one; there is no level 4 (R170). -/
def nextLevel : Level → Option Level
  | .one => some .two
  | .two => some .three
  | .three => none

/-- `bcc(CL)` (R153). -/
def bcc (cl : BitVec 40) : Byte := clByte cl 0 ^^^ clByte cl 1 ^^^ clByte cl 2 ^^^ clByte cl 3

/-- The level's check byte is right (R153). -/
def bccHolds (cl : BitVec 40) : Bool := bcc cl == clByte cl 4

/-- SAK bit 0x04 (R168). -/
def cascadeBit (s : Byte) : Bool := s &&& 0x04 != 0

/-- `classify(s)` (R177). -/
def classify (mcLike : BitVec 256) (s : Byte) : Byte :=
  if s = 0x00 then 1
  else if s &&& 0x20 ≠ 0 then 2
  else if s &&& 0x40 ≠ 0 then 3
  else if mcLike.getLsbD s.toNat then 4
  else 0

/-- `needsRats(s)` (R178). -/
def needsRats (s : Byte) : Byte := if s &&& 0x20 ≠ 0 then 1 else 0

/-- `classByte(s)` (R176). -/
def classByte (mcLike : BitVec 256) (s : Byte) : Byte := classify mcLike s ||| (needsRats s <<< 7)

/-- `next(i)` (R271). -/
def nextIndex (n i : Nat) : Nat := (i + 1) % n

/-- `occ` (R271): the least non-negative residue of `FIFO_HEAD - FIFO_TAIL` modulo N. -/
def Fifo.occ (n : Nat) (f : Fifo) : Nat := (f.head + (n - f.tail % n)) % n

/-- The FIFO is full (R272). -/
def Fifo.full (n : Nat) (f : Fifo) : Bool := f.occ n == n - 1

/-- The FIFO is empty (R272). -/
def Fifo.empty (f : Fifo) : Bool := f.head == f.tail

/-- `fifoSpace()` (R273). -/
def Fifo.space (n : Nat) (f : Fifo) : Nat := n - 1 - f.occ n

/-- `fifoAvail()` (R273). -/
def Fifo.avail (n : Nat) (f : Fifo) : Nat := f.occ n

/-- What `catalogueCheck` answers (R247). -/
inductive CatalogueResult where
  | ok
  | lengthMismatch
  | unknown
  deriving DecidableEq, Repr

/-- The admitted payload lengths of a catalogue type, least and greatest (spec/30_encoding.md R123). -/
def admittedLength (ty : Byte) : Option (Nat × Nat) :=
  match ty with
  | 0 => some (0, 0)
  | 1 => some (0, 65535)
  | 2 => some (0, 0)
  | 3 => some (0, 0)
  | 4 => some (15, 15)
  | 5 => some (1, 65535)
  | 6 => some (1, 65535)
  | 7 => some (1, 65535)
  | 8 => some (3, 515)
  | 9 => some (3, 515)
  | _ => none

/-- `catalogueCheck(T, L)` (R247): SINK may apply it, the framer does not. -/
def catalogueCheck (ty : Byte) (len : Nat) : CatalogueResult :=
  match admittedLength ty with
  | none => .unknown
  | some (lo, hi) => if lo ≤ len ∧ len ≤ hi then .ok else .lengthMismatch

end Sys2Proof.Machine
end

