-- ==== Sys2Proof/Machine/Memory.lean ====
section
/-! DEFINITION. Reading and writing one byte of a storage array (spec/20_memory.md R70 to R72). -/

namespace Sys2Proof.Machine

/-- What an unlisted slot reads as: no value (R43, R50: reset contents unspecified; log entry 3). -/
def unwritten : Option Byte := none

/-- The byte in slot `i`. -/
def Memory.load : Memory → Nat → Option Byte
  | [], _ => unwritten
  | (k, b) :: rest, i => if k = i then some b else Memory.load rest i

/-- The array after slot `i` is written with `b`, whatever it held; the list stays in rising order. -/
def Memory.put : Memory → Nat → Byte → Memory
  | [], i, b => [(i, b)]
  | (k, v) :: rest, i, b =>
    if i < k then (i, b) :: (k, v) :: rest
    else if i = k then (i, b) :: rest
    else (k, v) :: Memory.put rest i b

/-- A write to an array of `size` slots; an index outside it is no slot (R71). -/
def Memory.store (size : Nat) (m : Memory) (i : Nat) (b : Byte) : Option Memory :=
  if i < size then some (m.put i b) else none

/-- The bytes of slots `i` to `i + n - 1`, where each holds one. -/
def Memory.loadRange (m : Memory) (i : Nat) : Nat → Option (List Byte)
  | 0 => some []
  | n + 1 =>
    match m.load i, Memory.loadRange m (i + 1) n with
    | some b, some bs => some (b :: bs)
    | _, _ => none

/-- The canonical form: indices strictly rising. -/
def Memory.wf : Memory → Bool
  | [] => true
  | (k, _) :: rest => rest.all (fun c => k < c.1) && Memory.wf rest

/-- Every listed slot is one of the array's `size` slots. -/
def Memory.inside (size : Nat) (m : Memory) : Bool := m.all fun c => c.1 < size

end Sys2Proof.Machine
end

