-- ==== Sys2Proof/Machine/Ops.lean ====
section
/-! DEFINITION. The named operations the meanings share: the arbiter's primitives and response rules
(spec/40_anticollision.md), the FIFO's push and pop (spec/42_fifo.md), the framer's steps (spec/41_framer.md), and, in the
place of exceptions, which the block does not have (spec/60_exceptions.md R314), the refusal of R318. -/

namespace Sys2Proof.Machine

/-- The outcome of a step of this machine. -/
abbrev Out := Host.Outcome State Fault Refusal

/-! ### Replies, refusals and the agents' operations -/

/-- A reply on the agent's port (spec/30_encoding.md R106). -/
def State.reply (s : State) (a : Agent) (bytes : List Byte) : State := { s with replies := s.replies ++ [⟨a, bytes⟩] }

/-- Refusal (R318): no register of the block changes, `REFUSED` is set, the issuer takes no further step (log entry 4). -/
def State.refuse (s : State) (a : Agent) : State :=
  { s with refused := true, halted := if a ∈ s.halted then s.halted else s.halted ++ [a] }

/-- The agent has an operation in progress (spec/10_state.md R30, R52, R53). -/
def State.busy (s : State) : Agent → Bool
  | .worker => s.enc.busy
  | .consumer => s.rd.isSome
  | .writer => s.wr.isSome
  | .sink => s.sinkHeld
  | .transport => false
  | .host => false

/-! ### Arbiter -/

/-- AC_START's writes (R150). -/
def Arbiter.start (a : Arbiter) : Arbiter :=
  { a with
    level := .one
    known := 0
    cl := 0
    uid := Vector.replicate 10 0
    uidLen := 0
    atqa := Vector.replicate 2 0
    sak := 0
    cancel := false
    result := .none
    state := .waitAtqa }

/-- `enterLevel(l)` (R151). -/
def Arbiter.enterLevel (l : Level) (a : Arbiter) : Arbiter :=
  { a with level := l, known := 0, cl := 0, state := .waitAc }

/-- `finish(code)` (R152). -/
def Arbiter.finish (r : AcResult) (a : Arbiter) : Arbiter :=
  { a with result := r, state := .idle, cancel := false }

/-- `completeLevel` (R165). -/
def Arbiter.completeLevel (a : Arbiter) : Arbiter :=
  if bccHolds a.cl then { a with state := .waitSak } else a.finish .errBcc

/-- `AC_UID[i..]` takes the bytes given; a byte beyond the ten has no place (R37). -/
def writeUid (uid : Vector Byte 10) (i : Nat) : List Byte → Option (Vector Byte 10)
  | [] => some uid
  | b :: bs => if i < 10 then writeUid (uid.setIfInBounds i b) (i + 1) bs else none

/-- A Frame response in WAIT_ATQA (R160); a collision in the ATQA is ignored (R161). -/
def Arbiter.onAtqa (rx : List Bool) (a : Arbiter) : Arbiter :=
  if rx.length ≠ 16 then a.finish .errLength
  else Arbiter.enterLevel .one { a with atqa := #v[(bitsToBytesLSB rx).getD 0 0, (bitsToBytesLSB rx).getD 1 0] }

/-- The merge without collision (R163). -/
def Arbiter.mergeAll (rx : List Bool) (a : Arbiter) : Arbiter :=
  Arbiter.completeLevel
    { a with cl := fillBits a.cl a.known (fun i => rx.getD i false) (40 - a.known), known := 40 }

/-- The merge with a collision at relative position `c` (R164). -/
def Arbiter.mergeCollision (collBit : Bool) (rx : List Bool) (c : Nat) (a : Arbiter) : Arbiter :=
  let a' := { a with
    cl := setPos (fillBits a.cl a.known (fun i => rx.getD i false) c) (a.known + c) collBit
    known := a.known + c + 1 }
  if a'.known = 40 then a'.completeLevel else a'

/-- A Frame response in WAIT_AC (R162 to R164). -/
def Arbiter.onAnticoll (collBit : Bool) (rx : List Bool) (coll : Option Nat) (a : Arbiter) : Arbiter :=
  if rx.length > 40 - a.known then a.finish .errLength
  else
    match coll with
    | none => if rx.length ≠ 40 - a.known then a.finish .errLength else a.mergeAll rx
    | some c => if c ≥ rx.length then a.finish .errCollpos else a.mergeCollision collBit rx c

/-- A SAK with the cascade bit (R170). -/
def Arbiter.cascade (a : Arbiter) : Except Fault Arbiter :=
  match nextLevel a.level with
  | none => .ok (a.finish .errCascadeDepth)
  | some l =>
    if clByte a.cl 0 ≠ 0x88 then .ok (a.finish .errCascadeTag)
    else
      match writeUid a.uid a.uidLen [clByte a.cl 1, clByte a.cl 2, clByte a.cl 3] with
      | none => .error .uidSlotAbsent
      | some uid => .ok (Arbiter.enterLevel l { a with uid := uid, uidLen := a.uidLen + 3 })

/-- A final SAK (R171). -/
def Arbiter.finalLevel (a : Arbiter) : Except Fault Arbiter :=
  match writeUid a.uid a.uidLen [clByte a.cl 0, clByte a.cl 1, clByte a.cl 2, clByte a.cl 3] with
  | none => .error .uidSlotAbsent
  | some uid => .ok (Arbiter.finish .ok { a with uid := uid, uidLen := a.uidLen + 4 })

/-- A Frame response in WAIT_SAK (R167, R169). -/
def Arbiter.onSak (rx : List Bool) (coll : Option Nat) (a : Arbiter) : Except Fault Arbiter :=
  if rx.length ≠ 8 then .ok (a.finish .errLength)
  else if coll.isSome then .ok (a.finish .errSakColl)
  else
    let s := (bitsToBytesLSB rx).getD 0 0
    if cascadeBit s then Arbiter.cascade { a with sak := s } else Arbiter.finalLevel { a with sak := s }

/-- The response rules after the state check, in the order of R319: cancellation (R154), then the dispatch of R155. -/
def Arbiter.answer (collBit : Bool) (r : Response) (a : Arbiter) : Except Fault Arbiter :=
  if a.cancel then .ok (a.finish .cancelled)
  else
    match r with
    | .xportError => .ok (a.finish .errTransport)
    | .timeout => .ok (a.finish (if a.state = .waitAtqa then .noTag else .errTimeout))
    | .frame rx coll =>
      match a.state with
      | .idle => .ok a
      | .waitAtqa => .ok (a.onAtqa rx)
      | .waitAc => .ok (a.onAnticoll collBit rx coll)
      | .waitSak => a.onSak rx coll

/-- A response operation (R154): refused in IDLE, else the response rules. -/
def respond (r : Response) (s : State) : Out :=
  if s.ac.state = .idle then .next (s.refuse .transport)
  else
    match s.ac.answer s.params.collBit r with
    | .error f => .fault f
    | .ok ac => .next { s with ac := ac }

/-- `AC_TX` (spec/10_state.md R42, spec/30_encoding.md R114). -/
def acTx (a : Arbiter) : Option (List Bool) :=
  match a.state with
  | .idle => none
  | .waitAtqa => some reqaBits
  | .waitAc => some (anticollBits a.level (clPrefix a.cl a.known))
  | .waitSak => some (selectBits a.level a.cl)

/-- TRANSPORT takes the frame given from the arbiter's port: it is there exactly when it is the outstanding frame, and
taking it changes no register (R42, R114; log entry 9). -/
def presentFrame (frame : List Bool) (s : State) : Out :=
  if acTx s.ac = some frame then .next { s with rfOut := s.rfOut ++ [frame] } else .next s

/-- The descriptor AC_DESC replies (R176). -/
def descriptor (p : Params) (a : Arbiter) : List Byte :=
  if a.state = .idle ∧ a.result = .ok then
    0x00 :: (a.atqa.toList ++ a.sak :: classByte p.mcLike a.sak :: BitVec.ofNat 8 a.uidLen :: a.uid.toList.take a.uidLen)
  else [0x01]

/-! ### FIFO -/

/-- `push(b)` (R275): whether the byte was queued, and the FIFO after it. -/
def Fifo.push (n : Nat) (b : Byte) (f : Fifo) : Except Fault (Bool × Fifo) :=
  if f.full n then .ok (false, { f with ovf := true })
  else
    match f.mem.store n f.head b with
    | none => .error .fifoSlotAbsent
    | some mem => .ok (true, { f with mem := mem, head := nextIndex n f.head })

/-- The oldest byte and the FIFO without it (R277), for a FIFO that is not empty. -/
def Fifo.take (n : Nat) (f : Fifo) : Except Fault (Byte × Fifo) :=
  match f.mem.load f.tail with
  | none => .error .fifoSlotUnwritten
  | some b => .ok (b, { f with tail := nextIndex n f.tail })

/-- One iteration of FIFO_READ's loop, and its hold (R279): an agent that holds has no step, so nothing changes. -/
def readStep (op : ReadOp) (s : State) : Out :=
  if op.got = [] ∧ s.fifo.empty then .next s
  else if op.got.length = op.n.toNat ∨ s.fifo.empty then
    .next (State.reply { s with rd := none } .consumer
      (u16 s.params.lenOrder (BitVec.ofNat 16 op.got.length) ++ op.got))
  else
    match s.fifo.take s.params.fifoDepth with
    | .error f => .fault f
    | .ok (b, fifo) => .next { s with fifo := fifo, rd := some { op with got := op.got ++ [b] } }

/-! ### Framer: encoder -/

/-- FRM_ENC's first step (R228): the space check under ATOMIC (R229), then the push steps are due. -/
def encodeStart (ty : Byte) (payload : List Byte) (s : State) : Out :=
  let bytes := ser s.params.lenOrder ty payload
  if s.params.ovfPolicy = .atomic ∧ s.fifo.space s.params.fifoDepth < bytes.length then
    .next (State.reply { s with fifo := { s.fifo with ovf := true } } .worker [0x01])
  else .next { s with enc := { busy := true, bytes := bytes, idx := 0 } }

/-- An encoder push step (R231). Under TRUNCATE, CONSUMER's pops between the pushes make room, so a message of more than
N - 1 bytes can be pushed whole and end OK; R232's "always ends OVERFLOW" is read as said without such pops (DEDUCED, log
entry 21). -/
def encodeStep (s : State) : Out :=
  match s.enc.bytes[s.enc.idx]? with
  | none => .fault .encByteAbsent
  | some b =>
    match s.fifo.push s.params.fifoDepth b with
    | .error f => .fault f
    | .ok (false, fifo) =>
      .next (State.reply { s with fifo := fifo, enc := { s.enc with busy := false } } .worker [0x01])
    | .ok (true, fifo) =>
      if s.enc.idx + 1 = s.enc.bytes.length then
        .next (State.reply { s with fifo := fifo, enc := { s.enc with busy := false, idx := s.enc.idx + 1 } } .worker
          [0x00])
      else .next { s with fifo := fifo, enc := { s.enc with idx := s.enc.idx + 1 } }

/-! ### Framer: decoder -/

/-- `dispatch(t, l)` (R239). -/
def Decoder.dispatch (ty : Byte) (len : U16) (d : Decoder) : Decoder :=
  { d with pendType := ty, pendLen := len, pend := true }

/-- The third header byte is in (R237): the length is known. -/
def Decoder.headerDone (o : LenOrder) (d : Decoder) : Decoder :=
  let len := len16 o d.hdr[1] d.hdr[2]
  let d' := { d with hcnt := 0, len := len }
  if len = 0 then d'.dispatch d.hdr[0] 0 else { d' with phase := .pay, cnt := 0 }

/-- The header step (R237). -/
def Decoder.headerStep (o : LenOrder) (b : Byte) (d : Decoder) : Decoder :=
  match d.hcnt with
  | 0 => { d with hdr := d.hdr.set 0 b, hcnt := 1 }
  | 1 => { d with hdr := d.hdr.set 1 b, hcnt := 2 }
  | 2 => Decoder.headerDone o { d with hdr := d.hdr.set 2 b }

/-- The number of slots of `DEC_BUF` (spec/10_state.md R50). -/
def decBufSize : Nat := 65535

/-- The payload step (R238). -/
def Decoder.payloadStep (b : Byte) (d : Decoder) : Except Fault Decoder :=
  match d.buf.store decBufSize d.cnt.toNat b with
  | none => .error .decSlotAbsent
  | some buf =>
    let d' := { d with buf := buf, cnt := d.cnt + 1 }
    if d'.cnt = d.len then .ok (Decoder.dispatch d.hdr[0] d.len { d' with phase := .hdr }) else .ok d'

/-- FRM_DEC's step on one byte, the decoder not holding (R236). -/
def Decoder.feed (o : LenOrder) (b : Byte) (d : Decoder) : Except Fault Decoder :=
  match d.phase with
  | .hdr => .ok (d.headerStep o b)
  | .pay => d.payloadStep b

/-- WRITER's operation after its byte at `WR_IDX` is consumed (R243): the next byte is due, or the operation is over and an
FRM_WRITE replies its count. -/
def writeAdvance (op : WriteOp) (s : State) : State :=
  if op.idx + 1 = op.bytes.length then
    if op.replies then
      State.reply { s with wr := none } .writer (u16 s.params.lenOrder (BitVec.ofNat 16 op.bytes.length))
    else { s with wr := none }
  else { s with wr := some { op with idx := op.idx + 1 } }

/-- One byte of WRITER's operation (R236, R243): while a message is pending the writer holds, and nothing changes. -/
def writeStep (op : WriteOp) (s : State) : Out :=
  if s.dec.pend then .next s
  else
    match op.bytes[op.idx]? with
    | none => .fault .wrByteAbsent
    | some b =>
      match s.dec.feed s.params.lenOrder b with
      | .error f => .fault f
      | .ok dec => .next (writeAdvance op { s with dec := dec })

/-- WRITER begins to feed bytes to the decoder, the first in a coming step (log entry 7). -/
def writeStart (bytes : List Byte) (replies : Bool) (s : State) : Out :=
  .next { s with wr := some { bytes := bytes, idx := 0, replies := replies } }

/-- The message pending in the decoder, as FRM_ACCEPT replies it (R246). -/
def Decoder.message (o : LenOrder) (d : Decoder) : Option (List Byte) :=
  (d.buf.loadRange 0 d.pendLen.toNat).map fun payload => d.pendType :: (u16 o d.pendLen ++ payload)

/-- FRM_ACCEPT's step (R246): it holds while nothing is pending. -/
def acceptStep (s : State) : Out :=
  if s.dec.pend then
    match s.dec.message s.params.lenOrder with
    | none => .fault .decSlotUnwritten
    | some msg => .next (State.reply { s with dec := { s.dec with pend := false }, sinkHeld := false } .sink msg)
  else .next { s with sinkHeld := true }

/-! ### Wire messages (log entry 10) -/

/-- A client's message enters the block: WRITER feeds `ser(T, P)` to the decoder (R221). -/
def clientMessage (ty : Byte) (payload : List Byte) (s : State) : Out :=
  writeStart (ser s.params.lenOrder ty payload) false s

/-- Wire bytes, whatever types they hold (R122: no type is illegal to the framer; log entry 10). WRITER's are a chunk of the
client's stream, which may end inside a message (R242); WORKER's are one whole message for the encoder (R228). No other agent
carries wire bytes (R318). -/
def carryWire (a : Agent) (bytes : List Byte) (s : State) : Out :=
  match a with
  | .writer => if bytes = [] then .next s else writeStart bytes false s
  | .worker =>
    match wholeMessage s.params.lenOrder bytes with
    | none => .refused .malformedPacket
    | some (ty, payload) => encodeStart ty payload s
  | .consumer => .next (s.refuse a)
  | .sink => .next (s.refuse a)
  | .transport => .next (s.refuse a)
  | .host => .next (s.refuse a)

/-- A driver's message leaves the worker: the encoder takes it as one FRM_ENC (R228). -/
def driverMessage (ty : Byte) (payload : List Byte) (s : State) : Out := encodeStart ty payload s

end Sys2Proof.Machine
end

