-- ==== Sys2Proof/Machine/Arbitration.lean ====
section
/-! DEFINITION. The arbiter's operations (spec/40_anticollision.md). -/

namespace Sys2Proof.Machine

/-- AC_START (R150): refused while a run is in progress. -/
def execAcStart (s : State) : Out :=
  if s.ac.state = .idle then .next { s with ac := s.ac.start } else .next (s.refuse .worker)

/-- AC_RESP_TIMEOUT (R158). -/
def execAcRespTimeout (s : State) : Out := respond .timeout s

/-- AC_RESP_XERR (R157). -/
def execAcRespXerr (s : State) : Out := respond .xportError s

/-- AC_RESP_FRAME (R159). -/
def execAcRespFrame (nbits : Byte) (coll : Option (BitVec 6)) (data : List Byte) (s : State) : Out :=
  respond (frameResponse nbits coll data) s

/-- AC_RESP_BYTES (R108): AC_RESP_FRAME with NBITS = 8 * |data| and no collision. -/
def execAcRespBytes (data : List Byte) (s : State) : Out :=
  respond (frameResponse (BitVec.ofNat 8 (8 * data.length)) none data) s

/-- AC_RESP_COLL (R108): AC_RESP_FRAME with a collision at `c`. -/
def execAcRespColl (nbits : Byte) (c : BitVec 6) (data : List Byte) (s : State) : Out :=
  respond (frameResponse nbits (some c) data) s

/-- AC_STATUS (R175). -/
def execAcStatus (s : State) : Out := .next (s.reply .worker [s.ac.state.code, s.ac.result.code])

/-- AC_DESC (R176). -/
def execAcDesc (s : State) : Out := .next (s.reply .worker (descriptor s.params s.ac))

end Sys2Proof.Machine
end

