-- ==== Sys2Proof/Machine/Control.lean ====
section
/-! DEFINITION. RESET and CANCEL (spec/70_reset_and_hazards.md R340 to R343). -/

namespace Sys2Proof.Machine

/-- Every register of the block at its reset value and no operation in progress (R340, R342, R343); `REFUSED`, the halted
agents, the parameters and the agents' inputs and outputs stay (log entries 3, 4 and 5). -/
def State.applyReset (s : State) : State :=
  { s with
    ac := .reset
    fifo := .reset
    dec := .reset
    enc := .reset
    rd := none
    wr := none
    sinkHeld := false }

/-- RESET (R340). -/
def execReset (s : State) : Out := .next s.applyReset

/-- CANCEL (R341). -/
def execCancel (s : State) : Out :=
  .next (if s.ac.state = .idle then s else { s with ac := { s.ac with cancel := true } })

end Sys2Proof.Machine
end

