-- ==== Sys2Proof/Machine/Framer.lean ====
section
/-! DEFINITION. The framer's operations (spec/41_framer.md). -/

namespace Sys2Proof.Machine

/-- FRM_ENC (R228): its first step; the push steps of R231 follow. -/
def execFrmEnc (ty : Byte) (payload : List Byte) (s : State) : Out := encodeStart ty payload s

/-- FRM_DEC (R236): one step on the byte, or the byte is held while a message is pending (log entry 18). -/
def execFrmDec (b : Byte) (s : State) : Out :=
  if s.dec.pend then .next { s with wr := some { bytes := [b], idx := 0, replies := false } }
  else
    match s.dec.feed s.params.lenOrder b with
    | .error f => .fault f
    | .ok dec => .next { s with dec := dec }

/-- FRM_WRITE (R243): an empty chunk replies at once; else its bytes follow, one a step (log entry 7). -/
def execFrmWrite (bytes : List Byte) (s : State) : Out :=
  if bytes = [] then .next (s.reply .writer (u16 s.params.lenOrder 0)) else writeStart bytes true s

/-- FRM_ACCEPT (R246). -/
def execFrmAccept (s : State) : Out := acceptStep s

end Sys2Proof.Machine
end

