-- ==== Sys2Proof/Machine/Messages.lean ====
section
/-! DEFINITION. The catalogue's messages as steps of the agent that sends them (spec/30_encoding.md R123, log entry 10):
WORKER's go to the encoder, the client's to the decoder. -/

namespace Sys2Proof.Machine

/-- MSG_IDENTIFY (type 0, client to driver). -/
def execMsgIdentify (payload : List Byte) (s : State) : Out := clientMessage 0 payload s

/-- MSG_IDENTIFY_RESP (type 1, driver to client). -/
def execMsgIdentifyResp (payload : List Byte) (s : State) : Out := driverMessage 1 payload s

/-- MSG_IDLE (type 2, client to driver). -/
def execMsgIdle (payload : List Byte) (s : State) : Out := clientMessage 2 payload s

/-- MSG_IDLE_ACK (type 3, driver to client). -/
def execMsgIdleAck (payload : List Byte) (s : State) : Out := driverMessage 3 payload s

/-- MSG_DISCOVER (type 4, client to driver). -/
def execMsgDiscover (payload : List Byte) (s : State) : Out := clientMessage 4 payload s

/-- MSG_DETECTED_TAG (type 5, driver to client). -/
def execMsgDetectedTag (payload : List Byte) (s : State) : Out := driverMessage 5 payload s

/-- MSG_SELECT (type 6, client to driver). -/
def execMsgSelect (payload : List Byte) (s : State) : Out := clientMessage 6 payload s

/-- MSG_SELECTED_TAG (type 7, driver to client). -/
def execMsgSelectedTag (payload : List Byte) (s : State) : Out := driverMessage 7 payload s

/-- MSG_TRANSCEIVE (type 8, client to driver). -/
def execMsgTransceive (payload : List Byte) (s : State) : Out := clientMessage 8 payload s

/-- MSG_TRANSCEIVE_RESP (type 9, driver to client). -/
def execMsgTransceiveResp (payload : List Byte) (s : State) : Out := driverMessage 9 payload s

end Sys2Proof.Machine
end

