-- ==== Sys2Proof/Machine/Queue.lean ====
section
/-! DEFINITION. The FIFO's operations (spec/42_fifo.md). -/

namespace Sys2Proof.Machine

/-- FIFO_PUSH (R275). -/
def execFifoPush (b : Byte) (s : State) : Out :=
  match s.fifo.push s.params.fifoDepth b with
  | .error f => .fault f
  | .ok (true, fifo) => .next (State.reply { s with fifo := fifo } .worker [0x00])
  | .ok (false, fifo) => .next (State.reply { s with fifo := fifo } .worker [0x01])

/-- FIFO_POP (R277). -/
def execFifoPop (s : State) : Out :=
  if s.fifo.empty then .next (s.reply .consumer [0x01])
  else
    match s.fifo.take s.params.fifoDepth with
    | .error f => .fault f
    | .ok (b, fifo) => .next (State.reply { s with fifo := fifo } .consumer [0x00, b])

/-- FIFO_READ (R279): n = 0 replies at once; else the read is in progress and its iterations follow (log entry 7). -/
def execFifoRead (n : U16) (s : State) : Out :=
  if n = 0 then .next (s.reply .consumer (u16 s.params.lenOrder 0))
  else .next { s with rd := some { n := n, got := [] } }

/-- FIFO_AVAIL (R280). -/
def execFifoAvail (s : State) : Out :=
  .next (s.reply .consumer (u16 s.params.lenOrder (BitVec.ofNat 16 (s.fifo.avail s.params.fifoDepth))))

/-- FIFO_SPACE (R281). -/
def execFifoSpace (s : State) : Out :=
  .next (s.reply .worker (u16 s.params.lenOrder (BitVec.ofNat 16 (s.fifo.space s.params.fifoDepth))))

end Sys2Proof.Machine
end

