-- ==== Sys2Proof/Machine/RfFrames.lean ====
section
/-! DEFINITION. The RF frames as steps of TRANSPORT (spec/30_encoding.md R110 to R114, log entry 9). -/

namespace Sys2Proof.Machine

/-- RF_REQA (R110). -/
def execRfReqa (s : State) : Out := presentFrame reqaBits s

/-- RF_ANTICOLL_CL1 (R113). -/
def execRfAnticollCl1 (known : List Bool) (s : State) : Out := presentFrame (anticollBits .one known) s

/-- RF_SELECT_CL1 (R114). -/
def execRfSelectCl1 (cl : BitVec 40) (s : State) : Out := presentFrame (selectBits .one cl) s

/-- RF_ANTICOLL_CL2 (R113). -/
def execRfAnticollCl2 (known : List Bool) (s : State) : Out := presentFrame (anticollBits .two known) s

/-- RF_SELECT_CL2 (R114). -/
def execRfSelectCl2 (cl : BitVec 40) (s : State) : Out := presentFrame (selectBits .two cl) s

/-- RF_ANTICOLL_CL3 (R113). -/
def execRfAnticollCl3 (known : List Bool) (s : State) : Out := presentFrame (anticollBits .three known) s

/-- RF_SELECT_CL3 (R114). -/
def execRfSelectCl3 (cl : BitVec 40) (s : State) : Out := presentFrame (selectBits .three cl) s

end Sys2Proof.Machine
end

