-- ==== Sys2Proof/Machine/Dispatch.lean ====
section
/-! DEFINITION. What an instruction does when its own agent issues it: one arm per constructor. -/

namespace Sys2Proof.Machine

/-- One instruction. -/
def exec (i : Instr) (s : State) : Host.Outcome State Fault Refusal :=
  match i with
  | .reset => Sys2Proof.Machine.execReset s
  | .cancel => Sys2Proof.Machine.execCancel s
  | .acStart => Sys2Proof.Machine.execAcStart s
  | .acRespTimeout => Sys2Proof.Machine.execAcRespTimeout s
  | .acRespXerr => Sys2Proof.Machine.execAcRespXerr s
  | .acRespFrame nbits coll data => Sys2Proof.Machine.execAcRespFrame nbits coll data s
  | .acStatus => Sys2Proof.Machine.execAcStatus s
  | .acDesc => Sys2Proof.Machine.execAcDesc s
  | .fifoPush b => Sys2Proof.Machine.execFifoPush b s
  | .fifoPop => Sys2Proof.Machine.execFifoPop s
  | .fifoRead n => Sys2Proof.Machine.execFifoRead n s
  | .fifoAvail => Sys2Proof.Machine.execFifoAvail s
  | .fifoSpace => Sys2Proof.Machine.execFifoSpace s
  | .frmEnc ty payload => Sys2Proof.Machine.execFrmEnc ty payload s
  | .frmDec b => Sys2Proof.Machine.execFrmDec b s
  | .frmWrite bytes => Sys2Proof.Machine.execFrmWrite bytes s
  | .frmAccept => Sys2Proof.Machine.execFrmAccept s
  | .acRespBytes data => Sys2Proof.Machine.execAcRespBytes data s
  | .acRespColl nbits c data => Sys2Proof.Machine.execAcRespColl nbits c data s
  | .rfReqa => Sys2Proof.Machine.execRfReqa s
  | .rfAnticollCl1 known => Sys2Proof.Machine.execRfAnticollCl1 known s
  | .rfSelectCl1 cl => Sys2Proof.Machine.execRfSelectCl1 cl s
  | .rfAnticollCl2 known => Sys2Proof.Machine.execRfAnticollCl2 known s
  | .rfSelectCl2 cl => Sys2Proof.Machine.execRfSelectCl2 cl s
  | .rfAnticollCl3 known => Sys2Proof.Machine.execRfAnticollCl3 known s
  | .rfSelectCl3 cl => Sys2Proof.Machine.execRfSelectCl3 cl s
  | .msgIdentify payload => Sys2Proof.Machine.execMsgIdentify payload s
  | .msgIdentifyResp payload => Sys2Proof.Machine.execMsgIdentifyResp payload s
  | .msgIdle payload => Sys2Proof.Machine.execMsgIdle payload s
  | .msgIdleAck payload => Sys2Proof.Machine.execMsgIdleAck payload s
  | .msgDiscover payload => Sys2Proof.Machine.execMsgDiscover payload s
  | .msgDetectedTag payload => Sys2Proof.Machine.execMsgDetectedTag payload s
  | .msgSelect payload => Sys2Proof.Machine.execMsgSelect payload s
  | .msgSelectedTag payload => Sys2Proof.Machine.execMsgSelectedTag payload s
  | .msgTransceive payload => Sys2Proof.Machine.execMsgTransceive payload s
  | .msgTransceiveResp payload => Sys2Proof.Machine.execMsgTransceiveResp payload s

end Sys2Proof.Machine
end

