-- ==== Sys2Proof/Machine/Issue.lean ====
section
/-! DEFINITION. How an agent's step is found (spec/10_state.md R30, spec/00_scope.md R22, log entry 5): its packet, its
operation in progress, and how a word of the opcode table is given to its agent. -/

namespace Sys2Proof.Machine

/-- The first packet of agent `a`, and the packets without it. -/
def takePacket (a : Agent) : List Packet → Option (Packet × List Packet)
  | [] => none
  | p :: rest =>
    if p.agent = a then some (p, rest)
    else
      match takePacket a rest with
      | none => none
      | some (q, others) => some (q, p :: others)

/-- Words that are no instruction of the agent's own: wire bytes are carried whatever their type (R122), a packet or frame
of another agent's is refused (R318). -/
def otherWords (p : Packet) (s : State) : Out :=
  match p.words with
  | .wire bytes => carryWire p.agent bytes s
  | .port _ => .next (s.refuse p.agent)
  | .rf _ => .next (s.refuse p.agent)

/-- Words that are no instruction: a reserved CMD or COLL is refused as R318 says; wire bytes that are no catalogue message
are carried (R122); bytes that are no packet and bits that are no frame have no meaning (log entry 13). -/
def rejectWords (p : Packet) (s : State) : DecodeError → Out
  | .reservedCmd => .next (s.refuse p.agent)
  | .reservedColl => .next (s.refuse p.agent)
  | .malformedPacket => .refused .malformedPacket
  | .noSuchFrame => .refused .noSuchFrame
  | .uncatalogued => otherWords p s

/-- The next step of the operation the agent has in progress (R231, R243, R246, R279). -/
def continueOp (a : Agent) (s : State) : Out :=
  match a with
  | .worker => if s.enc.busy then encodeStep s else .next s
  | .consumer =>
    match s.rd with
    | none => .next s
    | some op => readStep op s
  | .writer =>
    match s.wr with
    | none => .next s
    | some op => writeStep op s
  | .sink => if s.sinkHeld then acceptStep s else .next s
  | .transport => .next s
  | .host => .next s

/-- The agent with no operation in progress and not halted: it can issue a packet. -/
def State.freeAgent (s : State) (a : Agent) : State :=
  match a with
  | .worker => { s with enc := { s.enc with busy := false }, halted := s.halted.filter (· ≠ a) }
  | .consumer => { s with rd := none, halted := s.halted.filter (· ≠ a) }
  | .writer => { s with wr := none, halted := s.halted.filter (· ≠ a) }
  | .sink => { s with sinkHeld := false, halted := s.halted.filter (· ≠ a) }
  | .transport => { s with halted := s.halted.filter (· ≠ a) }
  | .host => { s with halted := s.halted.filter (· ≠ a) }

/-- The packet that carries a word of the opcode table: its agent is the one that issues the instruction (R31), HOST where
the word is no instruction. -/
def tablePacket (o : LenOrder) (nbits w : Nat) : Packet :=
  let words := tableWords o nbits w
  match decode o words with
  | .ok i => { agent := agentOf i, words := words }
  | .error _ => { agent := .host, words := words }

/-- The state in which `p`'s agent issues `p` next. -/
def State.offer (s : State) (p : Packet) : State :=
  { s.freeAgent p.agent with pending := p :: s.pending, sched := p.agent :: s.sched }

end Sys2Proof.Machine
end

