-- ==== Sys2Proof/Machine/Step.lean ====
section
/-! DEFINITION. One step of the machine: the agent whose turn it is takes its next step (spec/00_scope.md R22). -/

namespace Sys2Proof.Machine

/-- A packet is issued: the packet checks of spec/60_exceptions.md R319 (1), then the operation. -/
def issue (p : Packet) (s : State) : Out :=
  match decode s.params.lenOrder p.words with
  | .error e => rejectWords p s e
  | .ok i => if agentOf i = p.agent then exec i s else otherWords p s

/-- Agent `a` is offered a step: none once it is halted (R318); else its operation in progress goes on (R30); else it
issues its next packet, if it has one. -/
def agentStep (a : Agent) (s : State) : Out :=
  if a ∈ s.halted then .next s
  else if s.busy a then continueOp a s
  else
    match takePacket a s.pending with
    | none => .next s
    | some (p, rest) => issue p { s with pending := rest }

/-- One step; with no agent offered a step, nothing happens (log entry 6). -/
def step (s : State) : Host.Outcome State Fault Refusal :=
  match s.sched with
  | [] => .next s
  | a :: rest => agentStep a { s with sched := rest }

/-- `s` with the instruction of a table word as the next packet issued (log entries 5 and 12). -/
def State.withFetchWord (s : State) (nbits w : Nat) : State := s.offer (tablePacket s.params.lenOrder nbits w)

end Sys2Proof.Machine
end

