-- ==== Sys2Proof/Safety.lean ====
section
/-! DEFINITION. What a safe state and a safe step are, in the terms the statements use: the invariants of
spec/10_state.md R57 with what R34 to R52, R76 and R233 add, the queue the FIFO holds, and runs of responses and of queue
operations. -/

namespace Sys2Proof.Machine

/-! ### Invariants -/

/-- The arbiter's part of R57, with the ranges of R35 to R37 and the check byte of R173. -/
abbrev ArbiterInv (a : Arbiter) : Prop :=
  a.known ≤ 40
  ∧ (∀ p, p < 40 → a.known ≤ p → a.cl.getLsbD p = false)
  ∧ a.uidLen ∈ [0, 3, 4, 6, 7, 10]
  ∧ (∀ i, i < 10 → a.uidLen ≤ i → a.uid.toList.getD i 0 = 0)
  ∧ (a.state ≠ .idle → a.uidLen = 3 * (levelNumber a.level - 1) ∧ a.result = .none)
  ∧ (a.state = .waitAtqa → a.level = .one ∧ a.known = 0)
  ∧ (a.state = .waitAc → a.known ≤ 39)
  ∧ (a.state = .waitSak → a.known = 40 ∧ bccHolds a.cl = true)
  ∧ (a.state = .idle → a.result = .ok → a.uidLen = 3 * (levelNumber a.level - 1) + 4)
  ∧ (a.cancel = true → a.state ≠ .idle)

/-- The FIFO's part of R57, the canonical form of its storage, and R76: every queued slot was written. -/
abbrev FifoInv (n : Nat) (f : Fifo) : Prop :=
  f.mem.wf = true
  ∧ f.mem.inside n = true
  ∧ f.head < n
  ∧ f.tail < n
  ∧ ∀ j, j < f.occ n → (f.mem.load ((f.tail + j) % n)).isSome = true

/-- The decoder's part of R57 and R241, the canonical form of its buffer, and R76: every byte accumulated or pending was
written. -/
abbrev DecoderInv (d : Decoder) : Prop :=
  d.buf.wf = true
  ∧ d.buf.inside decBufSize = true
  ∧ (d.phase = .pay → d.hcnt = 0 ∧ d.cnt.toNat < d.len.toNat
      ∧ ∀ j, j < d.cnt.toNat → (d.buf.load j).isSome = true)
  ∧ (d.pend = true → d.phase = .hdr ∧ d.hcnt = 0
      ∧ ∀ j, j < d.pendLen.toNat → (d.buf.load j).isSome = true)

/-- The encoder's ranges (R52). -/
abbrev EncoderInv (e : Encoder) : Prop :=
  e.bytes.length ≤ 65538
  ∧ e.idx ≤ e.bytes.length
  ∧ (e.busy = true → 3 ≤ e.bytes.length ∧ e.idx < e.bytes.length)

/-- R233: under ATOMIC the bytes still to push always fit. -/
abbrev AtomicRoom (s : State) : Prop :=
  s.params.ovfPolicy = .atomic → s.enc.busy = true →
    s.enc.bytes.length - s.enc.idx ≤ s.fifo.space s.params.fifoDepth

/-- The operations of CONSUMER and WRITER in progress are in range (R53). -/
abbrev ProgressInv (s : State) : Prop :=
  (∀ op ∈ s.rd, 0 < op.n.toNat ∧ op.got.length ≤ op.n.toNat)
  ∧ (∀ op ∈ s.wr, op.idx < op.bytes.length)

/-- An agent is halted exactly when an operation was refused, and is listed once (R54, R318). -/
abbrev RefusalInv (s : State) : Prop := (s.refused = true ↔ s.halted ≠ []) ∧ s.halted.Nodup

/-- The invariant of the machine. -/
abbrev BlockInv (s : State) : Prop :=
  s.params.Legal
  ∧ ArbiterInv s.ac
  ∧ FifoInv s.params.fifoDepth s.fifo
  ∧ DecoderInv s.dec
  ∧ EncoderInv s.enc
  ∧ AtomicRoom s
  ∧ ProgressInv s
  ∧ RefusalInv s

/-! ### Steps -/

/-- The step stops with a fault. -/
def faults (o : Out) : Prop := ∃ f, o = .fault f

/-- It is agent `a`'s turn. -/
abbrev Turn (a : Agent) (s : State) : Prop := s.sched.head? = some a

/-- It is `a`'s turn, and `a` may step: it is not halted. -/
abbrev LiveTurn (a : Agent) (s : State) : Prop := Turn a s ∧ a ∉ s.halted

/-- The state once the turn is handed over (log entry 5). -/
abbrev handOver (s : State) : State := { s with sched := s.sched.tail }

/-- It is `a`'s turn, `a` has no operation in progress, and its next packet is `p`, `rest` being the packets after it. -/
abbrev Issues (s : State) (p : Packet) (rest : List Packet) : Prop :=
  LiveTurn p.agent s ∧ s.busy p.agent = false ∧ takePacket p.agent s.pending = some (p, rest)

/-- The step of the agent whose turn it is runs instruction `i` of its next packet. -/
abbrev Runs (i : Instr) (s : State) : Prop :=
  ∃ p rest, Issues s p rest ∧ decode s.params.lenOrder p.words = .ok i ∧ agentOf i = p.agent

/-- The state in which the packet issued is executed. -/
abbrev taken (s : State) (rest : List Packet) : State := { s with sched := s.sched.tail, pending := rest }

/-- `k` steps, stopping at the first that answers no next state. -/
def runFor : Nat → State → Out
  | 0, s => .next s
  | k + 1, s =>
    match step s with
    | .next t => runFor k t
    | .fault f => .fault f
    | .refused r => .refused r

/-- No byte of storage differs. -/
abbrev KeepsStorage (s t : State) : Prop :=
  ∀ i, t.fifo.mem.load i = s.fifo.mem.load i ∧ t.dec.buf.load i = s.dec.buf.load i

/-- Every register of the block and every operation in progress is the same. -/
abbrev KeepsRegisters (s t : State) : Prop :=
  t.ac = s.ac ∧ t.fifo = s.fifo ∧ t.dec = s.dec ∧ t.enc = s.enc ∧ t.rd = s.rd ∧ t.wr = s.wr ∧ t.sinkHeld = s.sinkHeld

/-! ### Instructions of one shape -/

/-- `rx[i] = DATA[i div 8][i mod 8]` (R104). -/
def rxBit (data : List Byte) (i : Nat) : Bool := (data.getD (i / 8) 0).getLsbD (i % 8)

/-- The XOR of the first four bytes of a UID CLn is its fifth (R153). -/
abbrev CheckByteHolds (cl : BitVec 40) : Prop :=
  clByte cl 0 ^^^ clByte cl 1 ^^^ clByte cl 2 ^^^ clByte cl 3 = clByte cl 4

/-- NBITS, COLL and DATA of an instruction that is an AC_RESP_FRAME packet (R103, R104, R108). -/
def frameOperands : Instr → Option (Byte × Option (BitVec 6) × List Byte)
  | .acRespFrame nbits coll data => some (nbits, coll, data)
  | .acRespBytes data => some (BitVec.ofNat 8 (8 * data.length), none, data)
  | .acRespColl nbits c data => some (nbits, some c, data)
  | _ => none

/-- The instruction is a response operation (R115, R154). -/
def isResponse (i : Instr) : Bool :=
  (frameOperands i).isSome || i == .acRespTimeout || i == .acRespXerr

/-- The type and payload of an instruction that goes to the encoder: FRM_ENC and the driver's messages (R123, R228). -/
def encoderOperands : Instr → Option (Byte × List Byte)
  | .frmEnc ty payload => some (ty, payload)
  | .msgIdentifyResp p => some (1, p)
  | .msgIdleAck p => some (3, p)
  | .msgDetectedTag p => some (5, p)
  | .msgSelectedTag p => some (7, p)
  | .msgTransceiveResp p => some (9, p)
  | _ => none

/-- The type and payload of a client's message (R123). -/
def clientOperands : Instr → Option (Byte × List Byte)
  | .msgIdentify p => some (0, p)
  | .msgIdle p => some (2, p)
  | .msgDiscover p => some (4, p)
  | .msgSelect p => some (6, p)
  | .msgTransceive p => some (8, p)
  | _ => none

/-! ### The queue the FIFO holds -/

/-- The queued bytes, oldest first: the slots from `FIFO_TAIL` up to `FIFO_HEAD` (R76, R282). -/
def Fifo.contents (n : Nat) (f : Fifo) : List Byte :=
  (List.range (f.occ n)).filterMap fun j => f.mem.load ((f.tail + j) % n)

/-- One FIFO operation of WORKER or CONSUMER. -/
inductive QueueOp where
  | push (b : Byte)
  | pop
  deriving DecidableEq, Repr

/-- The instruction of a queue operation. -/
def QueueOp.instr : QueueOp → Instr
  | .push b => .fifoPush b
  | .pop => .fifoPop

/-- The byte a queue operation put in: none unless its push replied OK (R275). -/
def QueueOp.accepted (t : State) : QueueOp → List Byte
  | .push b => if t.replies.getLast? = some ⟨.worker, [0x00]⟩ then [b] else []
  | .pop => []

/-- The byte a queue operation took out, as its reply gives it (R277). -/
def QueueOp.popped (t : State) : QueueOp → List Byte
  | .push _ => []
  | .pop =>
    match t.replies.getLast? with
    | some ⟨.consumer, [0x00, b]⟩ => [b]
    | _ => []

/-- Queue operations executed one after the other: the state, the bytes whose push replied OK, and the bytes popped. -/
def runQueue : List QueueOp → State → Option (State × List Byte × List Byte)
  | [], s => some (s, [], [])
  | q :: qs, s =>
    match exec q.instr s with
    | .next t =>
      match runQueue qs t with
      | some (u, inn, out) => some (u, q.accepted t ++ inn, q.popped t ++ out)
      | none => none
    | .fault _ => none
    | .refused _ => none

/-! ### Runs of the arbiter -/

/-- Responses given one after the other, until the run is over (R156). -/
def respondAll : List Response → State → Out
  | [], s => .next s
  | r :: rs, s =>
    if s.ac.state = .idle then .next s
    else
      match respond r s with
      | .next t => respondAll rs t
      | .fault f => .fault f
      | .refused f => .refused f

end Sys2Proof.Machine
end

