-- ==== Sys2Proof/Certificates/Slice0/Obligations.lean ====
section
/-! DEFINITION. The statements about the block. Each docstring names the rules of spec/ it rests on. A statement about every
state also covers states no run reaches; where it needs an invariant, the invariant is a premise and is itself stated to hold
at reset and to be kept by every step. -/

open Sys2Proof Sys2Proof.Machine

/-! ### Encodings -/

/-- Decoding the words of a well-formed instruction gives it back, for every row of the table and both byte orders (R100 to
R104, R108, R110 to R114, R120, R123; which name a packet decodes to is the MODEL'S CHOICE, log entry 11). -/
def Obligations.DecodeEncodeRoundTrip : Prop :=
  ∀ (o : LenOrder) (i : Instr), i.wellFormed = true → decode o (encode o i) = .ok i

/-- Words have one reading: what decodes is the encoding of what it decodes to, and that is well formed. No bit of a packet,
a frame or a message is dropped (R100 to R104, R110 to R114, R120). -/
def Obligations.DecodedWordsEncodeBack : Prop :=
  ∀ (o : LenOrder) (w : Words) (i : Instr), decode o w = .ok i → encode o i = w ∧ i.wellFormed = true

/-- Words written out from the spec: packets of R101, R103 and R107 and of the programs of spec/95_test_vectors.md, the frame
of R164's example, and a message of R123. That the fifth and sixth packet decode to a pseudo-operation, and not to the
AC_RESP_FRAME they also are, is the MODEL'S CHOICE (log entry 11). -/
def Obligations.SpecWordsDecode : Prop :=
  decode .le (.port [0x30, 0x03, 0x00, 0x00]) = .ok (.frmEnc 0x03 [])
  ∧ decode .le (.port [0x22, 0x40, 0x00]) = .ok (.fifoRead 64)
  ∧ decode .be (.port [0x22, 0x01, 0x00]) = .ok (.fifoRead 256)
  ∧ decode .le (.port [0x13, 0x0F, 0x00, 0x82, 0x02]) = .ok (.acRespFrame 15 none [0x82, 0x02])
  ∧ decode .le (.port [0x13, 0x10, 0x00, 0x44, 0x00]) = .ok (.acRespBytes [0x44, 0x00])
  ∧ decode .le (.port [0x13, 0x10, 0x89, 0x44, 0x02]) = .ok (.acRespColl 16 9 [0x44, 0x02])
  ∧ decode .le (.rf (bytesToBitsLSB [0x93, 0x51, 0x01, 0x02, 0x03] ++ [true]))
      = .ok (.rfAnticollCl1 (bytesToBitsLSB [0x01, 0x02, 0x03] ++ [true]))
  ∧ decode .le (.wire [0x02, 0x00, 0x00]) = .ok (.msgIdle [])

/-- The packet decoder reads exactly the bytes that the length column of R101 gives the packet. -/
def Obligations.DecoderReadsThePacketLength : Prop :=
  ∀ (o : LenOrder) (bs rest : List Byte) (i : Instr), decodePacket o bs = .ok (i, rest) →
    packetLength o bs = some (bs.length - rest.length) ∧ rest <:+ bs

/-- R120: the header of a serialised message, in each byte order. -/
def Obligations.HeaderCarriesTheLength : Prop :=
  ∀ (ty : Byte) (payload : List Byte), payload.length ≤ 65535 →
    ∃ lo hi : Byte, lo.toNat = payload.length % 256 ∧ hi.toNat = payload.length / 256
      ∧ ser .le ty payload = [ty, lo, hi] ++ payload
      ∧ ser .be ty payload = [ty, hi, lo] ++ payload
      ∧ (len16 .le lo hi).toNat = payload.length
      ∧ (len16 .be hi lo).toNat = payload.length
      ∧ (ser .le ty payload).length = 3 + payload.length

/-- R124 to R127 and R179: the byte at each offset of a Discover payload, the layouts of a Select (n one of 4, 7, 10, and no
other), a Transceive and a tag descriptor payload with their exact lengths, and each of the four read back from its bytes; the
descriptor is the one of a run that ended OK. -/
def Obligations.PayloadLayoutsReadBack : Prop :=
  (∀ (o : LenOrder) (d : Discover), (d.toPayload o).length = 15 ∧ Discover.ofPayload o (d.toPayload o) = some d
      ∧ (∀ i, i < 8 → (d.toPayload .le).getD i 0 = d.protocols.extractLsb' (8 * i) 8
          ∧ (d.toPayload .be).getD i 0 = d.protocols.extractLsb' (8 * (7 - i)) 8)
      ∧ (∀ i, i < 4 → (d.toPayload .le).getD (8 + i) 0 = d.period.extractLsb' (8 * i) 8
          ∧ (d.toPayload .be).getD (8 + i) 0 = d.period.extractLsb' (8 * (3 - i)) 8)
      ∧ (d.toPayload o).drop 12 = [d.deviceCount, d.maxBitrate, d.flags])
  ∧ (∀ (p : Params) (uid : List Byte),
      ((uid.length = 4 ∨ uid.length = 7 ∨ uid.length = 10) →
        ∃ bytes, selectPayload p uid = some bytes ∧ bytes = [p.familyTagA, BitVec.ofNat 8 uid.length] ++ uid
          ∧ SelectRequest.ofPayload bytes = some ⟨p.familyTagA, uid⟩)
      ∧ (uid.length ≠ 4 → uid.length ≠ 7 → uid.length ≠ 10 → selectPayload p uid = none))
  ∧ (∀ (bytes : List Byte) (r : SelectRequest), SelectRequest.ofPayload bytes = some r → r.toPayload = some bytes)
  ∧ (∀ (o : LenOrder) (x : Transceive), x.data.length ≤ 512 →
      x.toPayload o = u16 o x.count ++ [x.flags] ++ x.data ∧ (x.toPayload o).length = 3 + x.data.length
      ∧ Transceive.ofPayload o (x.toPayload o) = some x)
  ∧ ∀ (p : Params) (a : Arbiter) (ats : List Byte), (a.uidLen = 4 ∨ a.uidLen = 7 ∨ a.uidLen = 10) → ats.length ≤ 255 →
      descPayload p a ats = [p.familyTagA, a.atqa[0], a.atqa[1], a.sak, BitVec.ofNat 8 a.uidLen]
        ++ a.uid.toList.take a.uidLen ++ [BitVec.ofNat 8 ats.length] ++ ats
      ∧ (descPayload p a ats).length = 6 + a.uidLen + ats.length
      ∧ TagDescriptor.ofPayload (descPayload p a ats)
          = some ⟨p.familyTagA, a.atqa[0], a.atqa[1], a.sak, a.uid.toList.take a.uidLen, ats⟩

/-- R247, with the admitted lengths of R123. -/
def Obligations.CatalogueCheckTable : Prop :=
  ∀ (ty : Byte) (len : Nat), len ≤ 65535 →
    catalogueCheck ty len
      = if 10 ≤ ty.toNat then .unknown
        else if (ty = 0 ∨ ty = 2 ∨ ty = 3) ∧ len ≠ 0 then .lengthMismatch
        else if ty = 4 ∧ len ≠ 15 then .lengthMismatch
        else if (ty = 5 ∨ ty = 6 ∨ ty = 7) ∧ len = 0 then .lengthMismatch
        else if (ty = 8 ∨ ty = 9) ∧ (len < 3 ∨ 515 < len) then .lengthMismatch
        else .ok

/-! ### Steps, agents and refusals -/

/-- A STEP RUNS THE DECODED INSTRUCTION. When it is the turn of an agent that has no operation in progress, and its next
packet decodes to an instruction of its own, the step is `exec` of that instruction, the turn and the packet being used up
(R22, R30; the turn is the model's, log entry 5). -/
def Obligations.StepRunsTheDecodedInstruction : Prop :=
  ∀ (s : State) (p : Packet) (rest : List Packet) (i : Instr), Issues s p rest →
    decode s.params.lenOrder p.words = .ok i → agentOf i = p.agent → step s = exec i (taken s rest)

/-- The other turns: an agent with an operation in progress goes on with it and issues nothing (R30); an agent that is
halted, or has nothing to issue, takes no step, and without a turn nothing happens (R22, R318; log entries 4 to 6). -/
def Obligations.TurnsWithoutAnIssue : Prop :=
  (∀ (s : State) (a : Agent), LiveTurn a s → s.busy a = true →
      step s = continueOp a (handOver s) ∧ ∀ t, step s = .next t → t.pending = s.pending)
  ∧ (∀ s : State, s.sched = [] → step s = .next s)
  ∧ (∀ (s : State) (a : Agent), Turn a s → a ∈ s.halted → step s = .next (handOver s))
  ∧ ∀ (s : State) (a : Agent), LiveTurn a s → s.busy a = false → takePacket a s.pending = none →
      step s = .next (handOver s)

/-- R101 and R31: the packet and the issuing agent of every port operation. -/
def Obligations.PacketTable : Prop :=
  ∀ o : LenOrder,
    (encode o .reset = .port [0x01] ∧ agentOf .reset = .host)
    ∧ (encode o .cancel = .port [0x02] ∧ agentOf .cancel = .host)
    ∧ (encode o .acStart = .port [0x10] ∧ agentOf .acStart = .worker)
    ∧ (encode o .acRespTimeout = .port [0x11] ∧ agentOf .acRespTimeout = .transport)
    ∧ (encode o .acRespXerr = .port [0x12] ∧ agentOf .acRespXerr = .transport)
    ∧ (∀ i nbits coll data, frameOperands i = some (nbits, coll, data) →
        (encode o i = .port ([0x13, nbits, match coll with | none => 0 | some c => 0x80 ||| c.zeroExtend 8] ++ data)
          ∧ agentOf i = .transport))
    ∧ (encode o .acStatus = .port [0x14] ∧ agentOf .acStatus = .worker)
    ∧ (encode o .acDesc = .port [0x15] ∧ agentOf .acDesc = .worker)
    ∧ (∀ b, encode o (.fifoPush b) = .port [0x20, b] ∧ agentOf (.fifoPush b) = .worker)
    ∧ (encode o .fifoPop = .port [0x21] ∧ agentOf .fifoPop = .consumer)
    ∧ (∀ n, encode o (.fifoRead n) = .port ([0x22] ++ u16 o n) ∧ agentOf (.fifoRead n) = .consumer)
    ∧ (encode o .fifoAvail = .port [0x23] ∧ agentOf .fifoAvail = .consumer)
    ∧ (encode o .fifoSpace = .port [0x24] ∧ agentOf .fifoSpace = .worker)
    ∧ (∀ ty payload, encode o (.frmEnc ty payload)
          = .port ([0x30, ty] ++ u16 o (BitVec.ofNat 16 payload.length) ++ payload)
        ∧ agentOf (.frmEnc ty payload) = .worker)
    ∧ (∀ b, encode o (.frmDec b) = .port [0x31, b] ∧ agentOf (.frmDec b) = .writer)
    ∧ (∀ bytes, encode o (.frmWrite bytes) = .port ([0x32] ++ u16 o (BitVec.ofNat 16 bytes.length) ++ bytes)
        ∧ agentOf (.frmWrite bytes) = .writer)
    ∧ (encode o .frmAccept = .port [0x33] ∧ agentOf .frmAccept = .sink)

/-- R318, with R103, R105 and R31: the five refusals, each a step that changes no register, sets `REFUSED` and leaves the
issuing agent without a further step. The third clause is about port packets, R31's. That the agent's later turns only pass
is the MODEL'S reading of "takes no further step" (log entries 4 and 6). -/
def Obligations.RefusalsOnlySetTheMark : Prop :=
  (∀ (s : State) (p : Packet) (rest : List Packet) (c : Byte) (more : List Byte), Issues s p rest →
      p.words = .port (c :: more) →
      (c = 0 ∨ (0x03 ≤ c.toNat ∧ c.toNat ≤ 0x0F) ∨ (0x16 ≤ c.toNat ∧ c.toNat ≤ 0x1F)
        ∨ (0x25 ≤ c.toNat ∧ c.toNat ≤ 0x2F) ∨ 0x34 ≤ c.toNat) →
      step s = .next ((taken s rest).refuse p.agent))
  ∧ (∀ (s : State) (p : Packet) (rest : List Packet) (nbits c : Byte) (more : List Byte), Issues s p rest →
      p.words = .port (0x13 :: nbits :: c :: more) →
      (c.getLsbD 7 = true ∧ c.getLsbD 6 = true) ∨ (c.getLsbD 7 = false ∧ c ≠ 0) →
      step s = .next ((taken s rest).refuse p.agent))
  ∧ (∀ (s : State) (p : Packet) (rest : List Packet) (bytes : List Byte) (i : Instr), Issues s p rest →
      p.words = .port bytes → decode s.params.lenOrder p.words = .ok i → agentOf i ≠ p.agent →
      step s = .next ((taken s rest).refuse p.agent))
  ∧ (∀ s : State, s.ac.state ≠ .idle → exec .acStart s = .next (s.refuse .worker))
  ∧ (∀ (s : State) (i : Instr), isResponse i = true → s.ac.state = .idle → exec i s = .next (s.refuse .transport))
  ∧ ∀ (s : State) (a : Agent), KeepsRegisters s (s.refuse a) ∧ KeepsStorage s (s.refuse a)
      ∧ (s.refuse a).refused = true ∧ a ∈ (s.refuse a).halted
      ∧ ∀ u : State, Turn a u → a ∈ u.halted → step u = .next (handOver u)

/-- R56 and R54: no step changes a parameter or clears `REFUSED`. In the model's own fields a halted agent stays halted (log
entry 4), and no reply given and no frame taken is lost (log entry 8). -/
def Obligations.ParametersAndMarkPersist : Prop :=
  ∀ s t : State, step s = .next t →
    t.params = s.params ∧ (s.refused = true → t.refused = true) ∧ (∀ a ∈ s.halted, a ∈ t.halted)
      ∧ s.replies <+: t.replies ∧ s.rfOut <+: t.rfOut

/-- R78: `FIFO_HEAD`, `FIFO_MEM` and `FIFO_OVF` are written only by WORKER, `FIFO_TAIL` only by CONSUMER; HOST's RESET is the
one exception. -/
def Obligations.FifoHasSingleWriters : Prop :=
  ∀ (s t : State) (a : Agent), Turn a s → step s = .next t →
    (a ≠ .worker → a ≠ .host → t.fifo.head = s.fifo.head ∧ t.fifo.ovf = s.fifo.ovf ∧ ∀ i, t.fifo.mem.load i = s.fifo.mem.load i)
    ∧ (a ≠ .consumer → a ≠ .host → t.fifo.tail = s.fifo.tail)
    ∧ (a = .host → t.fifo = s.fifo ∨ (t.fifo.head = 0 ∧ t.fifo.tail = 0 ∧ t.fifo.ovf = false))

/-- R83 (the spec's own derived property): WORKER writes the arbiter's registers only by AC_START, from IDLE; TRANSPORT only
by a response operation, outside IDLE; HOST by CANCEL and RESET; nobody else. -/
def Obligations.ArbiterHasOneOwner : Prop :=
  ∀ (s t : State) (a : Agent), Turn a s → step s = .next t → t.ac ≠ s.ac →
    (a = .worker ∧ Runs .acStart s ∧ s.ac.state = .idle ∧ t.ac = s.ac.start)
    ∨ (a = .transport ∧ (∃ i, isResponse i = true ∧ Runs i s) ∧ s.ac.state ≠ .idle)
    ∨ (a = .host ∧ Runs .cancel s ∧ t.ac = { s.ac with cancel := true })
    ∨ (a = .host ∧ Runs .reset s ∧ t.ac = Arbiter.reset)

/-- R82: WRITER writes the decoder only while nothing is pending, SINK only clears `DEC_PEND`, HOST resets it, and nobody
else writes it: a dispatched payload stays until SINK has taken it. -/
def Obligations.DecoderIsHandedOver : Prop :=
  ∀ (s t : State) (a : Agent), Turn a s → step s = .next t → t.dec ≠ s.dec →
    (a = .writer ∧ s.dec.pend = false)
    ∨ (a = .sink ∧ s.dec.pend = true ∧ t.dec = { s.dec with pend := false })
    ∨ (a = .host ∧ t.dec = Decoder.reset)

/-! ### RESET, CANCEL -/

/-- R340, R342 and R343: what RESET leaves, in every state; every operation in progress is abandoned without a reply, the
outstanding frame is dropped, and a second RESET changes nothing. -/
def Obligations.ResetGivesTheResetState : Prop :=
  ∀ s : State, ∃ t, exec .reset s = .next t
    ∧ t.ac = { state := .idle, level := .one, known := 0, cl := 0, uid := Vector.replicate 10 0, uidLen := 0,
               atqa := #v[0, 0], sak := 0, cancel := false, result := .none }
    ∧ t.fifo.head = 0 ∧ t.fifo.tail = 0 ∧ t.fifo.ovf = false
    ∧ t.dec.phase = .hdr ∧ t.dec.hcnt = 0 ∧ t.dec.hdr = #v[0, 0, 0] ∧ t.dec.len = 0 ∧ t.dec.cnt = 0
    ∧ t.dec.pend = false ∧ t.dec.pendType = 0 ∧ t.dec.pendLen = 0
    ∧ t.enc.busy = false ∧ t.enc.bytes = [] ∧ t.enc.idx = 0
    ∧ t.rd = none ∧ t.wr = none ∧ t.sinkHeld = false
    ∧ t.refused = s.refused ∧ t.params = s.params ∧ t.replies = s.replies
    ∧ acTx t.ac = none ∧ (∀ i, isResponse i = true → exec i t = .next (t.refuse .transport))
    ∧ exec .reset t = .next t

/-- R341: CANCEL marks a run in progress and does nothing else; CANCEL twice is CANCEL once. -/
def Obligations.CancelMarksTheRun : Prop :=
  ∀ s : State,
    (s.ac.state = .idle → exec .cancel s = .next s)
    ∧ (s.ac.state ≠ .idle → exec .cancel s = .next { s with ac := { s.ac with cancel := true } })
    ∧ ∀ t, exec .cancel s = .next t → exec .cancel t = .next t

/-! ### The arbiter -/

/-- R150: AC_START from IDLE builds the run's state and presents REQA; elsewhere it is refused. -/
def Obligations.AcStartBeginsARun : Prop :=
  ∀ s : State,
    (s.ac.state = .idle → ∃ t, exec .acStart s = .next t
      ∧ t = { s with ac := { state := .waitAtqa, level := .one, known := 0, cl := 0, uid := Vector.replicate 10 0,
                             uidLen := 0, atqa := #v[0, 0], sak := 0, cancel := false, result := .none } }
      ∧ acTx t.ac = some reqaBits)
    ∧ (s.ac.state ≠ .idle → exec .acStart s = .next (s.refuse .worker))

/-- R154: every response operation is refused in IDLE, and once a cancellation is pending it ends the run CANCELLED whatever
it carries. -/
def Obligations.CancelledRunEnds : Prop :=
  ∀ (s : State) (i : Instr), isResponse i = true →
    (s.ac.state = .idle → exec i s = .next (s.refuse .transport))
    ∧ (s.ac.state ≠ .idle → s.ac.cancel = true →
        exec i s = .next { s with ac := { s.ac with result := .cancelled, state := .idle, cancel := false } })

/-- R157 and R158: AC_RESP_XERR ends the run with ERR_TRANSPORT in every state of a run; AC_RESP_TIMEOUT ends it with NO_TAG
in WAIT_ATQA and with ERR_TIMEOUT later. Both are refused in IDLE, and give CANCELLED once a cancellation is pending. -/
def Obligations.AnswersWithoutAFrameEndTheRun : Prop :=
  ∀ s : State,
    (s.ac.state ≠ .idle → s.ac.cancel = false →
      exec .acRespXerr s = .next { s with ac := { s.ac with result := .errTransport, state := .idle, cancel := false } }
      ∧ exec .acRespTimeout s = .next { s with ac := { s.ac with
          result := if s.ac.state = .waitAtqa then .noTag else .errTimeout, state := .idle, cancel := false } })
    ∧ ∀ i ∈ [Instr.acRespXerr, .acRespTimeout],
      (s.ac.state = .idle → exec i s = .next (s.refuse .transport))
      ∧ (s.ac.state ≠ .idle → s.ac.cancel = true →
          exec i s = .next { s with ac := { s.ac with result := .cancelled, state := .idle, cancel := false } })

/-- R160: a Frame in WAIT_ATQA (AC_RESP_FRAME, AC_RESP_BYTES, AC_RESP_COLL): the length check, then the ATQA in order of
reception, whatever collision is reported (R161), and level 1 with its first ANTICOLLISION frame (R151; the bits of the frames
are in OutstandingFrame). -/
def Obligations.AtqaFrameEntersLevelOne : Prop :=
  ∀ (s : State) (i : Instr) (nbits : Byte) (coll : Option (BitVec 6)) (data : List Byte),
    frameOperands i = some (nbits, coll, data) → s.ac.state = .waitAtqa → s.ac.cancel = false →
    (nbits ≠ 16 → exec i s = .next { s with ac := { s.ac with result := .errLength, state := .idle, cancel := false } })
    ∧ (nbits = 16 → ∃ t, exec i s = .next t
        ∧ t = { s with ac := { s.ac with
            atqa := #v[data.getD 0 0, data.getD 1 0], level := .one, known := 0, cl := 0, state := .waitAc } }
        ∧ acTx t.ac = some (anticollBits .one []))

/-- R162: the checks of a Frame in WAIT_AC (AC_RESP_FRAME, AC_RESP_BYTES, AC_RESP_COLL), in their order. -/
def Obligations.AnticollisionChecksInOrder : Prop :=
  ∀ (s : State) (i : Instr) (nbits : Byte) (coll : Option (BitVec 6)) (data : List Byte),
    frameOperands i = some (nbits, coll, data) → s.ac.state = .waitAc → s.ac.cancel = false → s.ac.known ≤ 39 →
    (nbits.toNat > 40 - s.ac.known ∨ (coll = none ∧ nbits.toNat ≠ 40 - s.ac.known) →
      exec i s = .next { s with ac := { s.ac with result := .errLength, state := .idle, cancel := false } })
    ∧ ∀ c, coll = some c → nbits.toNat ≤ 40 - s.ac.known → nbits.toNat ≤ c.toNat →
      exec i s = .next { s with ac := { s.ac with result := .errCollpos, state := .idle, cancel := false } }

/-- R163 and R165: the merge without a collision (AC_RESP_FRAME, AC_RESP_BYTES) fixes every unknown position; the check byte
decides between SELECT and ERR_BCC. -/
def Obligations.FullResponseCompletesTheLevel : Prop :=
  ∀ (s : State) (i : Instr) (nbits : Byte) (data : List Byte),
    frameOperands i = some (nbits, none, data) → s.ac.state = .waitAc → s.ac.cancel = false → s.ac.known ≤ 39 →
    nbits.toNat = 40 - s.ac.known →
    ∃ cl : BitVec 40,
      (∀ p, p < 40 → cl.getLsbD p = if p < s.ac.known then s.ac.cl.getLsbD p else rxBit data (p - s.ac.known))
      ∧ (CheckByteHolds cl → exec i s = .next { s with ac := { s.ac with cl := cl, known := 40, state := .waitSak } })
      ∧ (¬ CheckByteHolds cl → exec i s = .next { s with ac := { s.ac with
          cl := cl, known := 40, result := .errBcc, state := .idle, cancel := false } })

/-- R164 and R165: the merge with a collision (AC_RESP_COLL, and AC_RESP_FRAME so written) keeps the bits before it, gives
the collided bit `COLL_BIT` and leaves every later position as it was. -/
def Obligations.CollisionFixesOneMoreBit : Prop :=
  ∀ (s : State) (i : Instr) (nbits : Byte) (c : BitVec 6) (data : List Byte),
    frameOperands i = some (nbits, some c, data) → s.ac.state = .waitAc → s.ac.cancel = false → s.ac.known ≤ 39 →
    nbits.toNat ≤ 40 - s.ac.known → c.toNat < nbits.toNat →
    ∃ cl : BitVec 40,
      (∀ p, p < 40 → cl.getLsbD p =
        if p < s.ac.known then s.ac.cl.getLsbD p
        else if p < s.ac.known + c.toNat then rxBit data (p - s.ac.known)
        else if p = s.ac.known + c.toNat then s.params.collBit
        else s.ac.cl.getLsbD p)
      ∧ (s.ac.known + c.toNat + 1 ≠ 40 →
          exec i s = .next { s with ac := { s.ac with cl := cl, known := s.ac.known + c.toNat + 1 } })
      ∧ (s.ac.known + c.toNat + 1 = 40 → CheckByteHolds cl →
          exec i s = .next { s with ac := { s.ac with cl := cl, known := 40, state := .waitSak } })
      ∧ (s.ac.known + c.toNat + 1 = 40 → ¬ CheckByteHolds cl →
          exec i s = .next { s with ac := { s.ac with
            cl := cl, known := 40, result := .errBcc, state := .idle, cancel := false } })

/-- R167: the checks of a Frame in WAIT_SAK, in their order (AC_RESP_FRAME, AC_RESP_BYTES, AC_RESP_COLL). -/
def Obligations.SakChecksInOrder : Prop :=
  ∀ (s : State) (i : Instr) (nbits : Byte) (coll : Option (BitVec 6)) (data : List Byte),
    frameOperands i = some (nbits, coll, data) → s.ac.state = .waitSak → s.ac.cancel = false →
    (nbits ≠ 8 → exec i s = .next { s with ac := { s.ac with result := .errLength, state := .idle, cancel := false } })
    ∧ (nbits = 8 → coll ≠ none →
        exec i s = .next { s with ac := { s.ac with result := .errSakColl, state := .idle, cancel := false } })

/-- R170, with R168, R169 and R151: a SAK with bit 0x04 set goes to the next level with the cascade tag stripped; at level 3,
or without the tag 0x88, the run ends. -/
def Obligations.CascadingSakStripsTheTag : Prop :=
  ∀ (s : State) (i : Instr) (nbits : Byte) (data : List Byte),
    frameOperands i = some (nbits, none, data) → s.ac.state = .waitSak → s.ac.cancel = false → nbits = 8 →
    (data.getD 0 0).getLsbD 2 = true →
    (s.ac.level = .three → exec i s = .next { s with ac := { s.ac with
        sak := data.getD 0 0, result := .errCascadeDepth, state := .idle, cancel := false } })
    ∧ (s.ac.level ≠ .three → clByte s.ac.cl 0 ≠ 0x88 → exec i s = .next { s with ac := { s.ac with
        sak := data.getD 0 0, result := .errCascadeTag, state := .idle, cancel := false } })
    ∧ (∀ l, (s.ac.level = .one ∧ l = Level.two) ∨ (s.ac.level = .two ∧ l = Level.three) → clByte s.ac.cl 0 = 0x88 →
        s.ac.uidLen ≤ 7 →
        ∃ uid : Vector Byte 10,
          (∀ j, j < 10 → uid.toList.getD j 0 =
            if s.ac.uidLen ≤ j ∧ j < s.ac.uidLen + 3 then clByte s.ac.cl (1 + (j - s.ac.uidLen)) else s.ac.uid.toList.getD j 0)
          ∧ exec i s = .next { s with ac := { s.ac with
              sak := data.getD 0 0, uid := uid, uidLen := s.ac.uidLen + 3, level := l, known := 0, cl := 0,
              state := .waitAc } })

/-- R171, with R169: a SAK without bit 0x04 ends the run OK with the last four UID bytes appended. -/
def Obligations.FinalSakEndsTheRunOk : Prop :=
  ∀ (s : State) (i : Instr) (nbits : Byte) (data : List Byte),
    frameOperands i = some (nbits, none, data) → s.ac.state = .waitSak → s.ac.cancel = false → nbits = 8 →
    (data.getD 0 0).getLsbD 2 = false → s.ac.uidLen ≤ 6 →
    ∃ uid : Vector Byte 10,
      (∀ j, j < 10 → uid.toList.getD j 0 =
        if s.ac.uidLen ≤ j ∧ j < s.ac.uidLen + 4 then clByte s.ac.cl (j - s.ac.uidLen) else s.ac.uid.toList.getD j 0)
      ∧ exec i s = .next { s with ac := { s.ac with
          sak := data.getD 0 0, uid := uid, uidLen := s.ac.uidLen + 4, result := .ok, state := .idle, cancel := false } }

/-- R108: each pseudo-operation is one AC_RESP_FRAME packet, and does what that packet does. -/
def Obligations.PseudoOperationsAreFrames : Prop :=
  (∀ (o : LenOrder) (data : List Byte) (s : State),
      encode o (.acRespBytes data) = encode o (.acRespFrame (BitVec.ofNat 8 (8 * data.length)) none data)
      ∧ exec (.acRespBytes data) s = exec (.acRespFrame (BitVec.ofNat 8 (8 * data.length)) none data) s)
  ∧ ∀ (o : LenOrder) (nbits : Byte) (c : BitVec 6) (data : List Byte) (s : State),
      encode o (.acRespColl nbits c data) = .port ([0x13, nbits, 0x80 ||| c.zeroExtend 8] ++ data)
      ∧ exec (.acRespColl nbits c data) s = exec (.acRespFrame nbits (some c) data) s

/-- The outstanding frame in each state of the arbiter (R42; R110 to R114, whose byte values the spec takes from general
knowledge, log entry 14). -/
def Obligations.OutstandingFrame : Prop :=
  ∀ a : Arbiter,
    (a.state = .idle → acTx a = none)
    ∧ (a.state = .waitAtqa → acTx a = some ((bytesToBitsLSB [0x26]).take 7))
    ∧ (a.state = .waitAc → a.known ≤ 39 →
        acTx a = some (bytesToBitsLSB [match a.level with | .one => 0x93 | .two => 0x95 | .three => 0x97,
            BitVec.ofNat 8 (((2 + a.known / 8) <<< 4) ||| (a.known % 8))]
          ++ (List.range a.known).map fun p => a.cl.getLsbD p))
    ∧ (a.state = .waitSak →
        acTx a = some (bytesToBitsLSB [match a.level with | .one => 0x93 | .two => 0x95 | .three => 0x97, 0x70,
          clByte a.cl 0, clByte a.cl 1, clByte a.cl 2, clByte a.cl 3, clByte a.cl 4]))

/-- The RF rows of the table as steps of TRANSPORT: the frame that is outstanding is taken, and no register changes; a frame
that is not outstanding is not there. The frames are R110 to R114's; that taking one is a step is the MODEL'S CHOICE (log
entry 9). -/
def Obligations.OutstandingFrameIsTaken : Prop :=
  ∀ s : State,
    (s.ac.state = .waitAtqa → exec .rfReqa s = .next { s with rfOut := s.rfOut ++ [(bytesToBitsLSB [0x26]).take 7] })
    ∧ (s.ac.state = .waitAc → ∀ i, (s.ac.level = .one ∧ i = Instr.rfAnticollCl1 (clPrefix s.ac.cl s.ac.known))
          ∨ (s.ac.level = .two ∧ i = .rfAnticollCl2 (clPrefix s.ac.cl s.ac.known))
          ∨ (s.ac.level = .three ∧ i = .rfAnticollCl3 (clPrefix s.ac.cl s.ac.known)) →
        exec i s = .next { s with rfOut := s.rfOut ++ [anticollBits s.ac.level (clPrefix s.ac.cl s.ac.known)] })
    ∧ (s.ac.state = .waitSak → ∀ i, (s.ac.level = .one ∧ i = Instr.rfSelectCl1 s.ac.cl)
          ∨ (s.ac.level = .two ∧ i = .rfSelectCl2 s.ac.cl)
          ∨ (s.ac.level = .three ∧ i = .rfSelectCl3 s.ac.cl) →
        exec i s = .next { s with rfOut := s.rfOut ++ [selectBits s.ac.level s.ac.cl] })
    ∧ ∀ (o : LenOrder) (i : Instr) (bits : List Bool), encode o i = .rf bits → acTx s.ac ≠ some bits → exec i s = .next s

/-- R175: AC_STATUS replies the codes of `AC_STATE` (R33) and `AC_RESULT` (R310), and changes nothing. -/
def Obligations.StatusReply : Prop :=
  ∀ s : State, ∃ st res : Byte, exec .acStatus s = .next { s with replies := s.replies ++ [⟨.worker, [st, res]⟩] }
    ∧ (st, s.ac.state) ∈ [((0 : Byte), AcState.idle), (1, .waitAtqa), (2, .waitAc), (3, .waitSak)]
    ∧ (res, s.ac.result) ∈ [((0x00 : Byte), AcResult.none), (0x01, .ok), (0x02, .noTag), (0x03, .cancelled),
        (0x10, .errTransport), (0x20, .errTimeout), (0x21, .errLength), (0x22, .errCollpos), (0x23, .errBcc),
        (0x24, .errSakColl), (0x25, .errCascadeTag), (0x26, .errCascadeDepth)]

/-- R176: AC_DESC replies the descriptor after a run that ended OK, and NOT_VALID otherwise; it changes nothing. -/
def Obligations.DescriptorReply : Prop :=
  ∀ s : State,
    (s.ac.state = .idle ∧ s.ac.result = .ok → exec .acDesc s = .next { s with replies := s.replies ++ [⟨.worker,
        ([0x00, s.ac.atqa[0], s.ac.atqa[1], s.ac.sak, classify s.params.mcLike s.ac.sak ||| (needsRats s.ac.sak <<< 7),
          BitVec.ofNat 8 s.ac.uidLen] : List Byte) ++ s.ac.uid.toList.take s.ac.uidLen⟩] })
    ∧ (s.ac.state ≠ .idle ∨ s.ac.result ≠ .ok → exec .acDesc s = .next { s with replies := s.replies ++ [⟨.worker, [0x01]⟩] })

/-- The SAK classifier, for every predicate `MC_LIKE` (R177, whose Type-2 line the spec takes from general knowledge, log entry
14; R178). -/
def Obligations.SakClassification : Prop :=
  ∀ (mcLike : BitVec 256) (s : Byte),
    classify mcLike s
        = (if s = 0x00 then 1 else if s.getLsbD 5 then 2 else if s.getLsbD 6 then 3
           else if mcLike.getLsbD s.toNat then 4 else 0)
    ∧ needsRats s = if s.getLsbD 5 then 1 else 0

/-- R173: completing a level is the only way into WAIT_SAK: a step that enters it comes from WAIT_AC, all 40 bits are known
and their check byte holds. -/
def Obligations.SelectOnlyAfterTheCheckByte : Prop :=
  ∀ s t : State, step s = .next t → t.ac.state = .waitSak → s.ac.state ≠ .waitSak →
    Turn .transport s ∧ s.ac.state = .waitAc ∧ t.ac.known = 40 ∧ CheckByteHolds t.ac.cl

/-- R172: a run ends OK only in WAIT_SAK, with a UID of 3 x (level - 1) + 4 bytes. -/
def Obligations.OkRunsHaveWholeUids : Prop :=
  ∀ s t : State, ArbiterInv s.ac → step s = .next t → t.ac.result = .ok → s.ac.result ≠ .ok →
    Turn .transport s ∧ s.ac.state = .waitSak ∧ CheckByteHolds t.ac.cl ∧ t.ac.state = .idle
      ∧ t.ac.uidLen = 3 * (levelNumber t.ac.level - 1) + 4

/-- R166: in WAIT_AC every response leaves WAIT_AC or strictly increases `AC_KNOWN`, which stays at most 40. -/
def Obligations.AnticollisionProgress : Prop :=
  ∀ (s t : State) (i : Instr), isResponse i = true → s.ac.state = .waitAc → s.ac.known ≤ 39 → exec i s = .next t →
    t.ac.known ≤ 40 ∧ (t.ac.state = .waitAc → s.ac.known < t.ac.known ∧ t.ac.known ≤ 39 ∧ t.ac.level = s.ac.level)

/-- R166: a run presents at most 124 frames: after AC_START any 124 responses end it, and none stops the machine. -/
def Obligations.RunEndsWithin124Frames : Prop :=
  ∀ (s : State) (rs : List Response), s.ac.state = .idle → rs.length = 124 →
    ∃ t u, exec .acStart s = .next t ∧ respondAll rs t = .next u ∧ u.ac.state = .idle

/-- R174: nothing of an earlier run affects the next one: from any two idle arbiters, the same responses after AC_START give
the same arbiter. -/
def Obligations.RunsForgetEarlierRuns : Prop :=
  ∀ (s s' t t' u u' : State) (rs : List Response), s.ac.state = .idle → s'.ac.state = .idle →
    s.params.collBit = s'.params.collBit → exec .acStart s = .next t → exec .acStart s' = .next t' →
    respondAll rs t = .next u → respondAll rs t' = .next u' → u.ac = u'.ac

/-! ### The FIFO -/

/-- R271 to R273: the occupancy is the residue of head minus tail; empty is head = tail; full is N - 1; the free space is what
remains. -/
def Obligations.OccupancyIsTheResidue : Prop :=
  ∀ (n : Nat) (f : Fifo), 2 ≤ n → f.head < n → f.tail < n →
    (f.occ n : Int) = ((f.head : Int) - (f.tail : Int)) % (n : Int)
    ∧ f.occ n ≤ n - 1
    ∧ (f.empty = true ↔ f.head = f.tail) ∧ (f.empty = true ↔ f.occ n = 0)
    ∧ (f.full n = true ↔ f.occ n = n - 1) ∧ (∀ i, nextIndex n i = (i + 1) % n)
    ∧ f.space n = n - 1 - f.occ n ∧ f.avail n = f.occ n

/-- R275: FIFO_PUSH. Full: only the flag is set. Else the byte is in the slot `FIFO_HEAD` named, every other slot reads as
before, and `FIFO_HEAD` advances. -/
def Obligations.PushQueuesOneByte : Prop :=
  ∀ (s : State) (b : Byte), s.fifo.head < s.params.fifoDepth →
    (s.fifo.occ s.params.fifoDepth = s.params.fifoDepth - 1 →
      exec (.fifoPush b) s = .next { s with
        fifo := { s.fifo with ovf := true }, replies := s.replies ++ [⟨.worker, [0x01]⟩] })
    ∧ (s.fifo.occ s.params.fifoDepth ≠ s.params.fifoDepth - 1 →
      ∃ m : Memory, (∀ i, m.load i = if i = s.fifo.head then some b else s.fifo.mem.load i)
        ∧ exec (.fifoPush b) s = .next { s with
            fifo := { s.fifo with mem := m, head := (s.fifo.head + 1) % s.params.fifoDepth }
            replies := s.replies ++ [⟨.worker, [0x00]⟩] })

/-- R277: FIFO_POP. Empty: nothing changes. Else the byte in the slot `FIFO_TAIL` names is replied and `FIFO_TAIL`
advances; no storage changes. -/
def Obligations.PopTakesTheOldestByte : Prop :=
  ∀ s : State,
    (s.fifo.head = s.fifo.tail →
      exec .fifoPop s = .next { s with replies := s.replies ++ [⟨.consumer, [0x01]⟩] })
    ∧ ∀ b, s.fifo.head ≠ s.fifo.tail → s.fifo.mem.load s.fifo.tail = some b →
      exec .fifoPop s = .next { s with
        fifo := { s.fifo with tail := (s.fifo.tail + 1) % s.params.fifoDepth }
        replies := s.replies ++ [⟨.consumer, [0x00, b]⟩] }

/-- R280 and R281: FIFO_AVAIL and FIFO_SPACE reply the occupancy and the free space in `LEN_ORDER`, and change nothing. -/
def Obligations.AvailAndSpaceReplies : Prop :=
  ∀ s : State, s.params.Legal →
    ∃ avail space : U16, avail.toNat = s.fifo.occ s.params.fifoDepth
      ∧ space.toNat = s.params.fifoDepth - 1 - s.fifo.occ s.params.fifoDepth
      ∧ exec .fifoAvail s = .next { s with replies := s.replies ++ [⟨.consumer, u16 s.params.lenOrder avail⟩] }
      ∧ exec .fifoSpace s = .next { s with replies := s.replies ++ [⟨.worker, u16 s.params.lenOrder space⟩] }

/-- R279: FIFO_READ (where its steps are cut is deduced, log entry 7). n = 0 replies a count of 0; else the read is in
progress, and each later step of CONSUMER holds (nothing read and the FIFO empty: only the turn passes, log entry 6), or replies the count and the bytes, or
takes one byte. -/
def Obligations.ReadStepsAsStated : Prop :=
  (∀ s : State, exec (.fifoRead 0) s = .next { s with replies := s.replies ++ [⟨.consumer, [0x00, 0x00]⟩] })
  ∧ (∀ (s : State) (n : U16), n ≠ 0 → exec (.fifoRead n) s = .next { s with rd := some ⟨n, []⟩ })
  ∧ ∀ (s : State) (n : U16) (got : List Byte), LiveTurn .consumer s → s.rd = some ⟨n, got⟩ → n ≠ 0 →
      (got = [] → s.fifo.head = s.fifo.tail → step s = .next (handOver s))
      ∧ (got.length = n.toNat ∨ (got ≠ [] ∧ s.fifo.head = s.fifo.tail) →
          step s = .next { handOver s with
            rd := none
            replies := s.replies ++ [⟨.consumer, u16 s.params.lenOrder (BitVec.ofNat 16 got.length) ++ got⟩] })
      ∧ ∀ b, got.length ≠ n.toNat → s.fifo.head ≠ s.fifo.tail → s.fifo.mem.load s.fifo.tail = some b →
          step s = .next { handOver s with
            fifo := { s.fifo with tail := (s.fifo.tail + 1) % s.params.fifoDepth }
            rd := some ⟨n, got ++ [b]⟩ }

/-- R279 and R285 without concurrent pushes: a FIFO_READ of n bytes on a FIFO that holds some replies the oldest
min(n, queued) bytes with their count, and they leave the queue. That this takes min(n, queued) + 1 steps, the reply being one
of its own, is deduced (log entry 7). -/
def Obligations.ReadDrainsTheQueue : Prop :=
  ∀ (s : State) (n : U16) (rest : List Agent), FifoInv s.params.fifoDepth s.fifo → s.params.Legal → n ≠ 0 →
    s.fifo.contents s.params.fifoDepth ≠ [] → .consumer ∉ s.halted → s.rd = some ⟨n, []⟩ →
    s.sched = List.replicate (min n.toNat (s.fifo.contents s.params.fifoDepth).length + 1) .consumer ++ rest →
    ∃ t, runFor (min n.toNat (s.fifo.contents s.params.fifoDepth).length + 1) s = .next t
      ∧ t.replies = s.replies ++ [⟨.consumer,
          u16 s.params.lenOrder (BitVec.ofNat 16 (min n.toNat (s.fifo.contents s.params.fifoDepth).length))
            ++ (s.fifo.contents s.params.fifoDepth).take n.toNat⟩]
      ∧ t.fifo.contents s.params.fifoDepth = (s.fifo.contents s.params.fifoDepth).drop n.toNat
      ∧ t.rd = none ∧ t.sched = rest ∧ t.ac = s.ac ∧ t.dec = s.dec ∧ t.enc = s.enc
      ∧ t.fifo.head = s.fifo.head ∧ t.fifo.ovf = s.fifo.ovf ∧ KeepsStorage s t

/-- R282: for every sequence of pushes and pops, the bytes popped, followed by those still queued, are those queued before,
followed by those whose push replied OK: nothing is lost, duplicated or reordered. -/
def Obligations.QueueKeepsPushOrder : Prop :=
  ∀ (qs : List QueueOp) (s : State), s.params.Legal → FifoInv s.params.fifoDepth s.fifo →
    ∃ t inn out, runQueue qs s = some (t, inn, out)
      ∧ s.fifo.contents s.params.fifoDepth ++ inn = out ++ t.fifo.contents s.params.fifoDepth

/-- R283: the slot a push writes is none of the queued ones. -/
def Obligations.PushNeverOverwritesTheQueue : Prop :=
  ∀ (n : Nat) (f : Fifo) (j : Nat), f.head < n → f.tail < n → f.full n = false → j < f.occ n →
    (f.tail + j) % n ≠ f.head

/-- R46 and R284: once set, `FIFO_OVF` is cleared by no step but a RESET issued by HOST. -/
def Obligations.OverflowFlagIsSticky : Prop :=
  ∀ s t : State, step s = .next t → s.fifo.ovf = true → t.fifo.ovf = true ∨ (Turn .host s ∧ Runs .reset s)

/-! ### The framer: encoder -/

/-- R228 and R229: the first step of FRM_ENC: rejected whole when the message does not fit under ATOMIC, else its serialised
bytes are due; under TRUNCATE there is no check (R230). -/
def Obligations.EncoderTakesWholeMessages : Prop :=
  ∀ (s : State) (ty : Byte) (payload : List Byte),
    (s.params.ovfPolicy = .atomic → s.fifo.space s.params.fifoDepth < 3 + payload.length →
      exec (.frmEnc ty payload) s
        = .next { s with fifo := { s.fifo with ovf := true }, replies := s.replies ++ [⟨.worker, [0x01]⟩] })
    ∧ (s.params.ovfPolicy = .truncate ∨ 3 + payload.length ≤ s.fifo.space s.params.fifoDepth →
      exec (.frmEnc ty payload) s
        = .next { s with enc := { busy := true, bytes := ser s.params.lenOrder ty payload, idx := 0 } })

/-- How the catalogue's messages (R123) enter the block, which is the MODEL'S CHOICE (log entry 10). A driver's message
(MSG_IDENTIFY_RESP, MSG_IDLE_ACK, MSG_DETECTED_TAG, MSG_SELECTED_TAG, MSG_TRANSCEIVE_RESP) does what FRM_ENC does with its type
and payload; a client's (MSG_IDENTIFY, MSG_IDLE, MSG_DISCOVER, MSG_SELECT, MSG_TRANSCEIVE) has its serialised bytes due at the
decoder, without a reply. The wire carries every other type in the same way (R122: no type is illegal to the framer): all
wire bytes WRITER issues are due at the decoder, and every message WORKER issues is an FRM_ENC of it. -/
def Obligations.MessagesEnterTheBlock : Prop :=
  (∀ (s : State) (i : Instr) (ty : Byte) (payload : List Byte), encoderOperands i = some (ty, payload) →
    (s.params.ovfPolicy = .atomic → s.fifo.space s.params.fifoDepth < 3 + payload.length →
      exec i s = .next { s with fifo := { s.fifo with ovf := true }, replies := s.replies ++ [⟨.worker, [0x01]⟩] })
    ∧ (s.params.ovfPolicy = .truncate ∨ 3 + payload.length ≤ s.fifo.space s.params.fifoDepth →
      exec i s = .next { s with enc := { busy := true, bytes := ser s.params.lenOrder ty payload, idx := 0 } }))
  ∧ (∀ (s : State) (i : Instr) (ty : Byte) (payload : List Byte), clientOperands i = some (ty, payload) →
      exec i s = .next { s with wr := some ⟨ser s.params.lenOrder ty payload, 0, false⟩ })
  ∧ (∀ (s : State) (p : Packet) (rest : List Packet) (bytes : List Byte), Issues s p rest → p.agent = .writer →
      p.words = .wire bytes → bytes ≠ [] → step s = .next { taken s rest with wr := some ⟨bytes, 0, false⟩ })
  ∧ ∀ (s : State) (p : Packet) (rest : List Packet) (ty : Byte) (payload : List Byte), Issues s p rest →
      p.agent = .worker → p.words = .wire (ser s.params.lenOrder ty payload) → payload.length ≤ 65535 →
      step s = exec (.frmEnc ty payload) (taken s rest)

/-- R231 and R230: an encoder push step of WORKER. A full FIFO ends the operation with OVERFLOW, the flag set and the rest
dropped; else the byte is queued, and the last byte ends it with OK. -/
def Obligations.EncoderPushSteps : Prop :=
  ∀ (s : State) (b : Byte), LiveTurn .worker s → s.enc.busy = true → s.enc.bytes[s.enc.idx]? = some b →
    s.fifo.head < s.params.fifoDepth →
    (s.fifo.full s.params.fifoDepth = true →
      step s = .next { handOver s with
        fifo := { s.fifo with ovf := true }, enc := { s.enc with busy := false }
        replies := s.replies ++ [⟨.worker, [0x01]⟩] })
    ∧ (s.fifo.full s.params.fifoDepth = false →
      ∃ m : Memory, (∀ i, m.load i = if i = s.fifo.head then some b else s.fifo.mem.load i)
        ∧ (s.enc.idx + 1 = s.enc.bytes.length →
            step s = .next { handOver s with
              fifo := { s.fifo with mem := m, head := (s.fifo.head + 1) % s.params.fifoDepth }
              enc := { s.enc with busy := false, idx := s.enc.idx + 1 }
              replies := s.replies ++ [⟨.worker, [0x00]⟩] })
        ∧ (s.enc.idx + 1 ≠ s.enc.bytes.length →
            step s = .next { handOver s with
              fifo := { s.fifo with mem := m, head := (s.fifo.head + 1) % s.params.fifoDepth }
              enc := { s.enc with idx := s.enc.idx + 1 } }))

/-- R228 and R231 run to the end: a message that fits is queued whole, in order, after what was queued, and OK is replied. -/
def Obligations.EncoderQueuesTheWholeMessage : Prop :=
  ∀ (s : State) (bytes : List Byte) (rest : List Agent), s.params.Legal → FifoInv s.params.fifoDepth s.fifo →
    s.enc = { busy := true, bytes := bytes, idx := 0 } → bytes ≠ [] →
    bytes.length ≤ s.fifo.space s.params.fifoDepth → .worker ∉ s.halted →
    s.sched = List.replicate bytes.length .worker ++ rest →
    ∃ t, runFor bytes.length s = .next t
      ∧ t.fifo.contents s.params.fifoDepth = s.fifo.contents s.params.fifoDepth ++ bytes
      ∧ t.replies = s.replies ++ [⟨.worker, [0x00]⟩] ∧ t.enc.busy = false ∧ t.sched = rest
      ∧ t.fifo.tail = s.fifo.tail ∧ t.fifo.ovf = s.fifo.ovf
      ∧ t.ac = s.ac ∧ t.dec = s.dec ∧ t.rd = s.rd ∧ t.wr = s.wr ∧ t.sinkHeld = s.sinkHeld

/-- R233: under ATOMIC the free space never falls below the bytes an accepted message still has to push, whoever steps; so
no push step of it finds the FIFO full. -/
def Obligations.AcceptedMessagesAlwaysFit : Prop :=
  ∀ s t : State, s.params.Legal → FifoInv s.params.fifoDepth s.fifo → EncoderInv s.enc → AtomicRoom s →
    step s = .next t →
    AtomicRoom t
    ∧ (s.params.ovfPolicy = .atomic → s.enc.busy = true → s.fifo.full s.params.fifoDepth = false)

/-! ### The framer: decoder -/

/-- R236 to R239: FRM_DEC while nothing is pending: the header bytes, the length, the payload byte by byte, the dispatch on
the byte that completes the message. `DEC_CNT` = 65535 in the payload phase is ruled out by the invariant. -/
def Obligations.DecoderStepsAsStated : Prop :=
  ∀ (s : State) (b : Byte), s.dec.pend = false →
    (s.dec.phase = .hdr → s.dec.hcnt = 0 → exec (.frmDec b) s = .next { s with dec := { s.dec with
        hdr := #v[b, s.dec.hdr[1], s.dec.hdr[2]], hcnt := 1 } })
    ∧ (s.dec.phase = .hdr → s.dec.hcnt = 1 → exec (.frmDec b) s = .next { s with dec := { s.dec with
        hdr := #v[s.dec.hdr[0], b, s.dec.hdr[2]], hcnt := 2 } })
    ∧ (s.dec.phase = .hdr → s.dec.hcnt = 2 → len16 s.params.lenOrder s.dec.hdr[1] b = 0 →
        exec (.frmDec b) s = .next { s with dec := { s.dec with
          hdr := #v[s.dec.hdr[0], s.dec.hdr[1], b], hcnt := 0, len := 0
          pendType := s.dec.hdr[0], pendLen := 0, pend := true } })
    ∧ (s.dec.phase = .hdr → s.dec.hcnt = 2 → len16 s.params.lenOrder s.dec.hdr[1] b ≠ 0 →
        exec (.frmDec b) s = .next { s with dec := { s.dec with
          hdr := #v[s.dec.hdr[0], s.dec.hdr[1], b], hcnt := 0, len := len16 s.params.lenOrder s.dec.hdr[1] b
          phase := .pay, cnt := 0 } })
    ∧ (s.dec.phase = .pay → s.dec.cnt.toNat < 65535 →
        ∃ m : Memory, (∀ i, m.load i = if i = s.dec.cnt.toNat then some b else s.dec.buf.load i)
          ∧ (s.dec.cnt.toNat + 1 = s.dec.len.toNat → exec (.frmDec b) s = .next { s with dec := { s.dec with
              buf := m, cnt := s.dec.cnt + 1, phase := .hdr
              pendType := s.dec.hdr[0], pendLen := s.dec.len, pend := true } })
          ∧ (s.dec.cnt.toNat + 1 ≠ s.dec.len.toNat → exec (.frmDec b) s = .next { s with dec := { s.dec with
              buf := m, cnt := s.dec.cnt + 1 } }))

/-- R236 and R316: while a message is pending FRM_DEC holds its byte (where it is kept is deduced, log entry 18), and WRITER,
whatever it is feeding, takes no step (its turn only passes: log entry 6); once nothing is pending the held byte goes in as a new FRM_DEC would put it in. -/
def Obligations.PendingMessageHoldsTheWriter : Prop :=
  (∀ (s : State) (b : Byte), s.dec.pend = true →
      ∃ op, exec (.frmDec b) s = .next { s with wr := some op } ∧ op.bytes = [b] ∧ op.idx = 0 ∧ op.replies = false)
  ∧ (∀ (s : State), LiveTurn .writer s → s.wr ≠ none → s.dec.pend = true → step s = .next (handOver s))
  ∧ ∀ (s : State) (b : Byte), LiveTurn .writer s → s.wr = some ⟨[b], 0, false⟩ → s.dec.pend = false →
      step s = exec (.frmDec b) { handOver s with wr := none }

/-- R243: FRM_WRITE. An empty chunk replies 0; else its bytes go in one a step, each as FRM_DEC's would, and the last one
replies the full count (where the steps are cut is deduced, log entry 7; a client's message is fed the same way without a
reply, log entry 10). -/
def Obligations.WriterFeedsByteByByte : Prop :=
  (∀ s : State, exec (.frmWrite []) s = .next { s with replies := s.replies ++ [⟨.writer, [0x00, 0x00]⟩] })
  ∧ (∀ (s : State) (bytes : List Byte), bytes ≠ [] →
      exec (.frmWrite bytes) s = .next { s with wr := some ⟨bytes, 0, true⟩ })
  ∧ ∀ (s t : State) (bytes : List Byte) (idx : Nat) (replies : Bool) (b : Byte), LiveTurn .writer s →
      s.wr = some ⟨bytes, idx, replies⟩ → s.dec.pend = false → bytes[idx]? = some b →
      exec (.frmDec b) { handOver s with wr := none } = .next t →
      (idx + 1 ≠ bytes.length → step s = .next { t with wr := some ⟨bytes, idx + 1, replies⟩ })
      ∧ (idx + 1 = bytes.length → step s = .next { t with
          replies := if replies then s.replies ++ [⟨.writer, u16 s.params.lenOrder (BitVec.ofNat 16 bytes.length)⟩]
            else s.replies })

/-- R246: FRM_ACCEPT replies the pending message and clears `DEC_PEND`; with nothing pending SINK holds until a message is
dispatched. That a turn of a holding SINK is a step in which only the turn passes is the MODEL'S CHOICE (log entry 6). -/
def Obligations.AcceptRepliesTheMessage : Prop :=
  (∀ (s : State) (payload : List Byte), s.dec.pend = true → s.dec.buf.loadRange 0 s.dec.pendLen.toNat = some payload →
      exec .frmAccept s = .next { s with
        dec := { s.dec with pend := false }, sinkHeld := false
        replies := s.replies ++ [⟨.sink, [s.dec.pendType] ++ u16 s.params.lenOrder s.dec.pendLen ++ payload⟩] })
  ∧ (∀ s : State, s.dec.pend = false → exec .frmAccept s = .next { s with sinkHeld := true })
  ∧ ∀ s : State, LiveTurn .sink s → s.sinkHeld = true →
      (s.dec.pend = false → step s = .next (handOver s)) ∧ (s.dec.pend = true → step s = exec .frmAccept (handOver s))

/-- R221: feeding the bytes of `ser(T, P)` to a decoder at a message boundary dispatches exactly one message, on the last
byte, with that type and payload, and leaves it at a boundary; FRM_ACCEPT then replies those bytes. That WRITER's operation
takes 3 + |P| steps and is over in the step of its last byte is deduced (log entry 7). -/
def Obligations.SerialisedMessageRoundTrips : Prop :=
  ∀ (s : State) (ty : Byte) (payload : List Byte) (replies : Bool) (rest : List Agent), payload.length ≤ 65535 →
    s.dec.phase = .hdr → s.dec.hcnt = 0 → s.dec.pend = false → .writer ∉ s.halted →
    s.wr = some ⟨ser s.params.lenOrder ty payload, 0, replies⟩ →
    s.sched = List.replicate (3 + payload.length) .writer ++ rest →
    (∀ k, k < 3 + payload.length → ∃ u, runFor k s = .next u ∧ u.dec.pend = false)
    ∧ ∃ t, runFor (3 + payload.length) s = .next t
      ∧ t.dec.pend = true ∧ t.dec.pendType = ty ∧ t.dec.pendLen.toNat = payload.length
      ∧ t.dec.buf.loadRange 0 payload.length = some payload
      ∧ t.dec.phase = .hdr ∧ t.dec.hcnt = 0 ∧ t.wr = none ∧ t.fifo = s.fifo ∧ t.ac = s.ac ∧ t.enc = s.enc
      ∧ ∃ u, exec .frmAccept t = .next u
          ∧ u.replies = t.replies ++ [⟨.sink, ser s.params.lenOrder ty payload⟩] ∧ u.dec.pend = false

/-! ### The whole machine -/

/-- The invariant holds after the first RESET of every legal instance (R57, R343). -/
def Obligations.InvariantHoldsAtReset : Prop :=
  ∀ p : Params, p.Legal → BlockInv (State.resetWith p)

/-- Every step of any agent, with any packets and any interleaving, keeps the invariant (R57, R76, R233, R318). -/
def Obligations.InvariantIsKept : Prop :=
  ∀ s t : State, BlockInv s → step s = .next t → BlockInv t

/-- No step from a state of the invariant faults: no absent slot is named and no unwritten slot is read (R76, R241, R314); and
only words that are no instruction stop the machine. -/
def Obligations.NoStepFaults : Prop :=
  ∀ s : State, BlockInv s →
    (∀ f, step s ≠ .fault f)
    ∧ ∀ r, step s = .refused r → ∃ p rest e, Issues s p rest ∧ decode s.params.lenOrder p.words = .error e
end

