-- ==== Sys2Proof/Laws/Bits.lean ====
section
/-! SUPPORT. What the bit and byte operations of Decode do, position by position. -/

namespace Sys2Proof

/-- `setPos` sets one position and keeps the others. -/
theorem getLsbD_setPos {w : Nat} (v : BitVec w) (p i : Nat) (b : Bool) (hi : i < w) :
    (setPos v p b).getLsbD i = if i = p then b else v.getLsbD i := by
  unfold setPos
  by_cases h : i = p
  · subst h
    cases b <;> simp [hi]
  · cases b <;> simp [h, hi]

/-- `fillBits` sets the positions from `k` on to `f` and keeps the others. -/
theorem getLsbD_fillBits {w : Nat} (v : BitVec w) (k n i : Nat) (f : Nat → Bool) (hi : i < w) :
    (fillBits v k f n).getLsbD i = if k ≤ i ∧ i < k + n then f (i - k) else v.getLsbD i := by
  induction n with
  | zero =>
    rw [if_neg (by omega)]
    rfl
  | succ n ih =>
    rw [fillBits, getLsbD_setPos _ _ _ _ hi, ih]
    by_cases h : i = k + n
    · rw [if_pos h, if_pos (by omega), h, Nat.add_sub_cancel_left]
    · rw [if_neg h]
      by_cases h2 : k ≤ i ∧ i < k + n
      · rw [if_pos h2, if_pos (by omega)]
      · rw [if_neg h2, if_neg (by omega)]

/-- Bit i of `ofBits` is `f i`. -/
theorem getLsbD_ofBits {w : Nat} (f : Nat → Bool) (i : Nat) (hi : i < w) : (ofBits w f).getLsbD i = f i := by
  rw [ofBits, getLsbD_fillBits _ _ _ _ _ hi, if_pos (by omega), Nat.sub_zero]

/-- A word is `ofBits` of its own bits. -/
theorem ofBits_getLsbD {w : Nat} (v : BitVec w) : ofBits w (fun i => v.getLsbD i) = v :=
  BitVec.eq_of_getLsbD_eq fun i hi => getLsbD_ofBits _ i hi

/-- `ofBits` depends on the first w values of the function only. -/
theorem ofBits_congr {w : Nat} {f g : Nat → Bool} (h : ∀ i, i < w → f i = g i) : ofBits w f = ofBits w g := by
  apply BitVec.eq_of_getLsbD_eq
  intro i hi
  rw [getLsbD_ofBits f i hi, getLsbD_ofBits g i hi, h i hi]

@[simp] theorem length_byteBits (b : Byte) : (byteBits b).length = 8 := by simp [byteBits]

@[simp] theorem length_bytesToBitsLSB (bs : List Byte) : (bytesToBitsLSB bs).length = 8 * bs.length := by
  induction bs with
  | nil => rfl
  | cons b bs ih =>
    simp only [bytesToBitsLSB, List.flatMap_cons, List.length_append, length_byteBits, List.length_cons] at ih ⊢
    omega

/-- Bit i of a byte in its bit list. -/
theorem getD_byteBits (b : Byte) (i : Nat) (hi : i < 8) : (byteBits b).getD i false = b.getLsbD i := by
  simp [byteBits, List.getD_eq_getElem?_getD, hi]

/-- `rx[i] = DATA[i div 8][i mod 8]` for the bits of a byte list. -/
theorem getD_bytesToBitsLSB (bs : List Byte) (i : Nat) :
    (bytesToBitsLSB bs).getD i false = (bs.getD (i / 8) 0).getLsbD (i % 8) := by
  induction bs generalizing i with
  | nil => simp [bytesToBitsLSB]
  | cons b bs ih =>
    have hc : bytesToBitsLSB (b :: bs) = byteBits b ++ bytesToBitsLSB bs := by simp [bytesToBitsLSB]
    rw [hc]
    by_cases h : i < 8
    · rw [List.getD_append _ _ _ _ (by simpa using h), getD_byteBits b i h]
      simp [Nat.div_eq_of_lt h, Nat.mod_eq_of_lt h]
    · rw [List.getD_append_right _ _ _ _ (by simpa using h)]
      simp only [length_byteBits]
      rw [ih]
      have h1 : i / 8 = (i - 8) / 8 + 1 := by omega
      have h2 : (i - 8) % 8 = i % 8 := by omega
      simp [h1, h2]

/-- `bitsToBytesLSB` undoes `bytesToBitsLSB`. -/
theorem bitsToBytesLSB_bytesToBitsLSB (bs : List Byte) : bitsToBytesLSB (bytesToBitsLSB bs) = bs := by
  apply List.ext_getElem
  · simp [bitsToBytesLSB]; omega
  · intro j h1 h2
    simp only [bitsToBytesLSB, List.getElem_map, List.getElem_range]
    apply BitVec.eq_of_getLsbD_eq
    intro i hi
    rw [getLsbD_ofBits _ i hi, getD_bytesToBitsLSB, show (8 * j + i) / 8 = j by omega,
      show (8 * j + i) % 8 = i by omega, List.getD_eq_getElem _ _ h2]

@[simp] theorem length_u16 (o : LenOrder) (v : U16) : (u16 o v).length = 2 := by cases o <;> rfl

/-- A U16 read back from its two bytes (R120). -/
theorem len16_u16 (o : LenOrder) (v : U16) : len16 o ((u16 o v).getD 0 0) ((u16 o v).getD 1 0) = v := by
  have := v.isLt
  cases o <;> apply BitVec.eq_of_toNat_eq <;> simp [u16, len16] <;> omega

/-- The two bytes of a U16 assembled from two bytes (R120). -/
theorem u16_len16 (o : LenOrder) (x1 x2 : Byte) : u16 o (len16 o x1 x2) = [x1, x2] := by
  have := x1.isLt
  have := x2.isLt
  cases o <;> simp only [u16, len16, List.cons.injEq, and_true] <;> constructor <;>
    apply BitVec.eq_of_toNat_eq <;> simp <;> omega

/-- The two bytes of a U16, named. -/
theorem u16_eq (o : LenOrder) (v : U16) : ∃ x1 x2, u16 o v = [x1, x2] ∧ len16 o x1 x2 = v := by
  refine ⟨_, _, ?_, len16_u16 o v⟩
  cases o <;> rfl

@[simp] theorem length_ser (o : LenOrder) (ty : Byte) (p : List Byte) : (ser o ty p).length = 3 + p.length := by
  simp [ser]; omega

/-- The bytes that are one whole message are exactly the serialised messages (R120, R220). -/
theorem wholeMessage_eq_some {o : LenOrder} {bs : List Byte} {ty : Byte} {p : List Byte} :
    wholeMessage o bs = some (ty, p) ↔ bs = ser o ty p ∧ p.length ≤ 65535 := by
  constructor
  · intro h
    unfold wholeMessage at h
    split at h
    · rename_i t l1 l2 q
      split at h
      · rename_i hl
        simp only [Option.some.injEq, Prod.mk.injEq] at h
        obtain ⟨rfl, rfl⟩ := h
        have := (len16 o l1 l2).isLt
        exact ⟨by rw [ser, hl, BitVec.ofNat_toNat, BitVec.setWidth_eq, u16_len16]; rfl, by omega⟩
      · cases h
    · cases h
  · rintro ⟨rfl, hp⟩
    obtain ⟨x1, x2, e, h⟩ := u16_eq o (BitVec.ofNat 16 p.length)
    have hl : (BitVec.ofNat 16 p.length).toNat = p.length := by simp; omega
    simp only [ser, e, wholeMessage, List.cons_append, List.nil_append, h, hl, if_true]

@[simp] theorem length_clPrefix (cl : BitVec 40) (k : Nat) : (clPrefix cl k).length = k := by simp [clPrefix]

@[simp] theorem length_anticollBits (l : Level) (known : List Bool) :
    (anticollBits l known).length = 16 + known.length := by simp [anticollBits]

@[simp] theorem length_selectBits (l : Level) (cl : BitVec 40) : (selectBits l cl).length = 56 := by
  simp [selectBits, clBytes]

@[simp] theorem length_reqaBits : reqaBits.length = 7 := by simp [reqaBits]

end Sys2Proof
end

