-- ==== Sys2Proof/Laws/State.lean ====
section
/-! SUPPORT. What each named update of the state and of the arbiter leaves in each field. -/

namespace Sys2Proof.Machine

@[simp] theorem State.reply_params (s : State) (a : Agent) (bs : List Byte) : (s.reply a bs).params = s.params := rfl
@[simp] theorem State.reply_ac (s : State) (a : Agent) (bs : List Byte) : (s.reply a bs).ac = s.ac := rfl
@[simp] theorem State.reply_fifo (s : State) (a : Agent) (bs : List Byte) : (s.reply a bs).fifo = s.fifo := rfl
@[simp] theorem State.reply_dec (s : State) (a : Agent) (bs : List Byte) : (s.reply a bs).dec = s.dec := rfl
@[simp] theorem State.reply_enc (s : State) (a : Agent) (bs : List Byte) : (s.reply a bs).enc = s.enc := rfl
@[simp] theorem State.reply_rd (s : State) (a : Agent) (bs : List Byte) : (s.reply a bs).rd = s.rd := rfl
@[simp] theorem State.reply_wr (s : State) (a : Agent) (bs : List Byte) : (s.reply a bs).wr = s.wr := rfl
@[simp] theorem State.reply_sinkHeld (s : State) (a : Agent) (bs : List Byte) : (s.reply a bs).sinkHeld = s.sinkHeld := rfl
@[simp] theorem State.reply_refused (s : State) (a : Agent) (bs : List Byte) : (s.reply a bs).refused = s.refused := rfl
@[simp] theorem State.reply_halted (s : State) (a : Agent) (bs : List Byte) : (s.reply a bs).halted = s.halted := rfl
@[simp] theorem State.reply_pending (s : State) (a : Agent) (bs : List Byte) : (s.reply a bs).pending = s.pending := rfl
@[simp] theorem State.reply_sched (s : State) (a : Agent) (bs : List Byte) : (s.reply a bs).sched = s.sched := rfl
@[simp] theorem State.reply_rfOut (s : State) (a : Agent) (bs : List Byte) : (s.reply a bs).rfOut = s.rfOut := rfl
@[simp] theorem State.reply_replies (s : State) (a : Agent) (bs : List Byte) :
    (s.reply a bs).replies = s.replies ++ [⟨a, bs⟩] := rfl

@[simp] theorem State.refuse_params (s : State) (a : Agent) : (s.refuse a).params = s.params := rfl
@[simp] theorem State.refuse_ac (s : State) (a : Agent) : (s.refuse a).ac = s.ac := rfl
@[simp] theorem State.refuse_fifo (s : State) (a : Agent) : (s.refuse a).fifo = s.fifo := rfl
@[simp] theorem State.refuse_dec (s : State) (a : Agent) : (s.refuse a).dec = s.dec := rfl
@[simp] theorem State.refuse_enc (s : State) (a : Agent) : (s.refuse a).enc = s.enc := rfl
@[simp] theorem State.refuse_rd (s : State) (a : Agent) : (s.refuse a).rd = s.rd := rfl
@[simp] theorem State.refuse_wr (s : State) (a : Agent) : (s.refuse a).wr = s.wr := rfl
@[simp] theorem State.refuse_sinkHeld (s : State) (a : Agent) : (s.refuse a).sinkHeld = s.sinkHeld := rfl
@[simp] theorem State.refuse_pending (s : State) (a : Agent) : (s.refuse a).pending = s.pending := rfl
@[simp] theorem State.refuse_sched (s : State) (a : Agent) : (s.refuse a).sched = s.sched := rfl
@[simp] theorem State.refuse_replies (s : State) (a : Agent) : (s.refuse a).replies = s.replies := rfl
@[simp] theorem State.refuse_rfOut (s : State) (a : Agent) : (s.refuse a).rfOut = s.rfOut := rfl
@[simp] theorem State.refuse_refused (s : State) (a : Agent) : (s.refuse a).refused = true := rfl

/-- The issuer of a refused operation is halted, with those that were. -/
@[simp] theorem State.mem_refuse_halted (s : State) (a b : Agent) :
    b ∈ (s.refuse a).halted ↔ b = a ∨ b ∈ s.halted := by
  unfold State.refuse
  by_cases h : a ∈ s.halted
  · simp only [h, if_true]
    exact ⟨.inr, fun hb => hb.elim (fun e => e ▸ h) id⟩
  · simp [h, or_comm]

/-- A refusal lists no agent twice. -/
theorem State.refuse_nodup (s : State) (a : Agent) (h : s.halted.Nodup) : (s.refuse a).halted.Nodup := by
  unfold State.refuse
  by_cases ha : a ∈ s.halted
  · simpa [ha] using h
  · simp only [ha, if_false]
    exact List.nodup_append.mpr ⟨h, by simp, fun x hx y hy => by
      simp only [List.mem_singleton] at hy
      exact fun e => ha (hy ▸ e ▸ hx)⟩

@[simp] theorem State.applyReset_params (s : State) : s.applyReset.params = s.params := rfl
@[simp] theorem State.applyReset_ac (s : State) : s.applyReset.ac = .reset := rfl
@[simp] theorem State.applyReset_fifo (s : State) : s.applyReset.fifo = .reset := rfl
@[simp] theorem State.applyReset_dec (s : State) : s.applyReset.dec = .reset := rfl
@[simp] theorem State.applyReset_enc (s : State) : s.applyReset.enc = .reset := rfl
@[simp] theorem State.applyReset_rd (s : State) : s.applyReset.rd = none := rfl
@[simp] theorem State.applyReset_wr (s : State) : s.applyReset.wr = none := rfl
@[simp] theorem State.applyReset_sinkHeld (s : State) : s.applyReset.sinkHeld = false := rfl
@[simp] theorem State.applyReset_refused (s : State) : s.applyReset.refused = s.refused := rfl
@[simp] theorem State.applyReset_halted (s : State) : s.applyReset.halted = s.halted := rfl
@[simp] theorem State.applyReset_pending (s : State) : s.applyReset.pending = s.pending := rfl
@[simp] theorem State.applyReset_sched (s : State) : s.applyReset.sched = s.sched := rfl
@[simp] theorem State.applyReset_replies (s : State) : s.applyReset.replies = s.replies := rfl
@[simp] theorem State.applyReset_rfOut (s : State) : s.applyReset.rfOut = s.rfOut := rfl

@[simp] theorem Arbiter.finish_state (a : Arbiter) (r : AcResult) : (a.finish r).state = .idle := rfl
@[simp] theorem Arbiter.finish_level (a : Arbiter) (r : AcResult) : (a.finish r).level = a.level := rfl
@[simp] theorem Arbiter.finish_known (a : Arbiter) (r : AcResult) : (a.finish r).known = a.known := rfl
@[simp] theorem Arbiter.finish_cl (a : Arbiter) (r : AcResult) : (a.finish r).cl = a.cl := rfl
@[simp] theorem Arbiter.finish_uid (a : Arbiter) (r : AcResult) : (a.finish r).uid = a.uid := rfl
@[simp] theorem Arbiter.finish_uidLen (a : Arbiter) (r : AcResult) : (a.finish r).uidLen = a.uidLen := rfl
@[simp] theorem Arbiter.finish_atqa (a : Arbiter) (r : AcResult) : (a.finish r).atqa = a.atqa := rfl
@[simp] theorem Arbiter.finish_sak (a : Arbiter) (r : AcResult) : (a.finish r).sak = a.sak := rfl
@[simp] theorem Arbiter.finish_cancel (a : Arbiter) (r : AcResult) : (a.finish r).cancel = false := rfl
@[simp] theorem Arbiter.finish_result (a : Arbiter) (r : AcResult) : (a.finish r).result = r := rfl

@[simp] theorem Arbiter.enterLevel_state (a : Arbiter) (l : Level) : (Arbiter.enterLevel l a).state = .waitAc := rfl
@[simp] theorem Arbiter.enterLevel_level (a : Arbiter) (l : Level) : (Arbiter.enterLevel l a).level = l := rfl
@[simp] theorem Arbiter.enterLevel_known (a : Arbiter) (l : Level) : (Arbiter.enterLevel l a).known = 0 := rfl
@[simp] theorem Arbiter.enterLevel_cl (a : Arbiter) (l : Level) : (Arbiter.enterLevel l a).cl = 0 := rfl
@[simp] theorem Arbiter.enterLevel_uid (a : Arbiter) (l : Level) : (Arbiter.enterLevel l a).uid = a.uid := rfl
@[simp] theorem Arbiter.enterLevel_uidLen (a : Arbiter) (l : Level) : (Arbiter.enterLevel l a).uidLen = a.uidLen := rfl
@[simp] theorem Arbiter.enterLevel_atqa (a : Arbiter) (l : Level) : (Arbiter.enterLevel l a).atqa = a.atqa := rfl
@[simp] theorem Arbiter.enterLevel_sak (a : Arbiter) (l : Level) : (Arbiter.enterLevel l a).sak = a.sak := rfl
@[simp] theorem Arbiter.enterLevel_cancel (a : Arbiter) (l : Level) : (Arbiter.enterLevel l a).cancel = a.cancel := rfl
@[simp] theorem Arbiter.enterLevel_result (a : Arbiter) (l : Level) : (Arbiter.enterLevel l a).result = a.result := rfl

@[simp] theorem Arbiter.start_state (a : Arbiter) : a.start.state = .waitAtqa := rfl
@[simp] theorem Arbiter.start_level (a : Arbiter) : a.start.level = .one := rfl
@[simp] theorem Arbiter.start_known (a : Arbiter) : a.start.known = 0 := rfl
@[simp] theorem Arbiter.start_cl (a : Arbiter) : a.start.cl = 0 := rfl
@[simp] theorem Arbiter.start_uid (a : Arbiter) : a.start.uid = Vector.replicate 10 0 := rfl
@[simp] theorem Arbiter.start_uidLen (a : Arbiter) : a.start.uidLen = 0 := rfl
@[simp] theorem Arbiter.start_atqa (a : Arbiter) : a.start.atqa = Vector.replicate 2 0 := rfl
@[simp] theorem Arbiter.start_sak (a : Arbiter) : a.start.sak = 0 := rfl
@[simp] theorem Arbiter.start_cancel (a : Arbiter) : a.start.cancel = false := rfl
@[simp] theorem Arbiter.start_result (a : Arbiter) : a.start.result = .none := rfl

@[simp] theorem Decoder.dispatch_phase (d : Decoder) (ty : Byte) (len : U16) :
    (Decoder.dispatch ty len d).phase = d.phase := rfl
@[simp] theorem Decoder.dispatch_hcnt (d : Decoder) (ty : Byte) (len : U16) :
    (Decoder.dispatch ty len d).hcnt = d.hcnt := rfl
@[simp] theorem Decoder.dispatch_hdr (d : Decoder) (ty : Byte) (len : U16) :
    (Decoder.dispatch ty len d).hdr = d.hdr := rfl
@[simp] theorem Decoder.dispatch_len (d : Decoder) (ty : Byte) (len : U16) :
    (Decoder.dispatch ty len d).len = d.len := rfl
@[simp] theorem Decoder.dispatch_cnt (d : Decoder) (ty : Byte) (len : U16) :
    (Decoder.dispatch ty len d).cnt = d.cnt := rfl
@[simp] theorem Decoder.dispatch_buf (d : Decoder) (ty : Byte) (len : U16) :
    (Decoder.dispatch ty len d).buf = d.buf := rfl
@[simp] theorem Decoder.dispatch_pend (d : Decoder) (ty : Byte) (len : U16) :
    (Decoder.dispatch ty len d).pend = true := rfl
@[simp] theorem Decoder.dispatch_pendType (d : Decoder) (ty : Byte) (len : U16) :
    (Decoder.dispatch ty len d).pendType = ty := rfl
@[simp] theorem Decoder.dispatch_pendLen (d : Decoder) (ty : Byte) (len : U16) :
    (Decoder.dispatch ty len d).pendLen = len := rfl

end Sys2Proof.Machine
end

