-- ==== Sys2Proof/Laws/Arbitration.lean ====
section
/-! SUPPORT. What the arbiter's rules do (spec/40_anticollision.md): the UID buffer, the merges, and the cases of a
response. -/

namespace Sys2Proof.Machine

/-- Byte `i` of the UID buffer, as a list index. -/
theorem uid_getD_set (uid : Vector Byte 10) (i j : Nat) (b : Byte) (hi : i < 10) :
    (uid.setIfInBounds i b).toList.getD j 0 = if j = i then b else uid.toList.getD j 0 := by
  by_cases h : j = i
  · subst h
    simp [List.getD_eq_getElem?_getD, hi]
  · have h' : ¬ i = j := fun e => h e.symm
    simp [List.getD_eq_getElem?_getD, h, h']

/-- All a write to the UID buffer can do: the bytes given stand from `i` on, inside the ten, and the others stay (R170,
R171). -/
theorem writeUid_spec {uid uid' : Vector Byte 10} {i : Nat} {bs : List Byte} (h : writeUid uid i bs = some uid') :
    (bs = [] ∨ i + bs.length ≤ 10)
      ∧ ∀ j, uid'.toList.getD j 0 = if i ≤ j ∧ j < i + bs.length then bs.getD (j - i) 0 else uid.toList.getD j 0 := by
  induction bs generalizing uid i with
  | nil =>
    simp only [writeUid, Option.some.injEq] at h
    subst h
    exact ⟨.inl rfl, fun j => by rw [if_neg (by simp)]⟩
  | cons b bs ih =>
    rw [writeUid] at h
    split at h
    · rename_i hi
      obtain ⟨hlen, hget⟩ := ih h
      refine ⟨.inr ?_, fun j => ?_⟩
      · rcases hlen with rfl | hlen
        · simp; omega
        · simp only [List.length_cons]; omega
      · rw [hget j, uid_getD_set uid i j b hi]
        simp only [List.length_cons]
        by_cases h1 : j = i
        · subst h1
          rw [if_neg (by omega), if_pos rfl, if_pos (by omega), Nat.sub_self]
          rfl
        · by_cases h2 : i + 1 ≤ j ∧ j < i + 1 + bs.length
          · rw [if_pos h2, if_pos (by omega), show j - i = (j - (i + 1)) + 1 by omega]
            rfl
          · rw [if_neg h2, if_neg h1, if_neg (by omega)]
    · cases h

/-- A write of bytes that fit never fails. -/
theorem writeUid_isSome {uid : Vector Byte 10} {i : Nat} {bs : List Byte} (h : i + bs.length ≤ 10) :
    ∃ uid', writeUid uid i bs = some uid' := by
  induction bs generalizing uid i with
  | nil => exact ⟨uid, rfl⟩
  | cons b bs ih =>
    simp only [List.length_cons] at h
    rw [writeUid, if_pos (by omega)]
    exact ih (by omega)

/-- The level is complete: SELECT is due where the check byte is right, else the run ends (R165). -/
theorem Arbiter.completeLevel_cases (a : Arbiter) :
    (bccHolds a.cl = true ∧ a.completeLevel = { a with state := .waitSak })
      ∨ (bccHolds a.cl = false ∧ a.completeLevel = a.finish .errBcc) := by
  unfold Arbiter.completeLevel
  cases h : bccHolds a.cl <;> simp

/-- All a cascading SAK can do (R170). -/
theorem Arbiter.cascade_spec {a b : Arbiter} (h : a.cascade = .ok b) :
    (a.level = .three ∧ b = a.finish .errCascadeDepth)
    ∨ (a.level ≠ .three ∧ clByte a.cl 0 ≠ 0x88 ∧ b = a.finish .errCascadeTag)
    ∨ ∃ l uid, nextLevel a.level = some l ∧ clByte a.cl 0 = 0x88
        ∧ writeUid a.uid a.uidLen [clByte a.cl 1, clByte a.cl 2, clByte a.cl 3] = some uid
        ∧ b = Arbiter.enterLevel l { a with uid := uid, uidLen := a.uidLen + 3 } := by
  unfold Arbiter.cascade at h
  split at h
  · rename_i hl
    simp only [Except.ok.injEq] at h
    refine .inl ⟨?_, h.symm⟩
    cases hc : a.level <;> simp_all [nextLevel]
  · rename_i l hl
    split at h
    · rename_i htag
      simp only [Except.ok.injEq] at h
      refine .inr (.inl ⟨fun e => ?_, htag, h.symm⟩)
      simp [e, nextLevel] at hl
    · rename_i htag
      split at h
      · cases h
      · rename_i uid hu
        simp only [Except.ok.injEq] at h
        exact .inr (.inr ⟨l, uid, hl, by simpa using htag, hu, h.symm⟩)

/-- All a final SAK can do (R171). -/
theorem Arbiter.finalLevel_spec {a b : Arbiter} (h : a.finalLevel = .ok b) :
    ∃ uid, writeUid a.uid a.uidLen [clByte a.cl 0, clByte a.cl 1, clByte a.cl 2, clByte a.cl 3] = some uid
      ∧ b = Arbiter.finish .ok { a with uid := uid, uidLen := a.uidLen + 4 } := by
  unfold Arbiter.finalLevel at h
  split at h
  · cases h
  · rename_i uid hu
    simp only [Except.ok.injEq] at h
    exact ⟨uid, hu, h.symm⟩

/-- All a response can do to an arbiter that is not idle: the outcomes in the order of R319. -/
theorem Arbiter.answer_spec {a b : Arbiter} {collBit : Bool} {r : Response} (hs : a.state ≠ .idle)
    (h : a.answer collBit r = .ok b) :
    (a.cancel = true ∧ b = a.finish .cancelled)
    ∨ (a.cancel = false ∧ r = .xportError ∧ b = a.finish .errTransport)
    ∨ (a.cancel = false ∧ r = .timeout ∧ a.state = .waitAtqa ∧ b = a.finish .noTag)
    ∨ (a.cancel = false ∧ r = .timeout ∧ a.state ≠ .waitAtqa ∧ b = a.finish .errTimeout)
    ∨ ∃ rx coll, a.cancel = false ∧ r = .frame rx coll
        ∧ ((a.state = .waitAtqa ∧ b = a.onAtqa rx)
          ∨ (a.state = .waitAc ∧ b = a.onAnticoll collBit rx coll)
          ∨ (a.state = .waitSak ∧ a.onSak rx coll = .ok b)) := by
  unfold Arbiter.answer at h
  split at h
  · rename_i hc
    simp only [Except.ok.injEq] at h
    exact .inl ⟨hc, h.symm⟩
  · rename_i hc
    have hc' : a.cancel = false := by simpa using hc
    right
    cases r with
    | xportError =>
      simp only [Except.ok.injEq] at h
      exact .inl ⟨hc', rfl, h.symm⟩
    | timeout =>
      simp only [Except.ok.injEq] at h
      by_cases hw : a.state = .waitAtqa
      · exact .inr (.inl ⟨hc', rfl, hw, by simpa [hw] using h.symm⟩)
      · exact .inr (.inr (.inl ⟨hc', rfl, hw, by simpa [hw] using h.symm⟩))
    | frame rx coll =>
      refine .inr (.inr (.inr ⟨rx, coll, hc', rfl, ?_⟩))
      cases hst : a.state with
      | idle => exact absurd hst hs
      | waitAtqa => simp only [hst, Except.ok.injEq] at h; exact .inl ⟨rfl, h.symm⟩
      | waitAc => simp only [hst, Except.ok.injEq] at h; exact .inr (.inl ⟨rfl, h.symm⟩)
      | waitSak => simp only [hst] at h; exact .inr (.inr ⟨rfl, h⟩)

/-- All a response operation can do (R154): refused in IDLE; else only the arbiter changes. -/
theorem respond_spec {r : Response} {s t : State} (h : respond r s = .next t) :
    (s.ac.state = .idle ∧ t = s.refuse .transport)
    ∨ ∃ ac, s.ac.state ≠ .idle ∧ s.ac.answer s.params.collBit r = .ok ac ∧ t = { s with ac := ac } := by
  unfold respond at h
  split at h
  · simp only [Host.Outcome.next.injEq] at h
    exact .inl ⟨‹_›, h.symm⟩
  · split at h
    · cases h
    · rename_i ac hac
      simp only [Host.Outcome.next.injEq] at h
      exact .inr ⟨ac, ‹_›, hac, h.symm⟩

/-- Taking a frame from the port changes no register; the frame is recorded exactly when it is outstanding (R42). -/
theorem presentFrame_spec (frame : List Bool) (s : State) :
    (acTx s.ac = some frame ∧ presentFrame frame s = .next { s with rfOut := s.rfOut ++ [frame] })
    ∨ (acTx s.ac ≠ some frame ∧ presentFrame frame s = .next s) := by
  unfold presentFrame
  by_cases h : acTx s.ac = some frame <;> simp [h]

end Sys2Proof.Machine
end

