-- ==== Sys2Proof/Laws/Memory.lean ====
section
/-! SUPPORT. What reading and writing a storage array does: a read after a write, and the canonical form kept. -/

namespace Sys2Proof.Machine

/-- Every key of a list in canonical form that follows a cell is above the cell's. -/
theorem Memory.wf_cons {k : Nat} {b : Byte} {m : Memory} :
    Memory.wf ((k, b) :: m) = true ↔ (∀ c ∈ m, k < c.1) ∧ Memory.wf m = true := by
  simp [Memory.wf]

/-- A slot below every listed one holds no value. -/
theorem Memory.load_eq_none_of_lt {m : Memory} {i : Nat} (h : ∀ c ∈ m, i < c.1) : m.load i = none := by
  induction m with
  | nil => rfl
  | cons c rest ih =>
    obtain ⟨k, b⟩ := c
    have hk : i < k := h (k, b) (by simp)
    have : ¬ k = i := by omega
    simp only [Memory.load, this, if_false]
    exact ih fun c hc => h c (by simp [hc])

/-- Reading the slot just written gives the byte written. -/
@[simp] theorem Memory.load_put_same (m : Memory) (i : Nat) (b : Byte) : (m.put i b).load i = some b := by
  induction m with
  | nil => simp [Memory.put, Memory.load]
  | cons c rest ih =>
    obtain ⟨k, v⟩ := c
    by_cases h1 : i < k
    · simp [Memory.put, Memory.load, h1]
    · by_cases h2 : i = k
      · simp [Memory.put, Memory.load, h2]
      · have h3 : ¬ k = i := fun h => h2 h.symm
        simp [Memory.put, Memory.load, h1, h2, h3, ih]

/-- Every other slot reads as before. -/
theorem Memory.load_put_other (m : Memory) {i j : Nat} (b : Byte) (h : j ≠ i) : (m.put i b).load j = m.load j := by
  have h' : ¬ i = j := fun e => h e.symm
  induction m with
  | nil => simp [Memory.put, Memory.load, h']
  | cons c rest ih =>
    obtain ⟨k, v⟩ := c
    by_cases h1 : i < k
    · simp [Memory.put, Memory.load, h1, h']
    · by_cases h2 : i = k
      · subst h2; simp [Memory.put, Memory.load, h']
      · simp [Memory.put, Memory.load, h1, h2, ih]

/-- A write lists the slot written and no other new slot. -/
theorem Memory.mem_put {m : Memory} {i : Nat} {b : Byte} {c : Host.Cell} (h : c ∈ m.put i b) : c.1 = i ∨ c ∈ m := by
  induction m with
  | nil => simp [Memory.put] at h; simp [h]
  | cons d rest ih =>
    obtain ⟨k, v⟩ := d
    simp only [Memory.put] at h
    split at h
    · simp only [List.mem_cons] at h ⊢
      rcases h with h | h
      · exact .inl (by simp [h])
      · exact .inr h
    · split at h
      · simp only [List.mem_cons] at h ⊢
        rcases h with h | h
        · exact .inl (by simp [h])
        · exact .inr (.inr h)
      · simp only [List.mem_cons] at h ⊢
        rcases h with h | h
        · exact .inr (.inl h)
        · exact (ih h).imp_right .inr

/-- A write keeps the canonical form. -/
theorem Memory.put_wf {m : Memory} (i : Nat) (b : Byte) (h : m.wf = true) : (m.put i b).wf = true := by
  induction m with
  | nil => simp [Memory.put, Memory.wf]
  | cons c rest ih =>
    obtain ⟨k, v⟩ := c
    have hw := Memory.wf_cons.mp h
    simp only [Memory.put]
    split
    · refine Memory.wf_cons.mpr ⟨fun c hc => ?_, h⟩
      rcases List.mem_cons.mp hc with rfl | hc
      · assumption
      · have := hw.1 c hc; omega
    · split
      · rename_i _ h2; subst h2
        exact Memory.wf_cons.mpr hw
      · refine Memory.wf_cons.mpr ⟨fun c hc => ?_, ih hw.2⟩
        rcases Memory.mem_put hc with hc | hc
        · omega
        · exact hw.1 c hc

/-- A write to a slot of the array keeps every listed slot inside it. -/
theorem Memory.put_inside {m : Memory} {size i : Nat} (b : Byte) (hi : i < size) (h : m.inside size = true) :
    (m.put i b).inside size = true := by
  simp only [Memory.inside, List.all_eq_true, decide_eq_true_eq] at h ⊢
  intro c hc
  rcases Memory.mem_put hc with hc | hc
  · omega
  · exact h c hc

/-- A write answers an array exactly when the slot exists. -/
theorem Memory.store_eq_some {size : Nat} {m m' : Memory} {i : Nat} {b : Byte} :
    m.store size i b = some m' ↔ i < size ∧ m' = m.put i b := by
  unfold Memory.store
  split <;> simp [*, eq_comm]

/-- All a write can do: the slot exists and holds the byte, the others hold what they held, and the form is kept. -/
theorem Memory.store_spec {size : Nat} {m m' : Memory} {i : Nat} {b : Byte} (h : m.store size i b = some m') :
    i < size ∧ m'.load i = some b ∧ (∀ j, j ≠ i → m'.load j = m.load j)
      ∧ (m.wf = true → m'.wf = true) ∧ (m.inside size = true → m'.inside size = true) := by
  obtain ⟨hi, rfl⟩ := Memory.store_eq_some.mp h
  exact ⟨hi, by simp, fun j hj => Memory.load_put_other m b hj, Memory.put_wf i b, Memory.put_inside b hi⟩

/-- A range of slots reads as bytes exactly when each slot holds one. -/
theorem Memory.loadRange_isSome {m : Memory} {i n : Nat} :
    (m.loadRange i n).isSome = true ↔ ∀ j, j < n → (m.load (i + j)).isSome = true := by
  induction n generalizing i with
  | zero => simp [Memory.loadRange]
  | succ n ih =>
    simp only [Memory.loadRange]
    constructor
    · intro h j hj
      split at h
      · rename_i b bs hb hbs
        have hrest := ih.mp (by rw [hbs]; rfl)
        rcases j with - | j
        · simp [hb]
        · have := hrest j (by omega)
          rwa [show i + 1 + j = i + (j + 1) by omega] at this
      · simp at h
    · intro h
      have h0 := h 0 (by omega)
      have hr := (ih (i := i + 1)).mpr fun j hj => by
        have := h (j + 1) (by omega)
        rwa [show i + (j + 1) = i + 1 + j by omega] at this
      obtain ⟨b, hb⟩ := Option.isSome_iff_exists.mp h0
      obtain ⟨bs, hbs⟩ := Option.isSome_iff_exists.mp hr
      simp only [Nat.add_zero] at hb
      simp [hb, hbs]

/-- Reading a range depends on its slots only. -/
theorem Memory.loadRange_congr {m m' : Memory} {i n : Nat} (h : ∀ j, j < n → m'.load (i + j) = m.load (i + j)) :
    m'.loadRange i n = m.loadRange i n := by
  induction n generalizing i with
  | zero => rfl
  | succ n ih =>
    have h0 := h 0 (by omega)
    have hr := ih (i := i + 1) fun j hj => by
      have := h (j + 1) (by omega)
      rwa [show i + (j + 1) = i + 1 + j by omega] at this
    simp only [Nat.add_zero] at h0
    simp only [Memory.loadRange, h0, hr]

/-- A range one slot longer: the byte of the new slot comes last. -/
theorem Memory.loadRange_succ {m : Memory} {i n : Nat} {bs : List Byte} {b : Byte}
    (h : m.loadRange i n = some bs) (hb : m.load (i + n) = some b) : m.loadRange i (n + 1) = some (bs ++ [b]) := by
  induction n generalizing i bs with
  | zero =>
    simp only [Memory.loadRange, Option.some.injEq] at h
    subst h
    simp only [Nat.add_zero] at hb
    simp [Memory.loadRange, hb]
  | succ n ih =>
    rw [Memory.loadRange] at h
    split at h
    · rename_i c cs hc hcs
      cases h
      have := ih hcs (by rwa [show i + 1 + n = i + (n + 1) by omega])
      rw [Memory.loadRange, hc, this]
      rfl
    · simp at h

end Sys2Proof.Machine
end

