-- ==== Sys2Proof/Laws/Queue.lean ====
section
/-! SUPPORT. FIFO arithmetic and what a push and a take do to the queue (spec/42_fifo.md R271 to R277). -/

namespace Sys2Proof.Machine

/-- The occupancy without a residue, for indices inside the ring. -/
theorem Fifo.occ_eq {n : Nat} {f : Fifo} (hh : f.head < n) (ht : f.tail < n) :
    f.occ n = if f.tail ≤ f.head then f.head - f.tail else f.head + n - f.tail := by
  unfold Fifo.occ
  rw [Nat.mod_eq_of_lt ht]
  split
  · rw [show f.head + (n - f.tail) = (f.head - f.tail) + n by omega, Nat.add_mod_right, Nat.mod_eq_of_lt (by omega)]
  · rw [show f.head + (n - f.tail) = f.head + n - f.tail by omega, Nat.mod_eq_of_lt (by omega)]

/-- At most N - 1 bytes are queued (R57, R272). -/
theorem Fifo.occ_lt {n : Nat} (f : Fifo) (hn : 0 < n) : f.occ n < n := Nat.mod_lt _ hn

/-- The slot after the `k` oldest bytes, without a residue. -/
theorem slot_eq {n t k : Nat} (ht : t < n) (hk : k ≤ n) : (t + k) % n = if t + k < n then t + k else t + k - n := by
  split
  · exact Nat.mod_eq_of_lt ‹_›
  · rw [Nat.mod_eq_sub_mod (by omega), Nat.mod_eq_of_lt (by omega)]

/-- `next(i)` without a residue (R271). -/
theorem nextIndex_eq {n i : Nat} (hi : i < n) : nextIndex n i = if i + 1 < n then i + 1 else 0 := by
  unfold nextIndex
  rw [slot_eq hi (by omega)]
  split <;> omega

theorem nextIndex_lt {n : Nat} (i : Nat) (hn : 0 < n) : nextIndex n i < n := Nat.mod_lt _ hn

/-- `FIFO_HEAD` is the slot after the queued bytes. -/
theorem Fifo.head_eq_slot {n : Nat} {f : Fifo} (hh : f.head < n) (ht : f.tail < n) :
    (f.tail + f.occ n) % n = f.head := by
  have ho := Fifo.occ_eq hh ht
  have hlt := f.occ_lt (n := n) (by omega)
  rw [slot_eq ht (by omega)]
  split at ho <;> split <;> omega

/-- Two queued positions are different slots (R283). -/
theorem slot_ne {n t j k : Nat} (ht : t < n) (hj : j < n) (hk : k < n) (h : j ≠ k) : (t + j) % n ≠ (t + k) % n := by
  rw [slot_eq ht (by omega), slot_eq ht (by omega)]
  split <;> split <;> omega

/-- The FIFO is empty exactly when nothing is queued (R272). -/
theorem Fifo.empty_iff {n : Nat} {f : Fifo} (hh : f.head < n) (ht : f.tail < n) :
    f.empty = true ↔ f.occ n = 0 := by
  have ho := Fifo.occ_eq hh ht
  simp only [Fifo.empty, beq_iff_eq]
  split at ho <;> omega

/-- The FIFO is full exactly when N - 1 bytes are queued (R272). -/
theorem Fifo.full_iff {n : Nat} {f : Fifo} : f.full n = true ↔ f.occ n = n - 1 := by simp [Fifo.full]

/-- All a push can do (R275): a full FIFO only marks the overflow; else the byte is in the slot `FIFO_HEAD` names, and
`FIFO_HEAD` advances. -/
theorem Fifo.push_spec {n : Nat} {b : Byte} {f f' : Fifo} {ok : Bool} (h : f.push n b = .ok (ok, f')) :
    (ok = false ∧ f.full n = true ∧ f' = { f with ovf := true })
    ∨ (ok = true ∧ f.full n = false ∧ f.head < n
        ∧ f' = { f with mem := f.mem.put f.head b, head := nextIndex n f.head }) := by
  unfold Fifo.push at h
  split at h
  · rename_i hf
    simp only [Except.ok.injEq, Prod.mk.injEq] at h
    exact .inl ⟨h.1.symm, hf, h.2.symm⟩
  · rename_i hf
    split at h
    · cases h
    · rename_i mem hm
      obtain ⟨hi, rfl⟩ := Memory.store_eq_some.mp hm
      simp only [Except.ok.injEq, Prod.mk.injEq] at h
      exact .inr ⟨h.1.symm, by simpa using hf, hi, h.2.symm⟩

/-- A push to a FIFO with its head inside the ring never faults. -/
theorem Fifo.push_ok {n : Nat} (b : Byte) {f : Fifo} (hh : f.head < n) :
    f.push n b = if f.full n then .ok (false, { f with ovf := true })
      else .ok (true, { f with mem := f.mem.put f.head b, head := nextIndex n f.head }) := by
  unfold Fifo.push
  split
  · rfl
  · simp [Memory.store, hh]

/-- All a take can do (R277). -/
theorem Fifo.take_spec {n : Nat} {b : Byte} {f f' : Fifo} (h : f.take n = .ok (b, f')) :
    f.mem.load f.tail = some b ∧ f' = { f with tail := nextIndex n f.tail } := by
  unfold Fifo.take at h
  split at h
  · cases h
  · rename_i c hc
    simp only [Except.ok.injEq, Prod.mk.injEq] at h
    exact ⟨h.1 ▸ hc, h.2.symm⟩

/-- Under the invariant a take from a FIFO that is not empty never faults (R76). -/
theorem Fifo.take_ok {n : Nat} {f : Fifo} (hf : FifoInv n f) (he : f.empty = false) :
    ∃ b, f.mem.load f.tail = some b ∧ f.take n = .ok (b, { f with tail := nextIndex n f.tail }) := by
  obtain ⟨-, -, hh, ht, hq⟩ := hf
  have hpos : f.occ n ≠ 0 := fun h0 => by
    rw [(Fifo.empty_iff hh ht).mpr h0] at he
    cases he
  have := hq 0 (by omega)
  rw [Nat.add_zero, Nat.mod_eq_of_lt ht] at this
  obtain ⟨b, hb⟩ := Option.isSome_iff_exists.mp this
  exact ⟨b, hb, by simp [Fifo.take, hb]⟩

/-- One more byte is queued after a push that found a slot. -/
theorem Fifo.occ_push {n : Nat} {f : Fifo} (m : Memory) (hh : f.head < n) (ht : f.tail < n) (hf : f.full n = false) :
    Fifo.occ n { f with mem := m, head := nextIndex n f.head } = f.occ n + 1 := by
  have h1 := Fifo.occ_eq hh ht
  have hlt := f.occ_lt (n := n) (by omega)
  have hne : f.occ n ≠ n - 1 := fun e => by rw [Fifo.full_iff.mpr e] at hf; cases hf
  have hx := nextIndex_eq hh
  have h2 := Fifo.occ_eq (f := { f with mem := m, head := nextIndex n f.head }) (nextIndex_lt f.head (by omega)) ht
  simp only at h2
  rw [h2]
  split at h1 <;> split at hx <;> split <;> omega

/-- One byte fewer is queued after a take. -/
theorem Fifo.occ_take {n : Nat} {f : Fifo} (hh : f.head < n) (ht : f.tail < n) (he : f.empty = false) :
    Fifo.occ n { f with tail := nextIndex n f.tail } + 1 = f.occ n := by
  have h1 := Fifo.occ_eq hh ht
  have hne : f.head ≠ f.tail := by simpa [Fifo.empty] using he
  have hx := nextIndex_eq ht
  have h2 := Fifo.occ_eq (f := { f with tail := nextIndex n f.tail }) hh (nextIndex_lt f.tail (by omega))
  simp only at h2
  rw [h2]
  split at h1 <;> split at hx <;> split <;> omega

/-- The slots of the queue after its oldest byte is taken. -/
theorem slot_next {n t j : Nat} : (nextIndex n t + j) % n = (t + (j + 1)) % n := by
  unfold nextIndex
  rw [Nat.mod_add_mod]
  congr 1
  omega

/-- A push keeps the FIFO's invariant. -/
theorem Fifo.push_keeps_inv {n : Nat} {b : Byte} {f f' : Fifo} {ok : Bool} (hf : FifoInv n f)
    (h : f.push n b = .ok (ok, f')) : FifoInv n f' := by
  obtain ⟨hw, hin, hh, ht, hq⟩ := hf
  rcases Fifo.push_spec h with ⟨-, -, rfl⟩ | ⟨-, hfull, -, rfl⟩
  · exact ⟨hw, hin, hh, ht, hq⟩
  · refine ⟨Memory.put_wf _ _ hw, Memory.put_inside _ hh hin, nextIndex_lt _ (by omega), ht, fun j hj => ?_⟩
    rw [Fifo.occ_push _ hh ht hfull] at hj
    have hlt := f.occ_lt (n := n) (by omega)
    have hs := Fifo.head_eq_slot hh ht
    by_cases hlast : j = f.occ n
    · simp only [hlast, hs, Memory.load_put_same, Option.isSome_some]
    · have : (f.tail + j) % n ≠ f.head := hs ▸ slot_ne ht (by omega) hlt hlast
      simp only [Memory.load_put_other _ b this]
      exact hq j (by omega)

/-- A take keeps the FIFO's invariant. -/
theorem Fifo.take_keeps_inv {n : Nat} {b : Byte} {f f' : Fifo} (hf : FifoInv n f) (he : f.empty = false)
    (h : f.take n = .ok (b, f')) : FifoInv n f' := by
  obtain ⟨hw, hin, hh, ht, hq⟩ := hf
  obtain ⟨-, rfl⟩ := Fifo.take_spec h
  refine ⟨hw, hin, hh, nextIndex_lt _ (by omega), fun j hj => ?_⟩
  have ho := Fifo.occ_take hh ht he
  have hlt := f.occ_lt (n := n) (by omega)
  simp only at hj ⊢
  rw [slot_next]
  exact hq (j + 1) (by omega)

end Sys2Proof.Machine
end

