-- ==== Sys2Proof/Laws/Framer.lean ====
section
/-! SUPPORT. What the framer's and the reader's steps do, each in full (spec/41_framer.md, spec/42_fifo.md R279). -/

namespace Sys2Proof.Machine

/-- All a header byte can do (R237). -/
theorem Decoder.headerStep_spec (o : LenOrder) (b : Byte) (d : Decoder) :
    (d.hcnt = 0 ∧ d.headerStep o b = { d with hdr := d.hdr.set 0 b, hcnt := 1 })
    ∨ (d.hcnt = 1 ∧ d.headerStep o b = { d with hdr := d.hdr.set 1 b, hcnt := 2 })
    ∨ (d.hcnt = 2 ∧ len16 o d.hdr[1] b = 0
        ∧ d.headerStep o b = { d with hdr := d.hdr.set 2 b, hcnt := 0, len := 0, pendType := d.hdr[0], pendLen := 0, pend := true })
    ∨ (d.hcnt = 2 ∧ len16 o d.hdr[1] b ≠ 0
        ∧ d.headerStep o b = { d with hdr := d.hdr.set 2 b, hcnt := 0, len := len16 o d.hdr[1] b, phase := .pay, cnt := 0 }) := by
  unfold Decoder.headerStep
  split
  · exact .inl ⟨‹_›, rfl⟩
  · exact .inr (.inl ⟨‹_›, rfl⟩)
  · rename_i h
    right; right
    have h1 : (d.hdr.set 2 b)[1] = d.hdr[1] := by simp
    have h2 : (d.hdr.set 2 b)[2] = b := by simp
    have h0 : (d.hdr.set 2 b)[0] = d.hdr[0] := by simp
    by_cases hz : len16 o d.hdr[1] b = 0
    · refine .inl ⟨h, hz, ?_⟩
      simp only [Decoder.headerDone, h1, h2, h0, hz, if_true, Decoder.dispatch]
    · refine .inr ⟨h, hz, ?_⟩
      simp only [Decoder.headerDone, h1, h2, hz, if_false]

/-- All a payload byte can do (R238): its slot of the buffer is written; the last byte dispatches. -/
theorem Decoder.payloadStep_spec {b : Byte} {d d' : Decoder} (h : d.payloadStep b = .ok d') :
    d.cnt.toNat < decBufSize
    ∧ ((d.cnt + 1 = d.len ∧ d' = { d with buf := d.buf.put d.cnt.toNat b, cnt := d.cnt + 1, phase := .hdr, pendType := d.hdr[0], pendLen := d.len, pend := true })
      ∨ (d.cnt + 1 ≠ d.len ∧ d' = { d with buf := d.buf.put d.cnt.toNat b, cnt := d.cnt + 1 })) := by
  unfold Decoder.payloadStep at h
  split at h
  · cases h
  · rename_i buf hbuf
    obtain ⟨hi, rfl⟩ := Memory.store_eq_some.mp hbuf
    refine ⟨hi, ?_⟩
    simp only at h
    split at h
    · simp only [Except.ok.injEq] at h
      exact .inl ⟨‹_›, h.symm⟩
    · simp only [Except.ok.injEq] at h
      exact .inr ⟨‹_›, h.symm⟩

/-- A payload byte with a slot of the buffer due never faults. -/
theorem Decoder.payloadStep_ok (b : Byte) {d : Decoder} (h : d.cnt.toNat < decBufSize) :
    ∃ d', d.payloadStep b = .ok d' := by
  unfold Decoder.payloadStep
  simp only [Memory.store, h, if_true]
  split <;> exact ⟨_, rfl⟩

/-- All one byte can do to the decoder (R236). -/
theorem Decoder.feed_spec {o : LenOrder} {b : Byte} {d d' : Decoder} (h : d.feed o b = .ok d') :
    (d.phase = .hdr ∧ d' = d.headerStep o b) ∨ (d.phase = .pay ∧ d.payloadStep b = .ok d') := by
  unfold Decoder.feed at h
  split at h
  · simp only [Except.ok.injEq] at h
    exact .inl ⟨‹_›, h.symm⟩
  · exact .inr ⟨‹_›, h⟩

/-- All an iteration of FIFO_READ can do (R279): hold, reply, or take one byte. -/
theorem readStep_spec {op : ReadOp} {s t : State} (h : readStep op s = .next t) :
    (op.got = [] ∧ s.fifo.empty = true ∧ t = s)
    ∨ (¬ (op.got = [] ∧ s.fifo.empty = true) ∧ (op.got.length = op.n.toNat ∨ s.fifo.empty = true)
        ∧ t = State.reply { s with rd := none } .consumer
            (u16 s.params.lenOrder (BitVec.ofNat 16 op.got.length) ++ op.got))
    ∨ ∃ b fifo, s.fifo.empty = false ∧ op.got.length ≠ op.n.toNat ∧ s.fifo.take s.params.fifoDepth = .ok (b, fifo)
        ∧ t = { s with fifo := fifo, rd := some { op with got := op.got ++ [b] } } := by
  unfold readStep at h
  split at h
  · simp only [Host.Outcome.next.injEq] at h
    exact .inl ⟨(‹_› : _ ∧ _).1, (‹_› : _ ∧ _).2, h.symm⟩
  · rename_i h1
    split at h
    · rename_i h2
      simp only [Host.Outcome.next.injEq] at h
      exact .inr (.inl ⟨h1, h2, h.symm⟩)
    · rename_i h2
      have h2' := not_or.mp h2
      split at h
      · cases h
      · rename_i b fifo hf
        simp only [Host.Outcome.next.injEq] at h
        exact .inr (.inr ⟨b, fifo, by simpa using h2'.2, h2'.1, hf, h.symm⟩)

/-- All FRM_ENC's first step can do (R228, R229). -/
theorem encodeStart_spec {ty : Byte} {payload : List Byte} {s t : State} (h : encodeStart ty payload s = .next t) :
    (s.params.ovfPolicy = .atomic ∧ s.fifo.space s.params.fifoDepth < 3 + payload.length
      ∧ t = State.reply { s with fifo := { s.fifo with ovf := true } } .worker [0x01])
    ∨ ((s.params.ovfPolicy = .atomic → 3 + payload.length ≤ s.fifo.space s.params.fifoDepth)
      ∧ t = { s with enc := { busy := true, bytes := ser s.params.lenOrder ty payload, idx := 0 } }) := by
  unfold encodeStart at h
  simp only [length_ser] at h
  split at h
  · simp only [Host.Outcome.next.injEq] at h
    exact .inl ⟨(‹_› : _ ∧ _).1, (‹_› : _ ∧ _).2, h.symm⟩
  · rename_i h1
    simp only [Host.Outcome.next.injEq] at h
    exact .inr ⟨fun hp => by
      have := not_and.mp h1 hp
      omega, h.symm⟩

/-- All an encoder push step can do (R231). -/
theorem encodeStep_spec {s t : State} (h : encodeStep s = .next t) :
    ∃ b ok fifo, s.enc.bytes[s.enc.idx]? = some b ∧ s.fifo.push s.params.fifoDepth b = .ok (ok, fifo)
      ∧ ((ok = false ∧ t = State.reply { s with fifo := fifo, enc := { s.enc with busy := false } } .worker [0x01])
        ∨ (ok = true ∧ s.enc.idx + 1 = s.enc.bytes.length
            ∧ t = State.reply { s with fifo := fifo, enc := { s.enc with busy := false, idx := s.enc.idx + 1 } } .worker [0x00])
        ∨ (ok = true ∧ s.enc.idx + 1 ≠ s.enc.bytes.length
            ∧ t = { s with fifo := fifo, enc := { s.enc with idx := s.enc.idx + 1 } })) := by
  unfold encodeStep at h
  split at h
  · cases h
  · rename_i b hb
    split at h
    · cases h
    · rename_i fifo hp
      simp only [Host.Outcome.next.injEq] at h
      exact ⟨b, false, fifo, hb, hp, .inl ⟨rfl, h.symm⟩⟩
    · rename_i fifo hp
      split at h
      · simp only [Host.Outcome.next.injEq] at h
        exact ⟨b, true, fifo, hb, hp, .inr (.inl ⟨rfl, ‹_›, h.symm⟩)⟩
      · simp only [Host.Outcome.next.injEq] at h
        exact ⟨b, true, fifo, hb, hp, .inr (.inr ⟨rfl, ‹_›, h.symm⟩)⟩

/-- All a byte of WRITER's operation can do (R236, R243): hold, or be consumed. -/
theorem writeStep_spec {op : WriteOp} {s t : State} (h : writeStep op s = .next t) :
    (s.dec.pend = true ∧ t = s)
    ∨ ∃ b dec, s.dec.pend = false ∧ op.bytes[op.idx]? = some b ∧ s.dec.feed s.params.lenOrder b = .ok dec
        ∧ t = writeAdvance op { s with dec := dec } := by
  unfold writeStep at h
  split at h
  · simp only [Host.Outcome.next.injEq] at h
    exact .inl ⟨‹_›, h.symm⟩
  · rename_i hp
    split at h
    · cases h
    · rename_i b hb
      split at h
      · cases h
      · rename_i dec hd
        simp only [Host.Outcome.next.injEq] at h
        exact .inr ⟨b, dec, by simpa using hp, hb, hd, h.symm⟩

/-- All FRM_ACCEPT's step can do (R246): hold, or reply the pending message. -/
theorem acceptStep_spec {s t : State} (h : acceptStep s = .next t) :
    (s.dec.pend = false ∧ t = { s with sinkHeld := true })
    ∨ ∃ msg, s.dec.pend = true ∧ s.dec.message s.params.lenOrder = some msg
        ∧ t = State.reply { s with dec := { s.dec with pend := false }, sinkHeld := false } .sink msg := by
  unfold acceptStep at h
  split at h
  · split at h
    · cases h
    · rename_i msg hm
      simp only [Host.Outcome.next.injEq] at h
      exact .inr ⟨msg, ‹_›, hm, h.symm⟩
  · rename_i hp
    simp only [Host.Outcome.next.injEq] at h
    exact .inl ⟨by simpa using hp, h.symm⟩

/-- WRITER's operation after a byte, in full (R243). -/
theorem writeAdvance_spec (op : WriteOp) (s : State) :
    (op.idx + 1 = op.bytes.length ∧ op.replies = true
      ∧ writeAdvance op s = State.reply { s with wr := none } .writer
          (u16 s.params.lenOrder (BitVec.ofNat 16 op.bytes.length)))
    ∨ (op.idx + 1 = op.bytes.length ∧ op.replies = false ∧ writeAdvance op s = { s with wr := none })
    ∨ (op.idx + 1 ≠ op.bytes.length ∧ writeAdvance op s = { s with wr := some { op with idx := op.idx + 1 } }) := by
  unfold writeAdvance
  by_cases h : op.idx + 1 = op.bytes.length
  · cases hr : op.replies <;> simp [h]
  · simp [h]

end Sys2Proof.Machine
end

