-- ==== Sys2Proof/Laws/PerInstr.lean ====
section
/-! SUPPORT. A law of every instruction, one lemma per constructor: the length of a packet is the one its first bytes
announce (spec/30_encoding.md R100, R101). -/

namespace Sys2Proof.Laws

/-- The packet of a well-formed port operation has the length that the length column of R101 gives its first bytes; RF
frames and wire messages are no packets. -/
def PacketLength.Statement (i : Instr) : Prop :=
  ∀ (o : LenOrder) (bs : List Byte), i.wellFormed = true → encode o i = .port bs → packetLength o bs = some bs.length

/-- A count that fits in 16 bits is read back from its two bytes. -/
theorem PacketLength.count_read_back (o : LenOrder) {n : Nat} (h : n ≤ 65535) :
    ∃ x1 x2, u16 o (BitVec.ofNat 16 n) = [x1, x2] ∧ (len16 o x1 x2).toNat = n := by
  obtain ⟨x1, x2, h1, h2⟩ := u16_eq o (BitVec.ofNat 16 n)
  refine ⟨x1, x2, h1, ?_⟩
  rw [h2, BitVec.toNat_ofNat, Nat.mod_eq_of_lt (by omega)]

theorem PacketLength.reset : PacketLength.Statement .reset := by
  intro o bs _ h; cases h; rfl

theorem PacketLength.cancel : PacketLength.Statement .cancel := by
  intro o bs _ h; cases h; rfl

theorem PacketLength.acStart : PacketLength.Statement .acStart := by
  intro o bs _ h; cases h; rfl

theorem PacketLength.acRespTimeout : PacketLength.Statement .acRespTimeout := by
  intro o bs _ h; cases h; rfl

theorem PacketLength.acRespXerr : PacketLength.Statement .acRespXerr := by
  intro o bs _ h; cases h; rfl

theorem PacketLength.acRespFrame (nbits : Byte) (coll : Option (BitVec 6)) (data : List Byte) : PacketLength.Statement (.acRespFrame nbits coll data) := by
  intro o bs hw h
  simp only [Instr.wellFormed, Bool.and_eq_true, beq_iff_eq] at hw
  cases h
  simp [encodeFrame, packetLength, hw.2]
  omega

theorem PacketLength.acStatus : PacketLength.Statement .acStatus := by
  intro o bs _ h; cases h; rfl

theorem PacketLength.acDesc : PacketLength.Statement .acDesc := by
  intro o bs _ h; cases h; rfl

theorem PacketLength.fifoPush (b : Byte) : PacketLength.Statement (.fifoPush b) := by
  intro o bs _ h; cases h; rfl

theorem PacketLength.fifoPop : PacketLength.Statement .fifoPop := by
  intro o bs _ h; cases h; rfl

theorem PacketLength.fifoRead (n : U16) : PacketLength.Statement (.fifoRead n) := by
  intro o bs _ h
  cases h
  simp [packetLength]

theorem PacketLength.fifoAvail : PacketLength.Statement .fifoAvail := by
  intro o bs _ h; cases h; rfl

theorem PacketLength.fifoSpace : PacketLength.Statement .fifoSpace := by
  intro o bs _ h; cases h; rfl

theorem PacketLength.frmEnc (ty : Byte) (payload : List Byte) : PacketLength.Statement (.frmEnc ty payload) := by
  intro o bs hw h
  simp only [Instr.wellFormed, decide_eq_true_eq] at hw
  cases h
  obtain ⟨x1, x2, h1, h2⟩ := PacketLength.count_read_back o hw
  simp [packetLength, ser, h1, h2]
  omega

theorem PacketLength.frmDec (b : Byte) : PacketLength.Statement (.frmDec b) := by
  intro o bs _ h; cases h; rfl

theorem PacketLength.frmWrite (bytes : List Byte) : PacketLength.Statement (.frmWrite bytes) := by
  intro o bs hw h
  simp only [Instr.wellFormed, decide_eq_true_eq] at hw
  cases h
  obtain ⟨x1, x2, h1, h2⟩ := PacketLength.count_read_back o hw
  simp [packetLength, h1, h2]
  omega

theorem PacketLength.frmAccept : PacketLength.Statement .frmAccept := by
  intro o bs _ h; cases h; rfl

theorem PacketLength.acRespBytes (data : List Byte) : PacketLength.Statement (.acRespBytes data) := by
  intro o bs hw h
  simp only [Instr.wellFormed, Bool.and_eq_true, decide_eq_true_eq] at hw
  cases h
  have : dataBytes (BitVec.ofNat 8 (8 * data.length)) = data.length := by
    rw [dataBytes, BitVec.toNat_ofNat, Nat.mod_eq_of_lt (by omega)]
    omega
  simp [encodeFrame, packetLength, this]
  omega

theorem PacketLength.acRespColl (nbits : Byte) (c : BitVec 6) (data : List Byte) : PacketLength.Statement (.acRespColl nbits c data) := by
  intro o bs hw h
  simp only [Instr.wellFormed, beq_iff_eq] at hw
  cases h
  simp [encodeFrame, packetLength, hw]
  omega

theorem PacketLength.rfReqa : PacketLength.Statement .rfReqa := by
  intro o bs _ h; cases h

theorem PacketLength.rfAnticollCl1 (known : List Bool) : PacketLength.Statement (.rfAnticollCl1 known) := by
  intro o bs _ h; cases h

theorem PacketLength.rfSelectCl1 (cl : BitVec 40) : PacketLength.Statement (.rfSelectCl1 cl) := by
  intro o bs _ h; cases h

theorem PacketLength.rfAnticollCl2 (known : List Bool) : PacketLength.Statement (.rfAnticollCl2 known) := by
  intro o bs _ h; cases h

theorem PacketLength.rfSelectCl2 (cl : BitVec 40) : PacketLength.Statement (.rfSelectCl2 cl) := by
  intro o bs _ h; cases h

theorem PacketLength.rfAnticollCl3 (known : List Bool) : PacketLength.Statement (.rfAnticollCl3 known) := by
  intro o bs _ h; cases h

theorem PacketLength.rfSelectCl3 (cl : BitVec 40) : PacketLength.Statement (.rfSelectCl3 cl) := by
  intro o bs _ h; cases h

theorem PacketLength.msgIdentify (payload : List Byte) : PacketLength.Statement (.msgIdentify payload) := by
  intro o bs _ h; cases h

theorem PacketLength.msgIdentifyResp (payload : List Byte) : PacketLength.Statement (.msgIdentifyResp payload) := by
  intro o bs _ h; cases h

theorem PacketLength.msgIdle (payload : List Byte) : PacketLength.Statement (.msgIdle payload) := by
  intro o bs _ h; cases h

theorem PacketLength.msgIdleAck (payload : List Byte) : PacketLength.Statement (.msgIdleAck payload) := by
  intro o bs _ h; cases h

theorem PacketLength.msgDiscover (payload : List Byte) : PacketLength.Statement (.msgDiscover payload) := by
  intro o bs _ h; cases h

theorem PacketLength.msgDetectedTag (payload : List Byte) : PacketLength.Statement (.msgDetectedTag payload) := by
  intro o bs _ h; cases h

theorem PacketLength.msgSelect (payload : List Byte) : PacketLength.Statement (.msgSelect payload) := by
  intro o bs _ h; cases h

theorem PacketLength.msgSelectedTag (payload : List Byte) : PacketLength.Statement (.msgSelectedTag payload) := by
  intro o bs _ h; cases h

theorem PacketLength.msgTransceive (payload : List Byte) : PacketLength.Statement (.msgTransceive payload) := by
  intro o bs _ h; cases h

theorem PacketLength.msgTransceiveResp (payload : List Byte) : PacketLength.Statement (.msgTransceiveResp payload) := by
  intro o bs _ h; cases h

end Sys2Proof.Laws
end

