-- ==== Sys2Proof/Laws/Step.lean ====
section
/-! SUPPORT. What a step can do, said once: which agent stepped, and by which of the shared operations. -/

namespace Sys2Proof.Machine

/-- All taking a packet can do: the packet is the agent's first, and the others stay in their order. -/
theorem takePacket_spec {a : Agent} {ps rest : List Packet} {p : Packet} (h : takePacket a ps = some (p, rest)) :
    p.agent = a ∧ ∃ before after, ps = before ++ p :: after ∧ rest = before ++ after ∧ ∀ q ∈ before, q.agent ≠ a := by
  induction ps generalizing rest with
  | nil => cases h
  | cons q qs ih =>
    rw [takePacket] at h
    split at h
    · rename_i hq
      simp only [Option.some.injEq, Prod.mk.injEq] at h
      obtain ⟨rfl, rfl⟩ := h
      exact ⟨hq, [], _, rfl, rfl, by simp⟩
    · rename_i hq
      split at h
      · cases h
      · rename_i p' others hp
        simp only [Option.some.injEq, Prod.mk.injEq] at h
        obtain ⟨rfl, rfl⟩ := h
        obtain ⟨ha, before, after, rfl, rfl, hb⟩ := ih hp
        refine ⟨ha, q :: before, after, rfl, rfl, fun r hr => ?_⟩
        rcases List.mem_cons.mp hr with rfl | hr
        · exact hq
        · exact hb r hr

/-- All carrying wire bytes can do when it answers a next state: WRITER is to feed them, WORKER is to encode the message
they are, or they are refused. -/
theorem carryWire_spec {a : Agent} {bytes : List Byte} {s t : State} (h : carryWire a bytes s = .next t) :
    (a = .writer ∧ bytes = [] ∧ t = s)
    ∨ (a = .writer ∧ bytes ≠ [] ∧ t = { s with wr := some ⟨bytes, 0, false⟩ })
    ∨ (a = .worker ∧ ∃ ty payload, wholeMessage s.params.lenOrder bytes = some (ty, payload)
        ∧ encodeStart ty payload s = .next t)
    ∨ t = s.refuse a := by
  unfold carryWire at h
  split at h
  · split at h
    · simp only [Host.Outcome.next.injEq] at h; exact .inl ⟨rfl, ‹_›, h.symm⟩
    · simp only [writeStart, Host.Outcome.next.injEq] at h; exact .inr (.inl ⟨rfl, ‹_›, h.symm⟩)
  · split at h
    · cases h
    · exact .inr (.inr (.inl ⟨rfl, _, _, ‹_›, h⟩))
  all_goals simp only [Host.Outcome.next.injEq] at h; exact .inr (.inr (.inr h.symm))

/-- All words that are no instruction of the agent's own can do. -/
theorem otherWords_spec {p : Packet} {s t : State} (h : otherWords p s = .next t) :
    t = s.refuse p.agent ∨ ∃ bytes, p.words = .wire bytes ∧ carryWire p.agent bytes s = .next t := by
  unfold otherWords at h
  split at h
  · exact .inr ⟨_, ‹_›, h⟩
  all_goals simp only [Host.Outcome.next.injEq] at h; exact .inl h.symm

/-- All issuing a packet can do when it answers a next state: an instruction of the agent's own runs, the packet is refused
as R318 says, or its wire bytes are carried (R122). -/
theorem issue_spec {p : Packet} {s t : State} (h : issue p s = .next t) :
    (∃ i, decode s.params.lenOrder p.words = .ok i ∧ agentOf i = p.agent ∧ exec i s = .next t)
    ∨ t = s.refuse p.agent
    ∨ ∃ bytes, p.words = .wire bytes ∧ carryWire p.agent bytes s = .next t := by
  unfold issue at h
  split at h
  · rename_i e he
    right
    cases e <;> simp only [rejectWords, Host.Outcome.next.injEq, reduceCtorEq] at h
    · exact .inl h.symm
    · exact .inl h.symm
    · exact otherWords_spec h
  · rename_i i hi
    split at h
    · exact .inl ⟨i, hi, ‹_›, h⟩
    · exact .inr (otherWords_spec h)

/-- The operation in progress of each agent goes on by its own step (R231, R243, R246, R279). -/
theorem continueOp_spec {a : Agent} {s t : State} (h : continueOp a s = .next t) :
    t = s
    ∨ (a = .worker ∧ s.enc.busy = true ∧ encodeStep s = .next t)
    ∨ (a = .consumer ∧ ∃ op, s.rd = some op ∧ readStep op s = .next t)
    ∨ (a = .writer ∧ ∃ op, s.wr = some op ∧ writeStep op s = .next t)
    ∨ (a = .sink ∧ s.sinkHeld = true ∧ acceptStep s = .next t) := by
  cases a with
  | worker =>
    simp only [continueOp] at h
    split at h
    · exact .inr (.inl ⟨rfl, ‹_›, h⟩)
    · simp only [Host.Outcome.next.injEq] at h; exact .inl h.symm
  | consumer =>
    simp only [continueOp] at h
    split at h
    · simp only [Host.Outcome.next.injEq] at h; exact .inl h.symm
    · exact .inr (.inr (.inl ⟨rfl, _, ‹_›, h⟩))
  | writer =>
    simp only [continueOp] at h
    split at h
    · simp only [Host.Outcome.next.injEq] at h; exact .inl h.symm
    · exact .inr (.inr (.inr (.inl ⟨rfl, _, ‹_›, h⟩)))
  | sink =>
    simp only [continueOp] at h
    split at h
    · exact .inr (.inr (.inr (.inr ⟨rfl, ‹_›, h⟩)))
    · simp only [Host.Outcome.next.injEq] at h; exact .inl h.symm
  | transport => simp only [continueOp, Host.Outcome.next.injEq] at h; exact .inl h.symm
  | host => simp only [continueOp, Host.Outcome.next.injEq] at h; exact .inl h.symm

/-- All a step can do when it answers a next state: no agent is due and nothing happens; or agent `a` is due, and it takes
no step, goes on with its operation, has a packet refused, runs an instruction of its own, or carries wire bytes. -/
theorem step_spec {s t : State} (h : step s = .next t) :
    (s.sched = [] ∧ t = s)
    ∨ ∃ a rest, s.sched = a :: rest
        ∧ (t = { s with sched := rest }
          ∨ (a ∉ s.halted ∧ s.busy a = true ∧ continueOp a { s with sched := rest } = .next t)
          ∨ ∃ p others, a ∉ s.halted ∧ s.busy a = false ∧ takePacket a s.pending = some (p, others) ∧ p.agent = a
              ∧ (t = State.refuse { s with sched := rest, pending := others } a
                ∨ (∃ i, decode s.params.lenOrder p.words = .ok i ∧ agentOf i = a
                    ∧ exec i { s with sched := rest, pending := others } = .next t)
                ∨ ∃ bytes, p.words = .wire bytes
                    ∧ carryWire a bytes { s with sched := rest, pending := others } = .next t)) := by
  unfold step at h
  split at h
  · simp only [Host.Outcome.next.injEq] at h
    exact .inl ⟨‹_›, h.symm⟩
  · rename_i a rest hs
    right
    refine ⟨a, rest, hs, ?_⟩
    unfold agentStep at h
    split at h
    · simp only [Host.Outcome.next.injEq] at h
      exact .inl h.symm
    · rename_i hh
      have hbusy : State.busy { s with sched := rest } a = s.busy a := by cases a <;> rfl
      split at h
      · rename_i hb
        exact .inr (.inl ⟨hh, hbusy ▸ hb, h⟩)
      · rename_i hb
        split at h
        · simp only [Host.Outcome.next.injEq] at h
          exact .inl h.symm
        · rename_i p others hp
          have hpa := (takePacket_spec hp).1
          refine .inr (.inr ⟨p, others, hh, by simpa [hbusy] using hb, hp, hpa, ?_⟩)
          rcases issue_spec h with ⟨i, hi, ha, he⟩ | ht | ⟨bytes, hw, ht⟩
          · exact .inr (.inl ⟨i, hi, ha.trans hpa, he⟩)
          · exact .inl (hpa ▸ ht)
          · exact .inr (.inr ⟨bytes, hw, hpa ▸ ht⟩)

/-- A run begins with one step. -/
theorem runFor_succ {k : Nat} {s t : State} (h : step s = .next t) : runFor (k + 1) s = runFor k t := by
  simp only [runFor, h]

/-- The run of any machine begins with one step. -/
theorem core_run_of_next {M : Host.Core} {k : Nat} {s t : M.State} (h : M.step s = .next t) :
    M.run (k + 1) s = M.run k t := by simp [Host.Core.run, h]

theorem core_run_of_fault {M : Host.Core} {k : Nat} {s : M.State} {f : M.Fault} (h : M.step s = .fault f) :
    M.run (k + 1) s = .fault f := by simp [Host.Core.run, h]

theorem core_run_of_refused {M : Host.Core} {k : Nat} {s : M.State} {r : M.Refusal} (h : M.step s = .refused r) :
    M.run (k + 1) s = .refused r := by simp [Host.Core.run, h]

/-- `runFor` is the run of the machine behind the host's interface. -/
theorem runFor_eq_core_run (k : Nat) (s : State) : runFor k s = Sys2Proof.core.run k s := by
  induction k generalizing s with
  | zero => rfl
  | succ k ih =>
    cases h : step s with
    | next t => exact (runFor_succ h).trans ((ih t).trans (core_run_of_next (M := Sys2Proof.core) h).symm)
    | fault f =>
      exact Eq.trans (by simp only [runFor, h]; rfl) (core_run_of_fault (M := Sys2Proof.core) (k := k) h).symm
    | refused r =>
      exact Eq.trans (by simp only [runFor, h]; rfl) (core_run_of_refused (M := Sys2Proof.core) (k := k) h).symm

end Sys2Proof.Machine
end

