-- ==== Sys2Proof/Tests/Slice0.lean ====
section
/-! SUPPORT. The model's own checks: ill-formed terms refused, a written-out word for every row of the opcode table, one step
of every instruction on values the spec's own examples give, and for every statement with hypotheses a state and operands that
meet them. -/

namespace Sys2Proof.Tests

open Sys2Proof Sys2Proof.Machine

/-! ### Small states -/

/-- The state a next outcome holds. -/
def nextOf : Out → Option State
  | .next t => some t
  | .fault _ => none
  | .refused _ => none

/-- What the next state holds in one place. -/
def after {α : Type} (f : State → α) (o : Out) : Option α := (nextOf o).map f

/-- The reset state, N = 8, LE, ATOMIC, COLL_BIT = 1. -/
def s0 : State := State.reset

/-- In WAIT_ATQA. -/
def sAtqa : State := { s0 with ac := s0.ac.start }

/-- In WAIT_AC at level 1 with `k` known bits of `cl`. -/
def sAc (k : Nat) (cl : BitVec 40) : State :=
  { s0 with ac := { s0.ac with state := .waitAc, known := k, cl := cl } }

/-- In WAIT_SAK at level `l` with `n` UID bytes assembled. -/
def sSak (l : Level) (n : Nat) (cl : BitVec 40) : State :=
  { s0 with ac := { s0.ac with state := .waitSak, level := l, known := 40, cl := cl, uidLen := n } }

/-- After the 7-byte run of spec/40_anticollision.md R171's example. -/
def sOk : State :=
  { s0 with ac := { s0.ac with
      level := .two, known := 40, cl := 0x04F6E5D4C3, uid := #v[0x04, 0xA1, 0xB2, 0xC3, 0xD4, 0xE5, 0xF6, 0, 0, 0],
      uidLen := 7, atqa := #v[0x44, 0x00], sak := 0x00, result := .ok } }

/-- With three bytes queued. -/
def sQueued : State := { s0 with fifo := { s0.fifo with mem := [(0, 0x03), (1, 0x00), (2, 0x00)], head := 3 } }

/-- With N - 1 = 7 bytes queued: full. -/
def sFull : State :=
  { s0 with fifo := { s0.fifo with
      mem := [(0, 0x11), (1, 0x12), (2, 0x13), (3, 0x14), (4, 0x15), (5, 0x16), (6, 0x17)], head := 7 } }

/-- With the message (2, []) pending. -/
def sPend : State := { s0 with dec := { s0.dec with hdr := #v[0x02, 0, 0], pend := true, pendType := 0x02 } }

/-- With the message (9, [0x07]) pending. -/
def sPend1 : State :=
  { s0 with dec := { s0.dec with hdr := #v[0x09, 1, 0], len := 1, cnt := 1, buf := [(0, 0x07)], pend := true, pendType := 0x09,
                                 pendLen := 1 } }

/-- In the payload phase, one byte of two accumulated. -/
def sPay : State := { s0 with dec := { s0.dec with phase := .pay, hdr := #v[0x09, 2, 0], len := 2, cnt := 1, buf := [(0, 0x07)] } }

/-- WORKER has a message of three bytes to push. -/
def sEnc : State := { s0 with enc := { busy := true, bytes := [0x03, 0x00, 0x00], idx := 0 } }

/-- CONSUMER reads ten bytes of the three queued. -/
def sRead : State := { sQueued with rd := some ⟨10, []⟩ }

/-- WRITER feeds the three bytes of (2, []). -/
def sWrite : State := { s0 with wr := some ⟨[0x02, 0x00, 0x00], 0, true⟩ }

/-- `s`, agent `a` being offered the next step. -/
def turn (a : Agent) (s : State) : State := { s with sched := [a] }

/-- `s`, agent `a` being about to issue `w`. -/
def sends (a : Agent) (w : Words) (s : State) : State := { s with sched := [a], pending := [⟨a, w⟩] }

/-! ### WellFormed refuses each ill-formed term -/

theorem smoke_frame_missing_data : (Instr.acRespFrame 9 none [0x00]).wellFormed = false := by decide
theorem smoke_frame_collision_has_its_name : (Instr.acRespFrame 9 (some 0) [0x00, 0x00]).wellFormed = false := by decide
theorem smoke_frame_whole_bytes_have_their_name : (Instr.acRespFrame 8 none [0x00]).wellFormed = false := by decide
theorem smoke_bytes_none : (Instr.acRespBytes []).wellFormed = false := by decide
theorem smoke_bytes_too_many : (Instr.acRespBytes (List.replicate 32 0)).wellFormed = false := by decide
theorem smoke_coll_missing_data : (Instr.acRespColl 40 24 [0x01]).wellFormed = false := by decide
theorem smoke_anticoll_too_many :
    (Instr.rfAnticollCl1 (List.replicate 40 true)).wellFormed = false
    ∧ (Instr.rfAnticollCl2 (List.replicate 40 true)).wellFormed = false
    ∧ (Instr.rfAnticollCl3 (List.replicate 40 true)).wellFormed = false := by decide
theorem smoke_lengths_beyond_u16 (p : List Byte) (h : p.length = 65536) :
    ∀ i ∈ [Instr.frmEnc 0 p, .frmWrite p, .msgIdentify p, .msgIdentifyResp p, .msgIdle p, .msgIdleAck p, .msgDiscover p,
      .msgDetectedTag p, .msgSelect p, .msgSelectedTag p, .msgTransceive p, .msgTransceiveResp p], i.wellFormed = false := by
  simp [Instr.wellFormed, h]

/-! ### A word for every row (R101, R103, R104, R110 to R114, R120, R123) -/

theorem word_reset : decode .le (.port [0x01]) = .ok .reset := by decide
theorem word_cancel : decode .le (.port [0x02]) = .ok .cancel := by decide
theorem word_acStart : decode .le (.port [0x10]) = .ok .acStart := by decide
theorem word_acRespTimeout : decode .le (.port [0x11]) = .ok .acRespTimeout := by decide
theorem word_acRespXerr : decode .le (.port [0x12]) = .ok .acRespXerr := by decide
theorem word_acRespFrame :
    decode .le (.port [0x13, 0x0F, 0x00, 0x82, 0x02]) = .ok (.acRespFrame 15 none [0x82, 0x02]) := by decide
theorem word_acRespFrame_empty : decode .le (.port [0x13, 0x00, 0x00]) = .ok (.acRespFrame 0 none []) := by decide
theorem word_acRespBytes : decode .le (.port [0x13, 0x10, 0x00, 0x44, 0x00]) = .ok (.acRespBytes [0x44, 0x00]) := by decide
theorem word_acRespColl :
    decode .le (.port [0x13, 0x28, 0x98, 0x01, 0x02, 0x03, 0x05, 0x05])
      = .ok (.acRespColl 40 24 [0x01, 0x02, 0x03, 0x05, 0x05]) := by decide
theorem word_acStatus : decode .le (.port [0x14]) = .ok .acStatus := by decide
theorem word_acDesc : decode .le (.port [0x15]) = .ok .acDesc := by decide
theorem word_fifoPush : decode .le (.port [0x20, 0x41]) = .ok (.fifoPush 0x41) := by decide
theorem word_fifoPop : decode .le (.port [0x21]) = .ok .fifoPop := by decide
theorem word_fifoRead : decode .le (.port [0x22, 0x0A, 0x01]) = .ok (.fifoRead 266) := by decide
theorem word_fifoRead_be : decode .be (.port [0x22, 0x0A, 0x01]) = .ok (.fifoRead 2561) := by decide
theorem word_fifoAvail : decode .le (.port [0x23]) = .ok .fifoAvail := by decide
theorem word_fifoSpace : decode .le (.port [0x24]) = .ok .fifoSpace := by decide
theorem word_frmEnc : decode .le (.port [0x30, 0x09, 0x02, 0x00, 0xAA, 0xBB]) = .ok (.frmEnc 0x09 [0xAA, 0xBB]) := by decide
theorem word_frmDec : decode .le (.port [0x31, 0x7F]) = .ok (.frmDec 0x7F) := by decide
theorem word_frmWrite : decode .be (.port [0x32, 0x00, 0x02, 0x00, 0x01]) = .ok (.frmWrite [0x00, 0x01]) := by decide
theorem word_frmAccept : decode .le (.port [0x33]) = .ok .frmAccept := by decide
theorem word_rfReqa : decode .le (.rf [false, true, true, false, false, true, false]) = .ok .rfReqa := by decide
/-- [0x93, 0x20], least significant bits first. -/
theorem word_rfAnticollCl1 :
    decode .le (.rf [true, true, false, false, true, false, false, true, false, false, false, false, false, true, false, false])
      = .ok (.rfAnticollCl1 []) := by decide
/-- [0x95, 0x23] and three known bits. -/
theorem word_rfAnticollCl2 :
    decode .le (.rf [true, false, true, false, true, false, false, true, true, true, false, false, false, true, false, false,
        true, false, true])
      = .ok (.rfAnticollCl2 [true, false, true]) := by decide
/-- [0x97, 0x30] and one known byte, 0x81. -/
theorem word_rfAnticollCl3 :
    decode .le (.rf [true, true, true, false, true, false, false, true, false, false, false, false, true, true, false, false,
        true, false, false, false, false, false, false, true])
      = .ok (.rfAnticollCl3 [true, false, false, false, false, false, false, true]) := by decide
theorem word_rfSelectCl1 :
    decode .le (.rf (bytesToBitsLSB [0x93, 0x70, 0x01, 0x02, 0x03, 0x04, 0x04])) = .ok (.rfSelectCl1 0x0404030201) := by decide
theorem word_rfSelectCl2 :
    decode .le (.rf (bytesToBitsLSB [0x95, 0x70, 0xC3, 0xD4, 0xE5, 0xF6, 0x04])) = .ok (.rfSelectCl2 0x04F6E5D4C3) := by decide
theorem word_rfSelectCl3 :
    decode .le (.rf (bytesToBitsLSB [0x97, 0x70, 0x80, 0x00, 0x00, 0x00, 0x80])) = .ok (.rfSelectCl3 0x8000000080) := by decide
theorem word_msgIdentify : decode .le (.wire [0x00, 0x00, 0x00]) = .ok (.msgIdentify []) := by decide
theorem word_msgIdentifyResp : decode .le (.wire [0x01, 0x01, 0x00, 0x53]) = .ok (.msgIdentifyResp [0x53]) := by decide
theorem word_msgIdle : decode .le (.wire [0x02, 0x00, 0x00]) = .ok (.msgIdle []) := by decide
theorem word_msgIdleAck : decode .le (.wire [0x03, 0x00, 0x00]) = .ok (.msgIdleAck []) := by decide
theorem word_msgDiscover :
    decode .le (.wire [0x04, 0x0F, 0x00, 1, 2, 3, 4, 5, 6, 7, 8, 9, 10, 11, 12, 13, 14, 15])
      = .ok (.msgDiscover [1, 2, 3, 4, 5, 6, 7, 8, 9, 10, 11, 12, 13, 14, 15]) := by decide
theorem word_msgDetectedTag : decode .be (.wire [0x05, 0x00, 0x01, 0x01]) = .ok (.msgDetectedTag [0x01]) := by decide
theorem word_msgSelect : decode .le (.wire [0x06, 0x01, 0x00, 0x01]) = .ok (.msgSelect [0x01]) := by decide
theorem word_msgSelectedTag : decode .le (.wire [0x07, 0x01, 0x00, 0x01]) = .ok (.msgSelectedTag [0x01]) := by decide
theorem word_msgTransceive : decode .le (.wire [0x08, 0x03, 0x00, 0, 0, 0]) = .ok (.msgTransceive [0, 0, 0]) := by decide
theorem word_msgTransceiveResp : decode .le (.wire [0x09, 0x03, 0x00, 0, 0, 1]) = .ok (.msgTransceiveResp [0, 0, 1]) := by decide

/-! Reserved and malformed words (R100, R103, R105, R112, R120). -/

theorem word_reserved_cmd : ∀ c ∈ [(0x00 : Byte), 0x03, 0x0F, 0x16, 0x1F, 0x25, 0x2F, 0x34, 0xFF],
    decode .le (.port [c]) = .error .reservedCmd := by decide
theorem word_reserved_coll : ∀ c ∈ [(0xC0 : Byte), 0xFF, 0x01, 0x40, 0x7F],
    decode .le (.port [0x13, 0x00, c]) = .error .reservedColl := by decide
theorem word_short_packet : decode .le (.port [0x30, 0x09, 0x02, 0x00, 0xAA]) = .error .malformedPacket := by decide
theorem word_long_packet : decode .le (.port [0x21, 0x21]) = .error .malformedPacket := by decide
theorem word_wrong_nvb : decode .le (.rf (bytesToBitsLSB [0x93, 0x21])) = .error .noSuchFrame := by decide
theorem word_unassigned_type : decode .le (.wire [0x0A, 0x00, 0x00]) = .error .uncatalogued
    ∧ wholeMessage .le [0x0A, 0x01, 0x00, 0x55] = some (0x0A, [0x55]) := by decide

/-! ### One step of each instruction -/

/-- R340's example. -/
theorem step_reset : after (fun t => (t.ac.state, t.fifo.head, t.fifo.tail, t.dec.phase)) (exec .reset { sFull with dec := sPay.dec })
    = some (.idle, 0, 0, .hdr) := by decide
/-- R341: in IDLE nothing, else the mark. -/
theorem step_cancel : after (fun t => t.ac.cancel) (exec .cancel s0) = some false
    ∧ after (fun t => t.ac.cancel) (exec .cancel sAtqa) = some true := by decide
/-- R150's example. -/
theorem step_acStart : after (fun t => (t.ac.state, acTx t.ac)) (exec .acStart s0)
    = some (.waitAtqa, some [false, true, true, false, false, true, false]) := by decide
/-- R158's example, and a timeout in WAIT_AC. -/
theorem step_acRespTimeout : after (fun t => t.ac.result.code) (exec .acRespTimeout sAtqa) = some 0x02
    ∧ after (fun t => t.ac.result.code) (exec .acRespTimeout (sAc 0 0)) = some 0x20 := by decide
/-- R157's example. -/
theorem step_acRespXerr : after (fun t => (t.ac.result.code, t.ac.state)) (exec .acRespXerr (sSak .one 0 0))
    = some (0x10, .idle) := by decide
/-- R162: a short response without a collision. -/
theorem step_acRespFrame : after (fun t => t.ac.result.code) (exec (.acRespFrame 39 none [1, 2, 3, 4, 4]) (sAc 0 0))
    = some 0x21 := by decide
/-- R163's example. -/
theorem step_acRespBytes :
    after (fun t => (t.ac.cl, t.ac.known, t.ac.state)) (exec (.acRespBytes [0x01, 0x02, 0x03, 0x04, 0x04]) (sAc 0 0))
      = some (0x0404030201, 40, .waitSak) := by decide
/-- R165's example: a wrong check byte. -/
theorem step_acRespBytes_bcc :
    after (fun t => (t.ac.result.code, t.ac.state)) (exec (.acRespBytes [0x01, 0x02, 0x03, 0x04, 0x05]) (sAc 0 0))
      = some (0x23, .idle) := by decide
/-- R164's example. -/
theorem step_acRespColl :
    after (fun t => (t.ac.cl, t.ac.known, t.ac.state)) (exec (.acRespColl 40 24 [0x01, 0x02, 0x03, 0x05, 0x05]) (sAc 0 0))
      = some (0x0001030201, 25, .waitAc) := by decide
/-- R170's example: the cascade tag is stripped. -/
theorem step_sak_cascade :
    after (fun t => (t.ac.uid.toList.take 3, t.ac.uidLen, t.ac.level, t.ac.state))
        (exec (.acRespBytes [0x04]) (sSak .one 0 0x9FB2A10488))
      = some ([0x04, 0xA1, 0xB2], 3, .two, .waitAc) := by decide
/-- R175's example. -/
theorem step_acStatus : after (fun t => t.replies) (exec .acStatus sOk) = some [⟨.worker, [0x00, 0x01]⟩] := by decide
/-- R176's example. -/
theorem step_acDesc : after (fun t => t.replies) (exec .acDesc sOk)
    = some [⟨.worker, [0x00, 0x44, 0x00, 0x00, 0x01, 0x07, 0x04, 0xA1, 0xB2, 0xC3, 0xD4, 0xE5, 0xF6]⟩] := by decide
/-- R275's example, and the full FIFO. -/
theorem step_fifoPush :
    after (fun t => (t.fifo.mem, t.fifo.head, t.replies)) (exec (.fifoPush 0x41) s0)
      = some ([(0, 0x41)], 1, [⟨.worker, [0x00]⟩])
    ∧ after (fun t => (t.fifo, t.replies)) (exec (.fifoPush 0x41) sFull)
      = some ({ sFull.fifo with ovf := true }, [⟨.worker, [0x01]⟩]) := by decide
/-- R277: the oldest byte, and EMPTY. -/
theorem step_fifoPop : after (fun t => (t.fifo.tail, t.replies)) (exec .fifoPop sQueued) = some (1, [⟨.consumer, [0x00, 0x03]⟩])
    ∧ after (fun t => t.replies) (exec .fifoPop s0) = some [⟨.consumer, [0x01]⟩] := by decide
/-- R279. -/
theorem step_fifoRead : after (fun t => t.rd) (exec (.fifoRead 10) sQueued) = some (some ⟨10, []⟩)
    ∧ after (fun t => t.replies) (exec (.fifoRead 0) s0) = some [⟨.consumer, [0x00, 0x00]⟩] := by decide
/-- R279's example: the last iteration. -/
theorem step_fifoRead_reply :
    after (fun t => t.replies) (step (turn .consumer { s0 with rd := some ⟨10, [0x03, 0x00, 0x00]⟩ }))
      = some [⟨.consumer, [0x03, 0x00, 0x03, 0x00, 0x00]⟩] := by decide
/-- R280's example. -/
theorem step_fifoAvail : after (fun t => t.replies) (exec .fifoAvail sQueued) = some [⟨.consumer, [0x03, 0x00]⟩] := by decide
/-- R281's example. -/
theorem step_fifoSpace : after (fun t => t.replies) (exec .fifoSpace s0) = some [⟨.worker, [0x07, 0x00]⟩] := by decide
/-- R228's example, and a message that does not fit. -/
theorem step_frmEnc : after (fun t => t.enc.bytes) (exec (.frmEnc 3 []) s0) = some [0x03, 0x00, 0x00]
    ∧ after (fun t => (t.fifo.ovf, t.replies)) (exec (.frmEnc 3 [1, 2, 3, 4, 5]) s0) = some (true, [⟨.worker, [0x01]⟩]) := by decide
/-- R236's example: the third byte dispatches. -/
theorem step_frmDec :
    after (fun t => (t.dec.pend, t.dec.pendType, t.dec.hcnt))
        (exec (.frmDec 0x00) { s0 with dec := { s0.dec with hcnt := 2, hdr := #v[0x02, 0x00, 0x00] } })
      = some (true, 0x02, 0) := by decide
/-- R238: the last payload byte dispatches. -/
theorem step_frmDec_payload :
    after (fun t => (t.dec.pend, t.dec.buf, t.dec.phase)) (exec (.frmDec 0x08) sPay)
      = some (true, [(0, 0x07), (1, 0x08)], .hdr) := by decide
/-- R243. -/
theorem step_frmWrite : after (fun t => t.wr) (exec (.frmWrite [0x02]) s0) = some (some ⟨[0x02], 0, true⟩)
    ∧ after (fun t => t.replies) (exec (.frmWrite []) s0) = some [⟨.writer, [0x00, 0x00]⟩] := by decide
/-- R246's example. -/
theorem step_frmAccept : after (fun t => (t.replies, t.dec.pend)) (exec .frmAccept sPend)
    = some ([⟨.sink, [0x02, 0x00, 0x00]⟩], false) := by decide
theorem step_rfReqa : after (fun t => t.rfOut) (exec .rfReqa sAtqa) = some [[false, true, true, false, false, true, false]]
    ∧ after (fun t => t.rfOut) (exec .rfReqa s0) = some [] := by decide
theorem step_rfAnticoll :
    after (fun t => t.rfOut.length) (exec (.rfAnticollCl1 [true]) (sAc 1 1)) = some 1
    ∧ after (fun t => t.rfOut.length) (exec (.rfAnticollCl1 [false]) (sAc 1 1)) = some 0
    ∧ after (fun t => t.rfOut.length) (exec (.rfAnticollCl2 [true]) (sAc 1 1)) = some 0
    ∧ after (fun t => t.rfOut.length) (exec (.rfAnticollCl3 [true]) (sAc 1 1)) = some 0 := by decide
theorem step_rfSelect :
    after (fun t => t.rfOut.length) (exec (.rfSelectCl2 5) (sSak .two 3 5)) = some 1
    ∧ after (fun t => t.rfOut.length) (exec (.rfSelectCl1 5) (sSak .two 3 5)) = some 0
    ∧ after (fun t => t.rfOut.length) (exec (.rfSelectCl3 5) (sSak .two 3 5)) = some 0 := by decide
/-- A client's message goes to the decoder's side (R123, log entry 10). -/
theorem step_client_messages :
    after (fun t => t.wr) (exec (.msgIdentify []) s0) = some (some ⟨[0, 0, 0], 0, false⟩)
    ∧ after (fun t => t.wr) (exec (.msgIdle []) s0) = some (some ⟨[2, 0, 0], 0, false⟩)
    ∧ after (fun t => t.wr) (exec (.msgDiscover [7]) s0) = some (some ⟨[4, 1, 0, 7], 0, false⟩)
    ∧ after (fun t => t.wr) (exec (.msgSelect [7]) s0) = some (some ⟨[6, 1, 0, 7], 0, false⟩)
    ∧ after (fun t => t.wr) (exec (.msgTransceive [7]) s0) = some (some ⟨[8, 1, 0, 7], 0, false⟩) := by decide
/-- R122: a message of an unassigned type is carried, to the decoder and to the encoder. -/
theorem step_unassigned_type :
    after (fun t => t.wr) (step (sends .writer (.wire [0x0A, 1, 0, 7]) s0)) = some (some ⟨[0x0A, 1, 0, 7], 0, false⟩)
    ∧ after (fun t => t.enc.bytes) (step (sends .worker (.wire [0x0A, 1, 0, 7]) s0)) = some [0x0A, 1, 0, 7] := by decide
/-- A driver's message goes to the encoder (R123, log entry 10). -/
theorem step_driver_messages :
    after (fun t => t.enc.bytes) (exec (.msgIdentifyResp [7]) s0) = some [1, 1, 0, 7]
    ∧ after (fun t => t.enc.bytes) (exec (.msgIdleAck []) s0) = some [3, 0, 0]
    ∧ after (fun t => t.enc.bytes) (exec (.msgDetectedTag [7]) s0) = some [5, 1, 0, 7]
    ∧ after (fun t => t.enc.bytes) (exec (.msgSelectedTag [7]) s0) = some [7, 1, 0, 7]
    ∧ after (fun t => t.enc.bytes) (exec (.msgTransceiveResp [7]) s0) = some [9, 1, 0, 7] := by decide

/-! ### The hypotheses of the statements can be met -/

theorem witness_DecodeEncodeRoundTrip :
    (Instr.acRespFrame 255 none (List.replicate 32 0)).wellFormed = true
    ∧ (Instr.acRespBytes (List.replicate 31 0)).wellFormed = true
    ∧ (Instr.acRespColl 0 63 []).wellFormed = true
    ∧ (Instr.frmEnc 255 []).wellFormed = true
    ∧ (Instr.rfAnticollCl3 (List.replicate 39 true)).wellFormed = true
    ∧ (Instr.msgTransceive [0, 0, 0]).wellFormed = true := by decide
theorem witness_DecodedWordsEncodeBack :
    decode .be (.port [0x13, 0x09, 0x00, 0xFF, 0xFF]) = .ok (.acRespFrame 9 none [0xFF, 0xFF]) := by decide
theorem witness_DecoderReadsThePacketLength : decodePacket .le [0x20, 0x41, 0x33] = .ok (.fifoPush 0x41, [0x33]) := by decide
theorem witness_HeaderCarriesTheLength :
    ([] : List Byte).length ≤ 65535 ∧ (List.replicate 65535 (0 : Byte)).length ≤ 65535 :=
  ⟨by decide, Nat.le_of_eq List.length_replicate⟩
theorem witness_PayloadLayoutsReadBack :
    (∀ n ∈ [4, 7, 10], (List.replicate n (0x5A : Byte)).length = n)
    ∧ SelectRequest.ofPayload [0x01, 4, 1, 2, 3, 4] = some ⟨0x01, [1, 2, 3, 4]⟩ ∧ [(0 : Byte), 0, 0, 0, 0].length ≠ 4
    ∧ SelectRequest.ofPayload [0x01, 5, 1, 2, 3, 4, 5] = none
    ∧ (Transceive.mk 512 0 (List.replicate 512 0)).data.length ≤ 512
    ∧ (sSak .one 4 0).ac.uidLen = 4 ∧ (sSak .two 7 0).ac.uidLen = 7 ∧ (sSak .three 10 0).ac.uidLen = 10
    ∧ (List.replicate 255 (0 : Byte)).length ≤ 255 :=
  ⟨by decide, by decide, by decide, by decide, Nat.le_of_eq List.length_replicate, rfl, rfl, rfl, Nat.le_of_eq List.length_replicate⟩
theorem witness_CatalogueCheckTable : 0 ≤ 65535 ∧ 65535 ≤ 65535 := by decide
theorem witness_StepRunsTheDecodedInstruction :
    Issues (sends .worker (.port [0x10]) s0) ⟨.worker, .port [0x10]⟩ []
    ∧ decode s0.params.lenOrder (.port [0x10]) = .ok .acStart ∧ agentOf .acStart = .worker := by decide
theorem witness_TurnsWithoutAnIssue :
    (LiveTurn .worker (turn .worker sEnc) ∧ sEnc.busy .worker = true ∧ (nextOf (step (turn .worker sEnc))).isSome = true)
    ∧ s0.sched = []
    ∧ (Turn .host (turn .host (s0.refuse .host)) ∧ .host ∈ (s0.refuse .host).halted)
    ∧ (LiveTurn .sink (turn .sink s0) ∧ s0.busy .sink = false ∧ takePacket .sink s0.pending = none) := by decide
theorem witness_PacketTable :
    frameOperands (.acRespFrame 1 none [1]) = some (1, none, [1]) ∧ frameOperands (.acRespBytes [1]) = some (8, none, [1])
    ∧ frameOperands (.acRespColl 1 0 [1]) = some (1, some 0, [1]) := by decide
theorem witness_RefusalsOnlySetTheMark_cmd : ∀ c ∈ [(0x00 : Byte), 0x03, 0x0F, 0x16, 0x1F, 0x25, 0x2F, 0x34, 0xFF],
    Issues (sends .host (.port [c]) s0) ⟨.host, .port [c]⟩ []
    ∧ (c = 0 ∨ (0x03 ≤ c.toNat ∧ c.toNat ≤ 0x0F) ∨ (0x16 ≤ c.toNat ∧ c.toNat ≤ 0x1F)
        ∨ (0x25 ≤ c.toNat ∧ c.toNat ≤ 0x2F) ∨ 0x34 ≤ c.toNat) := by decide
theorem witness_RefusalsOnlySetTheMark_coll : ∀ c ∈ [(0xC0 : Byte), 0xFF, 0x01, 0x7F],
    Issues (sends .transport (.port [0x13, 0x00, c]) s0) ⟨.transport, .port [0x13, 0x00, c]⟩ []
    ∧ ((c.getLsbD 7 = true ∧ c.getLsbD 6 = true) ∨ (c.getLsbD 7 = false ∧ c ≠ 0)) := by decide
theorem witness_RefusalsOnlySetTheMark_agent :
    Issues (sends .sink (.port [0x21]) s0) ⟨.sink, .port [0x21]⟩ []
    ∧ decode s0.params.lenOrder (.port [0x21]) = .ok .fifoPop ∧ agentOf .fifoPop ≠ .sink := by decide
theorem witness_RefusalsOnlySetTheMark_state :
    sAtqa.ac.state ≠ .idle ∧ s0.ac.state = .idle
    ∧ (∀ i ∈ [Instr.acRespTimeout, .acRespXerr, .acRespFrame 0 none [], .acRespBytes [1], .acRespColl 1 0 [1]], isResponse i = true)
    ∧ Turn .sink (turn .sink (s0.refuse .sink)) ∧ .sink ∈ (turn .sink (s0.refuse .sink)).halted := by decide
theorem witness_ParametersAndMarkPersist :
    after (fun t => t.refused) (step (turn .worker { sEnc with refused := true, halted := [.host] })) = some true := by decide
theorem witness_FifoHasSingleWriters : Turn .writer (turn .writer sWrite) ∧ Turn .worker (turn .worker sEnc)
    ∧ (nextOf (step (turn .writer sWrite))).isSome = true ∧ (nextOf (step (turn .worker sEnc))).isSome = true
    ∧ after (fun t => t.fifo) (step (sends .host (.port [0x01]) sFull)) = some Fifo.reset := by decide
theorem witness_ArbiterHasOneOwner :
    after (fun t => decide (t.ac ≠ s0.ac)) (step (sends .worker (.port [0x10]) s0)) = some true
    ∧ after (fun t => decide (t.ac ≠ sAtqa.ac)) (step (sends .transport (.port [0x11]) sAtqa)) = some true
    ∧ after (fun t => decide (t.ac ≠ sAtqa.ac)) (step (sends .host (.port [0x02]) sAtqa)) = some true := by decide
theorem witness_DecoderIsHandedOver :
    after (fun t => decide (t.dec ≠ s0.dec)) (step (turn .writer sWrite)) = some true
    ∧ after (fun t => decide (t.dec ≠ sPend.dec)) (step (sends .sink (.port [0x33]) sPend)) = some true
    ∧ after (fun t => decide (t.dec ≠ sPend.dec)) (step (sends .host (.port [0x01]) sPend)) = some true := by decide
theorem witness_CancelMarksTheRun : s0.ac.state = .idle ∧ sAtqa.ac.state ≠ .idle := by decide
theorem witness_AcStartBeginsARun : s0.ac.state = .idle ∧ sAtqa.ac.state ≠ .idle := by decide
theorem witness_CancelledRunEnds : isResponse (.acRespColl 1 0 [1]) = true ∧ s0.ac.state = .idle
    ∧ after (fun t => decide (t.ac.state ≠ .idle ∧ t.ac.cancel = true)) (exec .cancel sAtqa) = some true := by decide
theorem witness_AnswersWithoutAFrameEndTheRun : ∀ s ∈ [sAtqa, sAc 39 0, sSak .three 6 0],
    s.ac.state ≠ .idle ∧ s.ac.cancel = false := by decide
theorem witness_AtqaFrameEntersLevelOne : ∀ i ∈ [Instr.acRespBytes [0x44, 0x00], .acRespColl 16 0 [0x44, 0x00],
      .acRespFrame 15 none [0x44, 0x00]],
    (frameOperands i).isSome = true ∧ sAtqa.ac.state = .waitAtqa ∧ sAtqa.ac.cancel = false := by decide
theorem witness_AnticollisionChecksInOrder :
    (∀ k ∈ [0, 39], (sAc k 0).ac.state = .waitAc ∧ (sAc k 0).ac.cancel = false ∧ (sAc k 0).ac.known ≤ 39)
    ∧ frameOperands (.acRespFrame 41 none [0, 0, 0, 0, 0, 0]) = some (41, none, [0, 0, 0, 0, 0, 0]) ∧ 41 > 40 - 0
    ∧ frameOperands (.acRespFrame 39 none [0, 0, 0, 0, 0]) = some (39, none, [0, 0, 0, 0, 0]) ∧ 39 ≠ 40 - 0
    ∧ frameOperands (.acRespColl 1 1 [0]) = some (1, some 1, [0]) ∧ 1 ≤ 40 - 39 := by decide
theorem witness_FullResponseCompletesTheLevel :
    (frameOperands (.acRespBytes [0x01, 0x02, 0x03, 0x04, 0x04]) = some (40, none, [0x01, 0x02, 0x03, 0x04, 0x04])
      ∧ (sAc 0 0).ac.known ≤ 39 ∧ (40 : Byte).toNat = 40 - (sAc 0 0).ac.known)
    ∧ (frameOperands (.acRespFrame 1 none [0x01]) = some (1, none, [0x01]) ∧ (1 : Byte).toNat = 40 - (sAc 39 0).ac.known)
    ∧ CheckByteHolds 0x0404030201 ∧ ¬ CheckByteHolds 0x0504030201 := by decide
theorem witness_CollisionFixesOneMoreBit :
    (frameOperands (.acRespColl 40 24 [1, 2, 3, 5, 5]) = some (40, some 24, [1, 2, 3, 5, 5]) ∧ 0 + 24 + 1 ≠ 40)
    ∧ (frameOperands (.acRespColl 1 0 [0]) = some (1, some 0, [0]) ∧ (sAc 39 0x0).ac.known + 0 + 1 = 40)
    ∧ after (fun t => t.ac.state) (exec (.acRespColl 1 0 [0]) (sAc 39 0)) = some .idle
    ∧ after (fun t => t.ac.state) (exec (.acRespColl 1 0 [0]) (sAc 39 0x80)) = some .waitSak := by decide
theorem witness_SakChecksInOrder : (sSak .one 0 0).ac.state = .waitSak ∧ (sSak .one 0 0).ac.cancel = false
    ∧ (7 : Byte) ≠ 8 ∧ frameOperands (.acRespColl 8 0 [0]) = some (8, some 0, [0]) := by decide
theorem witness_CascadingSakStripsTheTag :
    frameOperands (.acRespBytes [0x04]) = some (8, none, [0x04]) ∧ ([(0x04 : Byte)].getD 0 0).getLsbD 2 = true
    ∧ (sSak .three 6 0).ac.level = .three
    ∧ ((sSak .one 0 0).ac.level ≠ .three ∧ clByte (sSak .one 0 0).ac.cl 0 ≠ 0x88)
    ∧ ((sSak .one 0 0x88).ac.level = .one ∧ clByte (sSak .one 0 0x88).ac.cl 0 = 0x88 ∧ (sSak .one 0 0x88).ac.uidLen ≤ 7)
    ∧ ((sSak .two 3 0x88).ac.level = .two ∧ (sSak .two 7 0x88).ac.uidLen ≤ 7) := by decide
theorem witness_FinalSakEndsTheRunOk : frameOperands (.acRespBytes [0xFB]) = some (8, none, [0xFB])
    ∧ ([(0xFB : Byte)].getD 0 0).getLsbD 2 = false ∧ ∀ n ∈ [0, 3, 6], (sSak .one n 0).ac.uidLen ≤ 6 := by decide
theorem witness_OutstandingFrame : s0.ac.state = .idle ∧ sAtqa.ac.state = .waitAtqa
    ∧ (∀ k ∈ [0, 39], (sAc k 0).ac.state = .waitAc ∧ (sAc k 0).ac.known ≤ 39) ∧ (sSak .two 3 0).ac.state = .waitSak := by decide
theorem witness_OutstandingFrameIsTaken : sAtqa.ac.state = .waitAtqa
    ∧ (∀ l ∈ [Level.one, .two, .three], (sSak l 0 0).ac.state = .waitSak ∧ (sSak l 0 0).ac.level = l)
    ∧ (sAc 3 5).ac.state = .waitAc ∧ (sAc 3 5).ac.level = .one
    ∧ encode .le .rfReqa = .rf reqaBits ∧ acTx s0.ac ≠ some reqaBits := by decide
theorem witness_DescriptorReply : (sOk.ac.state = .idle ∧ sOk.ac.result = .ok) ∧ sAtqa.ac.state ≠ .idle ∧ s0.ac.result ≠ .ok := by
  decide
theorem witness_SelectOnlyAfterTheCheckByte :
    after (fun t => t.ac.state) (step (sends .transport (.port [0x13, 0x28, 0x00, 0x01, 0x02, 0x03, 0x04, 0x04]) (sAc 0 0)))
      = some .waitSak ∧ (sAc 0 0).ac.state ≠ .waitSak := by decide
/-- WAIT_SAK at level 1 with a right check byte. -/
def sSelected : State := sSak .one 0 0x0404030201
theorem witness_OkRunsHaveWholeUids :
    ArbiterInv sSelected.ac ∧ sSelected.ac.result ≠ .ok
    ∧ after (fun t => t.ac.result) (step (sends .transport (.port [0x13, 0x08, 0x00, 0x08]) sSelected)) = some .ok := by decide
theorem witness_AnticollisionProgress : isResponse (.acRespColl 40 0 [0, 0, 0, 0, 0]) = true ∧ (sAc 0 0).ac.state = .waitAc
    ∧ (sAc 39 0).ac.known ≤ 39 ∧ (nextOf (exec (.acRespColl 40 0 [0, 0, 0, 0, 0]) (sAc 0 0))).isSome = true := by decide
theorem witness_RunEndsWithin124Frames :
    s0.ac.state = .idle ∧ (List.replicate 124 (Response.frame [true] (some 0))).length = 124 :=
  ⟨by decide, List.length_replicate⟩
theorem witness_RunsForgetEarlierRuns : nextOf (exec .acStart s0) = some sAtqa ∧ sOk.ac.state = .idle ∧ s0.ac.state = .idle ∧ sOk.params.collBit = s0.params.collBit
    ∧ (nextOf (respondAll [.timeout] sAtqa)).isSome = true ∧ (nextOf (exec .acStart sOk)).isSome = true := by decide
theorem witness_OccupancyIsTheResidue : 2 ≤ 8 ∧ sFull.fifo.head < 8 ∧ sFull.fifo.tail < 8 ∧ 2 ≤ 2 ∧ 1 < 2 := by decide
theorem witness_PushQueuesOneByte : sFull.fifo.head < sFull.params.fifoDepth
    ∧ sFull.fifo.occ sFull.params.fifoDepth = sFull.params.fifoDepth - 1
    ∧ sQueued.fifo.head < sQueued.params.fifoDepth
    ∧ sQueued.fifo.occ sQueued.params.fifoDepth ≠ sQueued.params.fifoDepth - 1 := by decide
theorem witness_PopTakesTheOldestByte : s0.fifo.head = s0.fifo.tail ∧ sQueued.fifo.head ≠ sQueued.fifo.tail
    ∧ sQueued.fifo.mem.load sQueued.fifo.tail = some 0x03 := by decide
theorem witness_AvailAndSpaceReplies : s0.params.Legal ∧ { s0.params with fifoDepth := 65536 }.Legal
    ∧ { s0.params with fifoDepth := 2 }.Legal := by decide
theorem witness_ReadStepsAsStated : (1 : U16) ≠ 0 ∧ LiveTurn .consumer (turn .consumer sRead) ∧ sRead.rd = some ⟨10, []⟩
    ∧ sRead.fifo.head ≠ sRead.fifo.tail ∧ sRead.fifo.mem.load sRead.fifo.tail = some 0x03 ∧ ([] : List Byte).length ≠ (10 : U16).toNat
    ∧ (LiveTurn .consumer (turn .consumer { s0 with rd := some ⟨10, []⟩ }) ∧ s0.fifo.head = s0.fifo.tail)
    ∧ (LiveTurn .consumer (turn .consumer { s0 with rd := some ⟨10, [0x03]⟩ }) ∧ [(0x03 : Byte)] ≠ [])
    ∧ (LiveTurn .consumer (turn .consumer { sQueued with rd := some ⟨1, [0x03]⟩ })
      ∧ [(0x03 : Byte)].length = (1 : U16).toNat) := by decide
theorem witness_ReadDrainsTheQueue :
    FifoInv sRead.params.fifoDepth sRead.fifo ∧ sRead.params.Legal ∧ sRead.fifo.contents sRead.params.fifoDepth ≠ []
    ∧ .consumer ∉ sRead.halted ∧ sRead.rd = some ⟨10, []⟩
    ∧ (10 : U16) ≠ 0
    ∧ { sRead with sched := List.replicate 4 Agent.consumer }.sched
      = List.replicate (min (10 : U16).toNat (sRead.fifo.contents sRead.params.fifoDepth).length + 1) .consumer ++ [] := by
  decide
theorem witness_QueueKeepsPushOrder : s0.params.Legal ∧ FifoInv s0.params.fifoDepth s0.fifo
    ∧ FifoInv sFull.params.fifoDepth sFull.fifo := by decide
theorem witness_PushNeverOverwritesTheQueue : sQueued.fifo.head < 8 ∧ sQueued.fifo.tail < 8 ∧ sQueued.fifo.full 8 = false
    ∧ 2 < sQueued.fifo.occ 8 := by decide
theorem witness_OverflowFlagIsSticky :
    after (fun t => t.fifo.ovf) (step (turn .worker { sEnc with fifo := { s0.fifo with ovf := true } })) = some true
    ∧ after (fun t => t.fifo.ovf) (step (sends .host (.port [0x01]) { s0 with fifo := { s0.fifo with ovf := true } })) = some false := by
  decide
theorem witness_EncoderTakesWholeMessages :
    s0.params.ovfPolicy = .atomic ∧ s0.fifo.space s0.params.fifoDepth < 3 + [1, 2, 3, 4, 5].length
    ∧ 3 + [1, 2, 3, 4].length ≤ s0.fifo.space s0.params.fifoDepth
    ∧ { s0.params with ovfPolicy := .truncate }.ovfPolicy = .truncate := by decide
theorem witness_MessagesEnterTheBlock :
    (∀ i ∈ [Instr.frmEnc 1 [], .msgIdentifyResp [], .msgIdleAck [], .msgDetectedTag [], .msgSelectedTag [], .msgTransceiveResp []],
      (encoderOperands i).isSome = true)
    ∧ s0.params.ovfPolicy = .atomic ∧ sFull.fifo.space sFull.params.fifoDepth < 3 + ([] : List Byte).length
    ∧ 3 + ([] : List Byte).length ≤ s0.fifo.space s0.params.fifoDepth
    ∧ (∀ i ∈ [Instr.msgIdentify [], .msgIdle [], .msgDiscover [], .msgSelect [], .msgTransceive []],
      (clientOperands i).isSome = true)
    ∧ Issues (sends .writer (.wire [0x0A, 0x02]) s0) ⟨.writer, .wire [0x0A, 0x02]⟩ [] ∧ [(0x0A : Byte), 0x02] ≠ []
    ∧ Issues (sends .worker (.wire [0xFF, 0x00, 0x00]) s0) ⟨.worker, .wire [0xFF, 0x00, 0x00]⟩ []
    ∧ ser s0.params.lenOrder 0xFF [] = [0xFF, 0x00, 0x00] := by decide
theorem witness_EncoderPushSteps : LiveTurn .worker (turn .worker sEnc) ∧ sEnc.enc.busy = true
    ∧ sEnc.enc.bytes[sEnc.enc.idx]? = some 0x03 ∧ sEnc.fifo.head < sEnc.params.fifoDepth
    ∧ sEnc.fifo.full sEnc.params.fifoDepth = false ∧ sFull.fifo.full sFull.params.fifoDepth = true
    ∧ 2 + 1 = sEnc.enc.bytes.length ∧ sEnc.enc.idx + 1 ≠ sEnc.enc.bytes.length := by decide
theorem witness_EncoderQueuesTheWholeMessage : s0.params.Legal ∧ FifoInv sEnc.params.fifoDepth sEnc.fifo
    ∧ sEnc.enc = { busy := true, bytes := [0x03, 0x00, 0x00], idx := 0 } ∧ .worker ∉ sEnc.halted
    ∧ [0x03, 0x00, 0x00].length ≤ sEnc.fifo.space sEnc.params.fifoDepth ∧ [(0x03 : Byte), 0x00, 0x00] ≠ []
    ∧ { sEnc with sched := [.worker, .worker, .worker, .sink] }.sched
      = List.replicate [(0x03 : Byte), 0x00, 0x00].length .worker ++ [.sink] := by decide
theorem witness_AcceptedMessagesAlwaysFit : EncoderInv sEnc.enc ∧ AtomicRoom sEnc ∧ sEnc.params.ovfPolicy = .atomic
    ∧ sEnc.enc.busy = true ∧ FifoInv sEnc.params.fifoDepth sEnc.fifo
    ∧ (nextOf (step (turn .worker sEnc))).isSome = true := by decide
theorem witness_DecoderStepsAsStated : s0.dec.pend = false ∧ s0.dec.phase = .hdr ∧ s0.dec.hcnt = 0
    ∧ (∀ k ∈ [(1 : Fin 3), 2], { s0.dec with hcnt := k }.pend = false ∧ { s0.dec with hcnt := k }.hcnt = k)
    ∧ len16 .le 0 0 = 0 ∧ len16 .le 0xFF 0xFF ≠ 0
    ∧ sPay.dec.phase = .pay ∧ sPay.dec.cnt.toNat < 65535 ∧ sPay.dec.cnt.toNat + 1 = sPay.dec.len.toNat
    ∧ (65534 : U16).toNat < 65535 ∧ (65534 : U16).toNat + 1 = (65535 : U16).toNat := by decide
theorem witness_PendingMessageHoldsTheWriter : sPend.dec.pend = true
    ∧ (LiveTurn .writer (turn .writer { sPend with wr := sWrite.wr }) ∧ sWrite.wr ≠ none)
    ∧ LiveTurn .writer (turn .writer { s0 with wr := some ⟨[0x02], 0, false⟩ }) ∧ s0.dec.pend = false := by decide
theorem witness_WriterFeedsByteByByte : ([0x02] : List Byte) ≠ []
    ∧ LiveTurn .writer (turn .writer sWrite) ∧ [(0x02 : Byte), 0x00, 0x00][0]? = some 0x02
    ∧ (nextOf (exec (.frmDec 0x02) { handOver (turn .writer sWrite) with wr := none })).isSome = true
    ∧ 0 + 1 ≠ [(0x02 : Byte), 0x00, 0x00].length ∧ 2 + 1 = [(0x02 : Byte), 0x00, 0x00].length := by decide
theorem witness_AcceptRepliesTheMessage : sPend1.dec.pend = true
    ∧ sPend1.dec.buf.loadRange 0 sPend1.dec.pendLen.toNat = some [0x07] ∧ s0.dec.pend = false
    ∧ LiveTurn .sink (turn .sink { s0 with sinkHeld := true }) := by decide
theorem witness_SerialisedMessageRoundTrips : sWrite.dec.phase = .hdr ∧ sWrite.dec.hcnt = 0 ∧ sWrite.dec.pend = false
    ∧ .writer ∉ sWrite.halted ∧ sWrite.wr = some ⟨ser sWrite.params.lenOrder 2 [], 0, true⟩
    ∧ { sWrite with sched := [.writer, .writer, .writer, .sink] }.sched
      = List.replicate (3 + ([] : List Byte).length) .writer ++ [.sink] := by decide
theorem witness_InvariantHoldsAtReset : Config.vectorParams.Legal := by decide
theorem reset_inv : BlockInv State.reset :=
  ⟨by decide, by decide, by decide, by decide, by decide, by decide, ⟨by simp [State.reset, State.resetWith],
    by simp [State.reset, State.resetWith]⟩, by decide⟩
theorem pending_message_inv : BlockInv (turn .sink sPend1) :=
  ⟨by decide, by decide, by decide, by decide, by decide, by decide, ⟨by simp [turn, sPend1, s0, State.reset, State.resetWith],
    by simp [turn, sPend1, s0, State.reset, State.resetWith]⟩, by decide⟩
theorem malformed_packet_inv : BlockInv (sends .host (.port []) s0) :=
  ⟨by decide, by decide, by decide, by decide, by decide, by decide, ⟨by simp [sends, s0, State.reset, State.resetWith],
    by simp [sends, s0, State.reset, State.resetWith]⟩, by decide⟩
theorem witness_InvariantIsKept : BlockInv (turn .sink sPend1)
    ∧ (nextOf (step (turn .sink sPend1))).isSome = true := ⟨pending_message_inv, by decide⟩
theorem witness_NoStepFaults : BlockInv (turn .sink sPend1) ∧ BlockInv (sends .host (.port []) s0)
    ∧ step (sends .host (.port []) s0) = .refused .malformedPacket := ⟨pending_message_inv, malformed_packet_inv, rfl⟩

/-! ### The interface -/

theorem fetch_runs_the_word :
    after (fun t => t.ac.state) (step (State.reset.withFetchWord 8 0x10)) = some .waitAtqa
    ∧ after (fun t => t.fifo.head) (step (State.reset.withFetchWord 16 0x2041)) = some 1
    ∧ decodeTableWord 24 0x220A00 = some (.fifoRead 10) := by decide
/-- `State.reset`'s instance is little-endian (log entry 2). -/
theorem table_word_u16_is_little_endian : decodeTableWord 24 0x22000A = some (.fifoRead 0x0A00) := by decide

end Sys2Proof.Tests
end

/-! ## Turns: which step the agent that is due takes (R22, R30, R318) -/

namespace Sys2Proof.Machine

/-! ### The turn -/

theorem step_of_no_turn {s : State} (h : s.sched = []) : step s = .next s := by
  simp only [step, h]

theorem step_of_turn {s : State} {a : Agent} (h : Turn a s) : step s = agentStep a (handOver s) := by
  obtain ⟨rest, hs⟩ := List.head?_eq_some_iff.mp h
  simp only [step, handOver, hs, List.tail_cons]

@[simp] theorem handOver_busy (s : State) (a : Agent) : (handOver s).busy a = s.busy a := by
  cases a <;> rfl

/-! ### The agent that is due -/

theorem agentStep_of_halted {s : State} {a : Agent} (h : a ∈ s.halted) : agentStep a s = .next s :=
  if_pos h

theorem agentStep_of_busy {s : State} {a : Agent} (hl : a ∉ s.halted) (hb : s.busy a = true) :
    agentStep a s = continueOp a s := by
  rw [agentStep, if_neg hl, if_pos hb]

theorem agentStep_of_no_packet {s : State} {a : Agent} (hl : a ∉ s.halted) (hb : s.busy a = false)
    (hp : takePacket a s.pending = none) : agentStep a s = .next s := by
  simp only [agentStep, hl, hb, hp, if_false, Bool.false_eq_true]

theorem agentStep_of_packet {s : State} {a : Agent} {p : Packet} {rest : List Packet} (hl : a ∉ s.halted)
    (hb : s.busy a = false) (hp : takePacket a s.pending = some (p, rest)) :
    agentStep a s = issue p { s with pending := rest } := by
  simp only [agentStep, hl, hb, hp, if_false, Bool.false_eq_true]

/-- The agent that issues a packet takes the step the packet checks give it (R319). -/
theorem step_of_issues {s : State} {p : Packet} {rest : List Packet} (h : Issues s p rest) :
    step s = issue p (taken s rest) := by
  obtain ⟨⟨hturn, hlive⟩, hbusy, hpacket⟩ := h
  rw [step_of_turn hturn]
  exact agentStep_of_packet hlive ((handOver_busy s _).trans hbusy) hpacket

theorem issue_of_own_instr {p : Packet} {s : State} {i : Instr} (hd : decode s.params.lenOrder p.words = .ok i)
    (ha : agentOf i = p.agent) : issue p s = exec i s := by
  simp only [issue, hd, ha, if_true]

/-! ### What an operation in progress leaves unchanged -/

/-- All but the FIFO, the framer, the operations in progress and the replies is the same: what the later steps of an
operation of more than one step never write. -/
structure KeepsRest (s t : State) : Prop where
  params : t.params = s.params
  ac : t.ac = s.ac
  refused : t.refused = s.refused
  halted : t.halted = s.halted
  pending : t.pending = s.pending
  sched : t.sched = s.sched
  rfOut : t.rfOut = s.rfOut

theorem KeepsRest.refl (s : State) : KeepsRest s s := ⟨rfl, rfl, rfl, rfl, rfl, rfl, rfl⟩

theorem encodeStep_keepsRest {s t : State} (h : encodeStep s = .next t) : KeepsRest s t := by
  obtain ⟨b, ok, fifo, -, -, ⟨-, rfl⟩ | ⟨-, -, rfl⟩ | ⟨-, -, rfl⟩⟩ := encodeStep_spec h
  all_goals exact ⟨rfl, rfl, rfl, rfl, rfl, rfl, rfl⟩

theorem readStep_keepsRest {op : ReadOp} {s t : State} (h : readStep op s = .next t) : KeepsRest s t := by
  obtain ⟨-, -, rfl⟩ | ⟨-, -, rfl⟩ | ⟨b, fifo, -, -, -, rfl⟩ := readStep_spec h
  · exact .refl _
  all_goals exact ⟨rfl, rfl, rfl, rfl, rfl, rfl, rfl⟩

theorem writeAdvance_keepsRest (op : WriteOp) (s : State) : KeepsRest s (writeAdvance op s) := by
  obtain ⟨-, -, h⟩ | ⟨-, -, h⟩ | ⟨-, h⟩ := writeAdvance_spec op s
  all_goals exact h ▸ ⟨rfl, rfl, rfl, rfl, rfl, rfl, rfl⟩

theorem writeStep_keepsRest {op : WriteOp} {s t : State} (h : writeStep op s = .next t) : KeepsRest s t := by
  obtain ⟨-, rfl⟩ | ⟨b, dec, -, -, -, rfl⟩ := writeStep_spec h
  · exact .refl _
  · obtain ⟨params, ac, refused, halted, pending, sched, rfOut⟩ := writeAdvance_keepsRest op { s with dec := dec }
    exact ⟨params, ac, refused, halted, pending, sched, rfOut⟩

theorem acceptStep_keepsRest {s t : State} (h : acceptStep s = .next t) : KeepsRest s t := by
  obtain ⟨-, rfl⟩ | ⟨msg, -, -, rfl⟩ := acceptStep_spec h
  all_goals exact ⟨rfl, rfl, rfl, rfl, rfl, rfl, rfl⟩

/-- Going on with an operation issues nothing, hands over no turn and touches no arbiter register, whoever's operation it
is. -/
theorem continueOp_keepsRest {a : Agent} {s t : State} (h : continueOp a s = .next t) : KeepsRest s t := by
  obtain rfl | ⟨-, -, h⟩ | ⟨-, op, -, h⟩ | ⟨-, op, -, h⟩ | ⟨-, -, h⟩ := continueOp_spec h
  · exact .refl _
  · exact encodeStep_keepsRest h
  · exact readStep_keepsRest h
  · exact writeStep_keepsRest h
  · exact acceptStep_keepsRest h

/-! ### The steps of a turn -/

theorem step_of_busy {s : State} {a : Agent} (h : LiveTurn a s) (hb : s.busy a = true) :
    step s = continueOp a (handOver s) :=
  (step_of_turn h.1).trans (agentStep_of_busy h.2 ((handOver_busy s a).trans hb))

theorem step_of_halted {s : State} {a : Agent} (h : Turn a s) (hh : a ∈ s.halted) : step s = .next (handOver s) :=
  (step_of_turn h).trans (agentStep_of_halted hh)

theorem step_of_no_packet {s : State} {a : Agent} (h : LiveTurn a s) (hb : s.busy a = false)
    (hp : takePacket a s.pending = none) : step s = .next (handOver s) :=
  (step_of_turn h.1).trans (agentStep_of_no_packet h.2 ((handOver_busy s a).trans hb) hp)

/-- Settles O9: each kind of turn is one branch of `agentStep`; the packets stay because no operation in progress writes
them. -/
theorem turnsWithoutAnIssue : Obligations.TurnsWithoutAnIssue := by
  refine ⟨fun s a hlive hbusy => ⟨step_of_busy hlive hbusy, fun t ht => ?_⟩, fun s => step_of_no_turn,
    fun s a => step_of_halted, fun s a => step_of_no_packet⟩
  have hop : continueOp a (handOver s) = .next t := (step_of_busy hlive hbusy).symm.trans ht
  exact (continueOp_keepsRest hop).pending

/-- Settles O8: the packet is issued, and passes the packet checks as an instruction of its agent's own. -/
theorem stepRunsTheDecodedInstruction : Obligations.StepRunsTheDecodedInstruction := by
  intro s p rest i hissues hdecode hagent
  calc step s = issue p (taken s rest) := step_of_issues hissues
    _ = exec i (taken s rest) := issue_of_own_instr hdecode hagent

end Sys2Proof.Machine

/-! ## The invariant of the arbiter (R35 to R37, R57, R173) -/

namespace Sys2Proof.Machine

/-! ### What every state of the arbiter keeps, and what a run in progress adds -/

/-- The ranges of R35 to R37, whatever `AC_STATE` is: unknown positions of `AC_CL` and unused bytes of `AC_UID` are 0. -/
structure Arbiter.InRange (a : Arbiter) : Prop where
  known : a.known ≤ 40
  cl : ∀ p, p < 40 → a.known ≤ p → a.cl.getLsbD p = false
  uidLen : a.uidLen ∈ [0, 3, 4, 6, 7, 10]
  uid : ∀ i, i < 10 → a.uidLen ≤ i → a.uid.toList.getD i 0 = 0

/-- A run in progress has stored three UID bytes for each level done, and has no result yet. -/
structure Arbiter.Running (a : Arbiter) : Prop where
  uidLen : a.uidLen = 3 * (levelNumber a.level - 1)
  result : a.result = .none

theorem ArbiterInv.inRange {a : Arbiter} (h : ArbiterInv a) : a.InRange := by
  obtain ⟨known, cl, uidLen, uid, -⟩ := h
  exact ⟨known, cl, uidLen, uid⟩

theorem ArbiterInv.running {a : Arbiter} (h : ArbiterInv a) (hs : a.state ≠ .idle) : a.Running := by
  obtain ⟨-, -, -, -, run, -⟩ := h
  exact ⟨(run hs).1, (run hs).2⟩

theorem Arbiter.InRange.withSak {a : Arbiter} (h : a.InRange) (sak : Byte) : Arbiter.InRange { a with sak := sak } :=
  ⟨h.known, h.cl, h.uidLen, h.uid⟩

theorem Arbiter.Running.withSak {a : Arbiter} (h : a.Running) (sak : Byte) : Arbiter.Running { a with sak := sak } :=
  ⟨h.uidLen, h.result⟩

theorem levelNumber_bounds (l : Level) : 1 ≤ levelNumber l ∧ levelNumber l ≤ 3 := by
  cases l <;> decide

/-- The UID bytes of a run in progress leave room for the four of its last level (R37). -/
theorem Arbiter.Running.uidLen_le {a : Arbiter} (h : a.Running) : a.uidLen ≤ 6 := by
  have := levelNumber_bounds a.level
  have := h.uidLen
  omega

theorem levelNumber_nextLevel {l l' : Level} (h : nextLevel l = some l') : levelNumber l' = levelNumber l + 1 := by
  cases l <;> cases h <;> rfl

/-! ### The states a run ends in and passes through -/

/-- Ending a run with any result but OK keeps the invariant: no UID is claimed. -/
theorem Arbiter.InRange.finish_inv {a : Arbiter} (h : a.InRange) {r : AcResult} (hr : r ≠ .ok) :
    ArbiterInv (a.finish r) :=
  ⟨h.known, h.cl, h.uidLen, h.uid, by simp, by simp, by simp, by simp, fun _ e => absurd e hr, by simp⟩

/-- Ending a run OK, with the whole UID of its level stored (R172). -/
theorem Arbiter.InRange.finish_ok_inv {a : Arbiter} (h : a.InRange)
    (hu : a.uidLen = 3 * (levelNumber a.level - 1) + 4) : ArbiterInv (a.finish .ok) :=
  ⟨h.known, h.cl, h.uidLen, h.uid, by simp, by simp, by simp, by simp, fun _ _ => hu, by simp⟩

/-- An arbiter that waits for the rest of a UID CLn. -/
theorem Arbiter.InRange.waitAc_inv {a : Arbiter} (h : a.InRange) (hrun : a.Running) (hs : a.state = .waitAc)
    (hk : a.known ≤ 39) : ArbiterInv a := by
  refine ⟨h.known, h.cl, h.uidLen, h.uid, fun _ => ⟨hrun.uidLen, hrun.result⟩, ?_, fun _ => hk, ?_, ?_, ?_⟩
  all_goals simp [hs]

/-- A complete level: SELECT is due exactly when the check byte holds (R165, R173). -/
theorem Arbiter.InRange.completeLevel_inv {a : Arbiter} (h : a.InRange) (hrun : a.Running) (hk : a.known = 40) :
    ArbiterInv a.completeLevel := by
  obtain ⟨hb, e⟩ | ⟨-, e⟩ := a.completeLevel_cases
  · rw [e]
    exact ⟨h.known, h.cl, h.uidLen, h.uid, fun _ => ⟨hrun.uidLen, hrun.result⟩, by simp, by simp, fun _ => ⟨hk, hb⟩,
      by simp, by simp⟩
  · rw [e]
    exact h.finish_inv (by decide)

/-- A level begins with nothing known of its UID CLn (R151). -/
theorem Arbiter.InRange.enterLevel_inv {a : Arbiter} {l : Level} (h : a.InRange)
    (hu : a.uidLen = 3 * (levelNumber l - 1)) (hr : a.result = .none) : ArbiterInv (Arbiter.enterLevel l a) := by
  have hin : (Arbiter.enterLevel l a).InRange := ⟨by simp, by simp, h.uidLen, h.uid⟩
  exact hin.waitAc_inv ⟨hu, hr⟩ rfl (by simp)

/-- Appending UID bytes that fit keeps the bytes after them 0 (R37, R170, R171). -/
theorem Arbiter.InRange.writeUid {a : Arbiter} (h : a.InRange) {bs : List Byte} {uid : Vector Byte 10}
    (hw : writeUid a.uid a.uidLen bs = some uid) (hlen : a.uidLen + bs.length ∈ [0, 3, 4, 6, 7, 10]) :
    Arbiter.InRange { a with uid := uid, uidLen := a.uidLen + bs.length } := by
  refine ⟨h.known, h.cl, hlen, fun i hi hle => ?_⟩
  have hget := (writeUid_spec hw).2 i
  simp only at hle ⊢
  rw [hget, if_neg (by omega)]
  exact h.uid i hi (by omega)

/-! ### The merges of a UID CLn (R163, R164) -/

/-- Positions from `k + n` on stay 0 when the `n` positions from `k` on are filled. -/
theorem getLsbD_fillBits_beyond {cl : BitVec 40} {k n p : Nat} (f : Nat → Bool)
    (h : ∀ p, p < 40 → k ≤ p → cl.getLsbD p = false) (hp : p < 40) (hkn : k + n ≤ p) :
    (fillBits cl k f n).getLsbD p = false := by
  rw [getLsbD_fillBits _ _ _ _ _ hp, if_neg (by omega)]
  exact h p hp (by omega)

theorem Arbiter.mergeAll_inv {a : Arbiter} (rx : List Bool) (h : a.InRange) (hrun : a.Running) :
    ArbiterInv (a.mergeAll rx) := by
  have hin : Arbiter.InRange
      { a with cl := fillBits a.cl a.known (fun i => rx.getD i false) (40 - a.known), known := 40 } :=
    ⟨by simp, fun p hp hk => absurd hp (by simpa using hk), h.uidLen, h.uid⟩
  exact hin.completeLevel_inv ⟨hrun.uidLen, hrun.result⟩ rfl

theorem Arbiter.mergeCollision_inv {a : Arbiter} (collBit : Bool) (rx : List Bool) {c : Nat} (h : a.InRange)
    (hrun : a.Running) (hs : a.state = .waitAc) (hc : a.known + c + 1 ≤ 40) :
    ArbiterInv (a.mergeCollision collBit rx c) := by
  have hin : Arbiter.InRange { a with
      cl := setPos (fillBits a.cl a.known (fun i => rx.getD i false) c) (a.known + c) collBit
      known := a.known + c + 1 } := by
    refine ⟨hc, fun p hp hk => ?_, h.uidLen, h.uid⟩
    simp only at hk ⊢
    rw [getLsbD_setPos _ _ _ _ hp, if_neg (by omega)]
    exact getLsbD_fillBits_beyond _ h.cl hp (by omega)
  unfold Arbiter.mergeCollision
  simp only
  split
  · exact hin.completeLevel_inv ⟨hrun.uidLen, hrun.result⟩ ‹_›
  · exact hin.waitAc_inv ⟨hrun.uidLen, hrun.result⟩ hs (by simp only; omega)

/-! ### The response rules (R154 to R171) -/

theorem Arbiter.onAtqa_inv {a : Arbiter} (rx : List Bool) (h : ArbiterInv a) (hs : a.state = .waitAtqa) :
    ArbiterInv (a.onAtqa rx) := by
  have hin := h.inRange
  have hrun := h.running (by simp [hs])
  obtain ⟨-, -, -, -, -, hatqa, -⟩ := h
  unfold Arbiter.onAtqa
  split
  · exact hin.finish_inv (by decide)
  · refine Arbiter.InRange.enterLevel_inv ⟨hin.known, hin.cl, hin.uidLen, hin.uid⟩ ?_ hrun.result
    simpa [(hatqa hs).1] using hrun.uidLen

theorem Arbiter.onAnticoll_inv {a : Arbiter} (collBit : Bool) (rx : List Bool) (coll : Option Nat) (h : ArbiterInv a)
    (hs : a.state = .waitAc) : ArbiterInv (a.onAnticoll collBit rx coll) := by
  have hin := h.inRange
  have hrun := h.running (by simp [hs])
  have hknown := hin.known
  unfold Arbiter.onAnticoll
  split
  · exact hin.finish_inv (by decide)
  · cases coll with
    | none =>
      simp only
      split
      · exact hin.finish_inv (by decide)
      · exact Arbiter.mergeAll_inv rx hin hrun
    | some c =>
      simp only
      split
      · exact hin.finish_inv (by decide)
      · exact Arbiter.mergeCollision_inv collBit rx hin hrun hs (by omega)

theorem Arbiter.cascade_inv {a b : Arbiter} (hin : a.InRange) (hrun : a.Running) (h : a.cascade = .ok b) :
    ArbiterInv b := by
  obtain ⟨-, rfl⟩ | ⟨-, -, rfl⟩ | ⟨l, uid, hl, -, hw, rfl⟩ := Arbiter.cascade_spec h
  · exact hin.finish_inv (by decide)
  · exact hin.finish_inv (by decide)
  · have hnext := levelNumber_nextLevel hl
    have hbound := levelNumber_bounds a.level
    have hbound' := levelNumber_bounds l
    have hlen := hrun.uidLen
    have hroom : a.uidLen + 3 ∈ [0, 3, 4, 6, 7, 10] := by
      have : a.uidLen = 0 ∨ a.uidLen = 3 := by omega
      rcases this with e | e <;> simp [e]
    refine (hin.writeUid hw hroom).enterLevel_inv ?_ hrun.result
    simp only [List.length_cons, List.length_nil]
    omega

theorem Arbiter.finalLevel_inv {a b : Arbiter} (hin : a.InRange) (hrun : a.Running) (h : a.finalLevel = .ok b) :
    ArbiterInv b := by
  obtain ⟨uid, hw, rfl⟩ := Arbiter.finalLevel_spec h
  have hlen := hrun.uidLen
  have hroom : a.uidLen + 4 ∈ [0, 3, 4, 6, 7, 10] := by
    rw [hlen]
    cases a.level <;> decide
  refine (hin.writeUid hw hroom).finish_ok_inv ?_
  simp only [List.length_cons, List.length_nil]
  omega

theorem Arbiter.onSak_inv {a b : Arbiter} {rx : List Bool} {coll : Option Nat} (h : ArbiterInv a)
    (hs : a.state = .waitSak) (hb : a.onSak rx coll = .ok b) : ArbiterInv b := by
  have hin := h.inRange
  have hrun := h.running (by simp [hs])
  unfold Arbiter.onSak at hb
  split at hb
  · cases hb
    exact hin.finish_inv (by decide)
  · split at hb
    · cases hb
      exact hin.finish_inv (by decide)
    · simp only at hb
      split at hb
      · exact Arbiter.cascade_inv (hin.withSak _) (hrun.withSak _) hb
      · exact Arbiter.finalLevel_inv (hin.withSak _) (hrun.withSak _) hb

/-- No response breaks the invariant of the arbiter. -/
theorem Arbiter.answer_inv {a b : Arbiter} {collBit : Bool} {r : Response} (h : ArbiterInv a) (hs : a.state ≠ .idle)
    (hb : a.answer collBit r = .ok b) : ArbiterInv b := by
  have hin := h.inRange
  obtain ⟨-, rfl⟩ | ⟨-, -, rfl⟩ | ⟨-, -, -, rfl⟩ | ⟨-, -, -, rfl⟩ | ⟨rx, coll, -, -, hframe⟩ := Arbiter.answer_spec hs hb
  · exact hin.finish_inv (by decide)
  · exact hin.finish_inv (by decide)
  · exact hin.finish_inv (by decide)
  · exact hin.finish_inv (by decide)
  · obtain ⟨hst, rfl⟩ | ⟨hst, rfl⟩ | ⟨hst, hsak⟩ := hframe
    · exact Arbiter.onAtqa_inv rx h hst
    · exact Arbiter.onAnticoll_inv collBit rx coll h hst
    · exact Arbiter.onSak_inv h hst hsak

/-! ### AC_START, CANCEL and RESET -/

theorem Arbiter.start_inv (a : Arbiter) : ArbiterInv a.start := by
  have huid : ∀ i, i < 10 → a.start.uid.toList.getD i 0 = 0 := by
    rw [Arbiter.start_uid]
    decide
  exact ⟨by simp, by simp, by simp, fun i hi _ => huid i hi, fun _ => ⟨rfl, rfl⟩, by simp, by simp, by simp, by simp,
    by simp⟩

theorem Arbiter.cancel_inv {a : Arbiter} (h : ArbiterInv a) (hs : a.state ≠ .idle) :
    ArbiterInv { a with cancel := true } := by
  obtain ⟨known, cl, uidLen, uid, run, atqa, ac, sak, ok, -⟩ := h
  exact ⟨known, cl, uidLen, uid, run, atqa, ac, sak, ok, fun _ => hs⟩

theorem Arbiter.reset_inv : ArbiterInv Arbiter.reset := by decide

/-! ### No response faults (R37) -/

theorem Arbiter.Running.cascade_ok {a : Arbiter} (hrun : a.Running) : ∃ b, a.cascade = .ok b := by
  have hlen := hrun.uidLen_le
  obtain ⟨uid, hw⟩ := writeUid_isSome (uid := a.uid) (i := a.uidLen)
    (bs := [clByte a.cl 1, clByte a.cl 2, clByte a.cl 3]) (by simp only [List.length_cons, List.length_nil]; omega)
  unfold Arbiter.cascade
  split
  · exact ⟨_, rfl⟩
  · split
    · exact ⟨_, rfl⟩
    · rw [hw]
      exact ⟨_, rfl⟩

theorem Arbiter.Running.finalLevel_ok {a : Arbiter} (hrun : a.Running) : ∃ b, a.finalLevel = .ok b := by
  have hlen := hrun.uidLen_le
  obtain ⟨uid, hw⟩ := writeUid_isSome (uid := a.uid) (i := a.uidLen)
    (bs := [clByte a.cl 0, clByte a.cl 1, clByte a.cl 2, clByte a.cl 3])
    (by simp only [List.length_cons, List.length_nil]; omega)
  unfold Arbiter.finalLevel
  rw [hw]
  exact ⟨_, rfl⟩

theorem Arbiter.Running.onSak_ok {a : Arbiter} (hrun : a.Running) (rx : List Bool) (coll : Option Nat) :
    ∃ b, a.onSak rx coll = .ok b := by
  unfold Arbiter.onSak
  split
  · exact ⟨_, rfl⟩
  · split
    · exact ⟨_, rfl⟩
    · simp only
      split
      · exact (hrun.withSak _).cascade_ok
      · exact (hrun.withSak _).finalLevel_ok

theorem Arbiter.Running.answer_ok {a : Arbiter} (hrun : a.Running) (collBit : Bool) (r : Response) :
    ∃ b, a.answer collBit r = .ok b := by
  unfold Arbiter.answer
  split
  · exact ⟨_, rfl⟩
  · cases r with
    | xportError => exact ⟨_, rfl⟩
    | timeout => exact ⟨_, rfl⟩
    | frame rx coll =>
      cases hst : a.state with
      | idle => exact ⟨_, rfl⟩
      | waitAtqa => exact ⟨_, rfl⟩
      | waitAc => exact ⟨_, rfl⟩
      | waitSak => exact hrun.onSak_ok rx coll

end Sys2Proof.Machine

/-! ## The invariant of the FIFO and the framer (R44, R45, R48 to R53, R76, R233, R241) -/

namespace Sys2Proof.Machine

/-! ### FIFO -/

/-- An empty FIFO has no queued slot to be written. -/
theorem Fifo.reset_inv {n : Nat} (hn : 0 < n) : FifoInv n Fifo.reset := by
  have hocc : Fifo.reset.occ n = 0 := (Fifo.empty_iff (f := Fifo.reset) hn hn).mp rfl
  refine ⟨rfl, rfl, hn, hn, fun j hj => ?_⟩
  omega

/-- A push takes one slot of the free space, and a full FIFO has none (R272, R273). -/
theorem Fifo.push_space {n : Nat} {b : Byte} {f f' : Fifo} {ok : Bool} (hf : FifoInv n f)
    (h : f.push n b = .ok (ok, f')) : if ok then f.space n = f'.space n + 1 else f.space n = 0 := by
  obtain ⟨-, -, hh, ht, -⟩ := hf
  obtain ⟨rfl, hfull, rfl⟩ | ⟨rfl, hfull, -, rfl⟩ := Fifo.push_spec h
  · have := Fifo.full_iff.mp hfull
    simp [Fifo.space, this]
  · have hocc := Fifo.occ_push (f.mem.put f.head b) hh ht hfull
    have hlt := f.occ_lt (n := n) (by omega)
    have hne : f.occ n ≠ n - 1 := fun e => by simp [Fifo.full_iff.mpr e] at hfull
    simp only [Fifo.space, if_true, hocc]
    omega

/-- A take only adds free space. -/
theorem Fifo.take_space {n : Nat} {b : Byte} {f f' : Fifo} (hf : FifoInv n f) (he : f.empty = false)
    (h : f.take n = .ok (b, f')) : f.space n ≤ f'.space n := by
  obtain ⟨-, -, hh, ht, -⟩ := hf
  obtain ⟨-, rfl⟩ := Fifo.take_spec h
  have hocc := Fifo.occ_take hh ht he
  simp only [Fifo.space]
  omega

/-- The overflow flag is set by a push that finds the FIFO full, and cleared by none (R46, R284). -/
theorem Fifo.push_ovf {n : Nat} {b : Byte} {f f' : Fifo} {ok : Bool} (h : f.push n b = .ok (ok, f'))
    (ho : f.ovf = true) : f'.ovf = true := by
  obtain ⟨-, -, rfl⟩ | ⟨-, -, -, rfl⟩ := Fifo.push_spec h
  · rfl
  · exact ho

theorem Fifo.take_ovf {n : Nat} {b : Byte} {f f' : Fifo} (h : f.take n = .ok (b, f')) : f'.ovf = f.ovf := by
  obtain ⟨-, rfl⟩ := Fifo.take_spec h
  rfl

/-! ### Decoder -/

theorem Decoder.reset_inv : DecoderInv Decoder.reset := by decide

theorem Decoder.headerStep_inv (o : LenOrder) (b : Byte) {d : Decoder} (h : DecoderInv d) (hp : d.pend = false)
    (hd : d.phase = .hdr) : DecoderInv (d.headerStep o b) := by
  obtain ⟨hwf, hin, -, -⟩ := h
  obtain ⟨-, e⟩ | ⟨-, e⟩ | ⟨-, -, e⟩ | ⟨-, hlen, e⟩ := d.headerStep_spec o b
  · rw [e]
    exact ⟨hwf, hin, by simp [hd], by simp [hp]⟩
  · rw [e]
    exact ⟨hwf, hin, by simp [hd], by simp [hp]⟩
  · rw [e]
    exact ⟨hwf, hin, by simp [hd], by simp [hd]⟩
  · rw [e]
    have hpos : 0 < (len16 o d.hdr[1] b).toNat := Nat.pos_of_ne_zero fun e => hlen (BitVec.eq_of_toNat_eq e)
    exact ⟨hwf, hin, fun _ => ⟨rfl, hpos, by simp⟩, by simp [hp]⟩

/-- The slots of the payload bytes up to the one written hold bytes, when those before it did. -/
theorem Memory.load_put_upto {m : Memory} {k : Nat} (b : Byte) (h : ∀ j, j < k → (m.load j).isSome = true) :
    ∀ j, j < k + 1 → ((m.put k b).load j).isSome = true := by
  intro j hj
  by_cases hjk : j = k
  · simp [hjk]
  · rw [Memory.load_put_other m b hjk]
    exact h j (by omega)

/-- A counter below a 16-bit length does not wrap. -/
theorem toNat_add_one_of_lt {c l : U16} (h : c.toNat < l.toNat) : (c + 1).toNat = c.toNat + 1 := by
  bv_omega

theorem Decoder.payloadStep_inv {b : Byte} {d d' : Decoder} (h : DecoderInv d) (hp : d.pend = false)
    (hd : d.phase = .pay) (hs : d.payloadStep b = .ok d') : DecoderInv d' := by
  obtain ⟨hwf, hin, hpay, -⟩ := h
  obtain ⟨hhcnt, hlt, hwritten⟩ := hpay hd
  have hnext := toNat_add_one_of_lt hlt
  have hwritten' := Memory.load_put_upto b hwritten
  obtain ⟨hslot, ⟨hlast, rfl⟩ | ⟨hmore, rfl⟩⟩ := Decoder.payloadStep_spec hs
  · refine ⟨Memory.put_wf _ b hwf, Memory.put_inside b hslot hin, by simp, fun _ => ⟨rfl, hhcnt, fun j hj => ?_⟩⟩
    exact hwritten' j (by rw [← hnext, hlast]; exact hj)
  · refine ⟨Memory.put_wf _ b hwf, Memory.put_inside b hslot hin, fun _ => ⟨hhcnt, ?_, fun j hj => ?_⟩, by simp [hp]⟩
    · have : (d.cnt + 1).toNat ≠ d.len.toNat := fun e => hmore (BitVec.eq_of_toNat_eq e)
      simp only
      omega
    · exact hwritten' j (by rw [← hnext]; exact hj)

/-- No byte fed to a decoder that holds nothing pending breaks its invariant. -/
theorem Decoder.feed_inv {o : LenOrder} {b : Byte} {d d' : Decoder} (h : DecoderInv d) (hp : d.pend = false)
    (hf : d.feed o b = .ok d') : DecoderInv d' := by
  obtain ⟨hd, rfl⟩ | ⟨hd, hs⟩ := Decoder.feed_spec hf
  · exact Decoder.headerStep_inv o b h hp hd
  · exact Decoder.payloadStep_inv h hp hd hs

/-- `DEC_CNT` names a slot of the buffer while a payload byte is due, so no byte faults (R241). -/
theorem Decoder.feed_ok {d : Decoder} (h : DecoderInv d) (o : LenOrder) (b : Byte) : ∃ d', d.feed o b = .ok d' := by
  obtain ⟨-, -, hpay, -⟩ := h
  cases hd : d.phase with
  | hdr => exact ⟨_, by rw [Decoder.feed, hd]⟩
  | pay =>
    obtain ⟨-, hlt, -⟩ := hpay hd
    have := d.len.isLt
    obtain ⟨d', hs⟩ := Decoder.payloadStep_ok b (d := d) (by simp only [decBufSize]; omega)
    exact ⟨d', by rw [Decoder.feed, hd]; exact hs⟩

theorem Decoder.accepted_inv {d : Decoder} (h : DecoderInv d) : DecoderInv { d with pend := false } := by
  obtain ⟨hwf, hin, hpay, -⟩ := h
  exact ⟨hwf, hin, hpay, by simp⟩

/-- Every byte of a pending message was written, so FRM_ACCEPT can reply it (R76). -/
theorem Decoder.message_isSome {d : Decoder} (h : DecoderInv d) (hp : d.pend = true) (o : LenOrder) :
    ∃ msg, d.message o = some msg := by
  obtain ⟨-, -, -, hpend⟩ := h
  obtain ⟨-, -, hwritten⟩ := hpend hp
  have hrange : (d.buf.loadRange 0 d.pendLen.toNat).isSome = true :=
    Memory.loadRange_isSome.mpr fun j hj => by simpa using hwritten j hj
  obtain ⟨payload, hl⟩ := Option.isSome_iff_exists.mp hrange
  exact ⟨_, by rw [Decoder.message, hl]; rfl⟩

/-! ### Encoder -/

theorem Encoder.reset_inv : EncoderInv Encoder.reset := by decide

/-- The bytes of a message, none pushed yet (R52, R228). -/
theorem Encoder.begin_inv (o : LenOrder) (ty : Byte) {payload : List Byte} (h : payload.length ≤ 65535) :
    EncoderInv { busy := true, bytes := ser o ty payload, idx := 0 } := by
  refine ⟨?_, by simp, fun _ => ⟨?_, ?_⟩⟩
  all_goals simp only [length_ser]; omega

theorem Encoder.end_inv {e : Encoder} (h : EncoderInv e) {idx : Nat} (hi : idx ≤ e.bytes.length) :
    EncoderInv { e with busy := false, idx := idx } := by
  obtain ⟨hlen, -, -⟩ := h
  exact ⟨hlen, hi, by simp⟩

theorem Encoder.advance_inv {e : Encoder} (h : EncoderInv e) (hb : e.busy = true)
    (hi : e.idx + 1 ≠ e.bytes.length) : EncoderInv { e with idx := e.idx + 1 } := by
  obtain ⟨hlen, -, hbusy⟩ := h
  obtain ⟨hmin, hlt⟩ := hbusy hb
  refine ⟨hlen, ?_, fun _ => ⟨hmin, ?_⟩⟩
  all_goals simp only; omega

end Sys2Proof.Machine

/-! ## What decodes is well formed (R100 to R104, R108, R112, R120) -/

namespace Sys2Proof

theorem splitBytes_length {n : Nat} {bs data rest : List Byte} (h : splitBytes n bs = .ok (data, rest)) :
    data.length = n := by
  unfold splitBytes at h
  split at h
  · cases h
    rw [List.length_take]
    omega
  · cases h

/-- A frame packet is well formed under its most specific name (log entry 11). -/
theorem spellFrame_wellFormed (coll : Option (BitVec 6)) {nbits : Byte} {data : List Byte}
    (h : data.length = dataBytes nbits) : (spellFrame nbits coll data).wellFormed = true := by
  cases coll with
  | some c => simp [spellFrame, Instr.wellFormed, h]
  | none =>
    by_cases hw : wholeBytes nbits = true
    · have hbytes : 1 ≤ data.length ∧ data.length ≤ 31 := by
        simp only [wholeBytes, Bool.and_eq_true, beq_iff_eq, bne_iff_ne, ne_eq] at hw
        have hpos : nbits.toNat ≠ 0 := fun e => hw.2 (BitVec.eq_of_toNat_eq e)
        have := nbits.isLt
        simp only [dataBytes] at h
        omega
      simp [spellFrame, hw, Instr.wellFormed, hbytes]
    · simp [spellFrame, hw, Instr.wellFormed, h]

theorem decodeFrameOperands_wellFormed {bs rest : List Byte} {i : Instr} (h : decodeFrameOperands bs = .ok (i, rest)) :
    i.wellFormed = true := by
  unfold decodeFrameOperands at h
  split at h
  · split at h
    · cases h
    · split at h
      · cases h
      · cases h
        exact spellFrame_wellFormed _ (splitBytes_length ‹_›)
  · cases h

theorem decodeByteOperand_spec {f : Byte → Instr} {bs rest : List Byte} {i : Instr}
    (h : decodeByteOperand f bs = .ok (i, rest)) : ∃ b, i = f b := by
  cases bs with
  | nil => cases h
  | cons b bs => cases h; exact ⟨b, rfl⟩

theorem decodeU16Operand_spec {o : LenOrder} {f : U16 → Instr} {bs rest : List Byte} {i : Instr}
    (h : decodeU16Operand o f bs = .ok (i, rest)) : ∃ n, i = f n := by
  unfold decodeU16Operand at h
  split at h
  · cases h; exact ⟨_, rfl⟩
  · cases h

theorem decodeCounted_spec {o : LenOrder} {f : List Byte → Instr} {bs rest : List Byte} {i : Instr}
    (h : decodeCounted o f bs = .ok (i, rest)) : ∃ bytes, bytes.length ≤ 65535 ∧ i = f bytes := by
  unfold decodeCounted at h
  split at h
  · split at h
    · cases h
    · rename_i x1 x2 _ _ bytes _ hs
      have hlen := splitBytes_length hs
      have := (len16 o x1 x2).isLt
      cases h
      exact ⟨bytes, by omega, rfl⟩
  · cases h

/-- The packets with operands by the lemmas about their operands; the others have none. -/
theorem decodePacket_wellFormed {o : LenOrder} {bs rest : List Byte} {i : Instr}
    (h : decodePacket o bs = .ok (i, rest)) : i.wellFormed = true := by
  unfold decodePacket at h
  split at h
  · cases h
  · split at h
    -- AC_RESP_FRAME.
    case h_6 => exact decodeFrameOperands_wellFormed h
    -- FIFO_PUSH.
    case h_9 => obtain ⟨b, rfl⟩ := decodeByteOperand_spec h; rfl
    -- FIFO_READ.
    case h_11 => obtain ⟨n, rfl⟩ := decodeU16Operand_spec h; rfl
    -- FRM_ENC.
    case h_14 =>
      unfold decodeEncOperands at h
      split at h
      · obtain ⟨payload, hlen, rfl⟩ := decodeCounted_spec h
        exact decide_eq_true hlen
      · cases h
    -- FRM_DEC.
    case h_15 => obtain ⟨b, rfl⟩ := decodeByteOperand_spec h; rfl
    -- FRM_WRITE.
    case h_16 =>
      obtain ⟨bytes, hlen, rfl⟩ := decodeCounted_spec h
      exact decide_eq_true hlen
    -- A reserved CMD.
    case h_18 => cases h
    -- The packets without operands.
    all_goals cases h; rfl

theorem decodeRf_wellFormed {bits : List Bool} {i : Instr} (h : decodeRf bits = .ok i) : i.wellFormed = true := by
  unfold decodeRf at h
  split at h
  · cases h; rfl
  · split at h
    · cases h
    · split at h
      · cases h
      · rename_i l _
        split at h
        · split at h
          · cases h
            cases l <;> rfl
          · cases h
        · split at h
          · rename_i hlen
            cases h
            have : (bits.drop 16).length ≤ 39 := by rw [List.length_drop]; omega
            cases l <;> exact decide_eq_true this
          · cases h

theorem messageInstr_wellFormed {ty : Byte} {payload : List Byte} {i : Instr} (hlen : payload.length ≤ 65535)
    (h : messageInstr ty payload = some i) : i.wellFormed = true := by
  unfold messageInstr at h
  split at h
  all_goals cases h
  all_goals exact decide_eq_true hlen

theorem decodeWire_spec {o : LenOrder} {bs : List Byte} {i : Instr} (h : decodeWire o bs = .ok i) :
    ∃ ty payload, wholeMessage o bs = some (ty, payload) ∧ messageInstr ty payload = some i := by
  unfold decodeWire at h
  split at h
  · cases h
  · split at h
    · cases h
    · cases h
      exact ⟨_, _, ‹_›, ‹_›⟩

/-- Words that are an instruction are a well-formed one. -/
theorem decode_wellFormed {o : LenOrder} {w : Words} {i : Instr} (h : decode o w = .ok i) : i.wellFormed = true := by
  cases w with
  | port bytes =>
    simp only [decode, decodePort] at h
    split at h
    · cases h
    · cases h
      exact decodePacket_wellFormed ‹_›
    · cases h
  | rf bits => exact decodeRf_wellFormed h
  | wire bytes =>
    obtain ⟨ty, payload, hwhole, hi⟩ := decodeWire_spec h
    exact messageInstr_wellFormed (wholeMessage_eq_some.mp hwhole).2 hi

end Sys2Proof

/-! ## What one step of an agent does (R30, R31, R83) -/

namespace Sys2Proof.Machine

/-- The payload of a well-formed instruction for the encoder has a 16-bit length. -/
theorem encoderOperands_length {i : Instr} {ty : Byte} {payload : List Byte} (hw : i.wellFormed = true)
    (h : encoderOperands i = some (ty, payload)) : payload.length ≤ 65535 := by
  cases i <;> cases h
  all_goals exact of_decide_eq_true hw

/-! ### Instructions that share an operation -/

theorem exec_of_response {i : Instr} (h : isResponse i = true) : ∃ r, ∀ s, exec i s = respond r s := by
  cases i
  case acRespTimeout => exact ⟨_, fun _ => rfl⟩
  case acRespXerr => exact ⟨_, fun _ => rfl⟩
  case acRespFrame nbits coll data => exact ⟨frameResponse nbits coll data, fun _ => rfl⟩
  case acRespBytes data => exact ⟨_, fun _ => rfl⟩
  case acRespColl nbits c data => exact ⟨frameResponse nbits (some c) data, fun _ => rfl⟩
  all_goals cases h

theorem exec_of_rf_words {o : LenOrder} {i : Instr} {bits : List Bool} (h : encode o i = .rf bits) (s : State) :
    exec i s = presentFrame bits s := by
  cases i <;> cases h
  all_goals rfl

theorem exec_of_encoderOperands {i : Instr} {ty : Byte} {payload : List Byte}
    (h : encoderOperands i = some (ty, payload)) (s : State) : exec i s = encodeStart ty payload s := by
  cases i <;> cases h
  all_goals rfl

theorem exec_of_clientOperands {i : Instr} {ty : Byte} {payload : List Byte}
    (h : clientOperands i = some (ty, payload)) (s : State) :
    exec i s = writeStart (ser s.params.lenOrder ty payload) false s := by
  cases i <;> cases h
  all_goals rfl

/-! ### The effects -/

/-- What one step of an agent other than RESET does to the block: one constructor for each operation that instructions,
wire bytes and operations in progress share, with what the agent had to find to take it. -/
inductive Effect : Agent → State → State → Prop
  /-- Nothing changes: the agent holds, or its operation has nothing to do. -/
  | pass {a : Agent} {s : State} : Effect a s s
  /-- R318. -/
  | refuse {a : Agent} {s : State} : Effect a s (s.refuse a)
  /-- A reply and nothing else. -/
  | reply {a : Agent} {s : State} (bytes : List Byte) : Effect a s (s.reply a bytes)
  /-- AC_START from IDLE (R150). -/
  | acStart {s : State} (hidle : s.ac.state = .idle) : Effect .worker s { s with ac := s.ac.start }
  /-- CANCEL of a run in progress (R341). -/
  | cancel {s : State} (hrun : s.ac.state ≠ .idle) : Effect .host s { s with ac := { s.ac with cancel := true } }
  /-- A response operation (R154). -/
  | respond {s t : State} (r : Response) (h : respond r s = .next t) : Effect .transport s t
  /-- The outstanding frame is taken (R42, log entry 9). -/
  | takeFrame {s : State} (frame : List Bool) : Effect .transport s { s with rfOut := s.rfOut ++ [frame] }
  /-- FIFO_PUSH (R275): WORKER is encoding no message. -/
  | push {s : State} {b : Byte} {ok : Bool} {fifo : Fifo} (bytes : List Byte) (hfree : s.enc.busy = false)
      (h : s.fifo.push s.params.fifoDepth b = .ok (ok, fifo)) :
      Effect .worker s (State.reply { s with fifo := fifo } .worker bytes)
  /-- FIFO_POP of a FIFO that is not empty (R277). -/
  | pop {s : State} {b : Byte} {fifo : Fifo} (bytes : List Byte) (hne : s.fifo.empty = false)
      (h : s.fifo.take s.params.fifoDepth = .ok (b, fifo)) :
      Effect .consumer s (State.reply { s with fifo := fifo } .consumer bytes)
  /-- FIFO_READ of some bytes begins (R279). -/
  | beginRead {s : State} {n : U16} (hn : n ≠ 0) : Effect .consumer s { s with rd := some ⟨n, []⟩ }
  /-- FIFO_READ goes on (R279). -/
  | readStep {s t : State} {op : ReadOp} (hop : s.rd = some op) (h : readStep op s = .next t) : Effect .consumer s t
  /-- FRM_ENC of a payload that has a length (R228). -/
  | encodeStart {s t : State} {ty : Byte} {payload : List Byte} (hlen : payload.length ≤ 65535)
      (h : encodeStart ty payload s = .next t) : Effect .worker s t
  /-- FRM_ENC goes on (R231). -/
  | encodeStep {s t : State} (hbusy : s.enc.busy = true) (h : encodeStep s = .next t) : Effect .worker s t
  /-- FRM_DEC with nothing pending (R236). -/
  | feed {s : State} {b : Byte} {dec : Decoder} (hpend : s.dec.pend = false)
      (h : s.dec.feed s.params.lenOrder b = .ok dec) : Effect .writer s { s with dec := dec }
  /-- WRITER begins to feed bytes (R236, R243). -/
  | beginWrite {s : State} {bytes : List Byte} (replies : Bool) (hne : bytes ≠ []) :
      Effect .writer s { s with wr := some ⟨bytes, 0, replies⟩ }
  /-- WRITER goes on (R236, R243). -/
  | writeStep {s t : State} {op : WriteOp} (hop : s.wr = some op) (h : writeStep op s = .next t) : Effect .writer s t
  /-- FRM_ACCEPT, issued or held (R246). -/
  | acceptStep {s t : State} (h : acceptStep s = .next t) : Effect .sink s t

theorem presentFrame_effect {frame : List Bool} {s t : State} (h : presentFrame frame s = .next t) :
    Effect .transport s t := by
  obtain ⟨-, e⟩ | ⟨-, e⟩ := presentFrame_spec frame s
  all_goals rw [e] at h; cases h
  · exact .takeFrame frame
  · exact .pass

theorem ser_ne_nil (o : LenOrder) (ty : Byte) (payload : List Byte) : ser o ty payload ≠ [] :=
  List.cons_ne_nil _ _

theorem writeStart_effect {bytes : List Byte} {replies : Bool} {s t : State} (hne : bytes ≠ [])
    (h : writeStart bytes replies s = .next t) : Effect .writer s t := by
  cases h
  exact .beginWrite replies hne

theorem execFifoPush_effect {b : Byte} {s t : State} (hfree : s.enc.busy = false) (h : execFifoPush b s = .next t) :
    Effect .worker s t := by
  unfold execFifoPush at h
  split at h
  · cases h
  all_goals cases h; exact .push _ hfree ‹_›

theorem execFifoPop_effect {s t : State} (h : execFifoPop s = .next t) : Effect .consumer s t := by
  unfold execFifoPop at h
  split at h
  · cases h
    exact .reply _
  · rename_i hne
    split at h
    · cases h
    · cases h
      exact .pop _ (by simpa using hne) ‹_›

theorem execFrmDec_effect {b : Byte} {s t : State} (h : execFrmDec b s = .next t) : Effect .writer s t := by
  unfold execFrmDec at h
  split at h
  · cases h
    exact .beginWrite false (List.cons_ne_nil _ _)
  · rename_i hpend
    split at h
    · cases h
    · cases h
      exact .feed (by simpa using hpend) ‹_›

/-- An instruction its agent is free to issue is RESET, or has one of the effects. -/
theorem exec_effect {i : Instr} {s t : State} (hfree : s.busy (agentOf i) = false) (hw : i.wellFormed = true)
    (h : exec i s = .next t) : (i = .reset ∧ t = s.applyReset) ∨ Effect (agentOf i) s t := by
  have encoded {ty : Byte} {payload : List Byte} (hi : encoderOperands i = some (ty, payload)) : Effect .worker s t :=
    .encodeStart (encoderOperands_length hw hi) ((exec_of_encoderOperands hi s).symm.trans h)
  have sent {ty : Byte} {payload : List Byte} (hi : clientOperands i = some (ty, payload)) : Effect .writer s t :=
    writeStart_effect (ser_ne_nil _ _ _) ((exec_of_clientOperands hi s).symm.trans h)
  have presented {bits : List Bool} (hi : encode .le i = .rf bits) : Effect .transport s t :=
    presentFrame_effect ((exec_of_rf_words hi s).symm.trans h)
  have responded (hi : isResponse i = true) : Effect .transport s t := by
    obtain ⟨r, hr⟩ := exec_of_response hi
    exact .respond r ((hr s).symm.trans h)
  cases i with
  | reset => cases h; exact .inl ⟨rfl, rfl⟩
  | cancel =>
    right
    cases h
    split
    · exact .pass
    · exact .cancel ‹_›
  | acStart =>
    right
    simp only [exec, execAcStart] at h
    split at h
    · cases h; exact .acStart ‹_›
    · cases h; exact .refuse
  | acRespTimeout => exact .inr (responded rfl)
  | acRespXerr => exact .inr (responded rfl)
  | acRespFrame nbits coll data => exact .inr (responded rfl)
  | acRespBytes data => exact .inr (responded rfl)
  | acRespColl nbits c data => exact .inr (responded rfl)
  | acStatus => cases h; exact .inr (.reply _)
  | acDesc => cases h; exact .inr (.reply _)
  | fifoAvail => cases h; exact .inr (.reply _)
  | fifoSpace => cases h; exact .inr (.reply _)
  | fifoPush b => exact .inr (execFifoPush_effect hfree h)
  | fifoPop => exact .inr (execFifoPop_effect h)
  | fifoRead n =>
    right
    simp only [exec, execFifoRead] at h
    split at h
    · cases h; exact .reply _
    · cases h; exact .beginRead ‹_›
  | frmDec b => exact .inr (execFrmDec_effect h)
  | frmWrite bytes =>
    right
    simp only [exec, execFrmWrite] at h
    split at h
    · cases h; exact .reply _
    · exact writeStart_effect ‹_› h
  | frmAccept => exact .inr (.acceptStep h)
  | frmEnc ty payload => exact .inr (encoded rfl)
  | msgIdentifyResp payload => exact .inr (encoded rfl)
  | msgIdleAck payload => exact .inr (encoded rfl)
  | msgDetectedTag payload => exact .inr (encoded rfl)
  | msgSelectedTag payload => exact .inr (encoded rfl)
  | msgTransceiveResp payload => exact .inr (encoded rfl)
  | msgIdentify payload => exact .inr (sent rfl)
  | msgIdle payload => exact .inr (sent rfl)
  | msgDiscover payload => exact .inr (sent rfl)
  | msgSelect payload => exact .inr (sent rfl)
  | msgTransceive payload => exact .inr (sent rfl)
  | rfReqa => exact .inr (presented rfl)
  | rfAnticollCl1 known => exact .inr (presented rfl)
  | rfAnticollCl2 known => exact .inr (presented rfl)
  | rfAnticollCl3 known => exact .inr (presented rfl)
  | rfSelectCl1 cl => exact .inr (presented rfl)
  | rfSelectCl2 cl => exact .inr (presented rfl)
  | rfSelectCl3 cl => exact .inr (presented rfl)

theorem carryWire_effect {a : Agent} {bytes : List Byte} {s t : State} (h : carryWire a bytes s = .next t) :
    Effect a s t := by
  obtain ⟨rfl, -, rfl⟩ | ⟨rfl, hne, rfl⟩ | ⟨rfl, ty, payload, hwhole, he⟩ | rfl := carryWire_spec h
  · exact .pass
  · exact .beginWrite false hne
  · exact .encodeStart (wholeMessage_eq_some.mp hwhole).2 he
  · exact .refuse

theorem continueOp_effect {a : Agent} {s t : State} (h : continueOp a s = .next t) : Effect a s t := by
  obtain rfl | ⟨rfl, hbusy, h⟩ | ⟨rfl, op, hop, h⟩ | ⟨rfl, op, hop, h⟩ | ⟨rfl, -, h⟩ := continueOp_spec h
  · exact .pass
  · exact .encodeStep hbusy h
  · exact .readStep hop h
  · exact .writeStep hop h
  · exact .acceptStep h

/-- A step leaves the state as it is, or the agent that is due has one of the effects, or HOST runs RESET; the effect is on
the state without the turn, and without the packet where one is issued. -/
theorem step_effect {s t : State} (h : step s = .next t) :
    t = s ∨ ∃ a pending, Turn a s
      ∧ (Effect a (taken s pending) t ∨ (a = .host ∧ Runs .reset s ∧ t = (taken s pending).applyReset)) := by
  obtain ⟨-, rfl⟩ | ⟨a, rest, hs, hcases⟩ := step_spec h
  · exact .inl rfl
  · right
    have hturn : Turn a s := by rw [Turn, hs, List.head?_cons]
    obtain rfl : rest = s.sched.tail := by rw [hs, List.tail_cons]
    obtain rfl | ⟨-, -, hop⟩ | ⟨p, pending, hlive, hfree, hp, rfl, hissue⟩ := hcases
    · exact ⟨a, s.pending, hturn, .inl .pass⟩
    · exact ⟨a, s.pending, hturn, .inl (continueOp_effect hop)⟩
    · refine ⟨p.agent, pending, hturn, ?_⟩
      obtain rfl | ⟨i, hd, hi, hexec⟩ | ⟨bytes, -, hwire⟩ := hissue
      · exact .inl .refuse
      · have hfree' : (taken s pending).busy (agentOf i) = false := by
          rw [hi]
          exact (handOver_busy s _).trans hfree
        obtain ⟨rfl, rfl⟩ | heffect := exec_effect hfree' (decode_wellFormed hd) hexec
        · exact .inr ⟨hi.symm, ⟨p, pending, ⟨⟨hturn, hlive⟩, hfree, hp⟩, hd, hi⟩, rfl⟩
        · exact .inl (hi ▸ heffect)
      · exact .inl (carryWire_effect hwire)

end Sys2Proof.Machine

/-! ## Every effect keeps the invariant of the block (R57, R76, R233, R318) -/

namespace Sys2Proof.Machine

/-! ### The parts of the invariant -/

theorem BlockInv.arbiter {s : State} (h : BlockInv s) : ArbiterInv s.ac := by
  obtain ⟨-, ac, -⟩ := h
  exact ac

theorem BlockInv.queue {s : State} (h : BlockInv s) : FifoInv s.params.fifoDepth s.fifo := by
  obtain ⟨-, -, fifo, -⟩ := h
  exact fifo

theorem BlockInv.decoder {s : State} (h : BlockInv s) : DecoderInv s.dec := by
  obtain ⟨-, -, -, dec, -⟩ := h
  exact dec

theorem BlockInv.progress {s : State} (h : BlockInv s) : ProgressInv s := by
  obtain ⟨-, -, -, -, -, -, progress, -⟩ := h
  exact progress

/-! ### The state after RESET -/

/-- Settles O58: every register has its reset value, and no operation is in progress. -/
theorem invariantHoldsAtReset : Obligations.InvariantHoldsAtReset := by
  intro p hlegal
  have hdepth : 0 < p.fifoDepth := Nat.lt_of_lt_of_le Nat.two_pos hlegal.1
  exact ⟨hlegal, Arbiter.reset_inv, Fifo.reset_inv hdepth, Decoder.reset_inv, Encoder.reset_inv, fun _ => nofun,
    ⟨nofun, nofun⟩, iff_of_false Bool.false_ne_true (not_not.mpr rfl), List.nodup_nil⟩

/-- RESET of a state of the invariant, which keeps `REFUSED` and the halted agents. -/
theorem applyReset_inv {s : State} (h : BlockInv s) : BlockInv s.applyReset := by
  obtain ⟨legal, -, -, -, -, -, -, refusal⟩ := h
  obtain ⟨-, ac, fifo, dec, enc, room, progress, -⟩ := invariantHoldsAtReset s.params legal
  exact ⟨legal, ac, fifo, dec, enc, room, progress, refusal⟩

/-! ### Each effect -/

/-- The replies given are outputs, of which the invariant says nothing (log entry 8). -/
theorem reply_inv {s : State} (a : Agent) (bytes : List Byte) (h : BlockInv s) : BlockInv (s.reply a bytes) := h

theorem refuse_inv {s : State} (a : Agent) (h : BlockInv s) : BlockInv (s.refuse a) := by
  obtain ⟨legal, ac, fifo, dec, enc, room, progress, -, nodup⟩ := h
  have hmem : a ∈ (s.refuse a).halted := (State.mem_refuse_halted s a a).mpr (.inl rfl)
  exact ⟨legal, ac, fifo, dec, enc, room, progress,
    iff_of_true rfl (List.ne_nil_of_mem hmem), State.refuse_nodup s a nodup⟩

theorem withArbiter_inv {s : State} {ac : Arbiter} (h : BlockInv s) (hac : ArbiterInv ac) :
    BlockInv { s with ac := ac } := by
  obtain ⟨legal, -, fifo, dec, enc, room, progress, refusal⟩ := h
  exact ⟨legal, hac, fifo, dec, enc, room, progress, refusal⟩

theorem respond_inv {r : Response} {s t : State} (h : BlockInv s) (ht : respond r s = .next t) : BlockInv t := by
  obtain ⟨-, rfl⟩ | ⟨ac, hrun, hans, rfl⟩ := respond_spec ht
  · exact refuse_inv _ h
  · exact withArbiter_inv h (Arbiter.answer_inv h.arbiter hrun hans)

/-- The FIFO may change while the room that an accepted message needs is left (R233). -/
theorem withFifo_inv {s : State} {fifo : Fifo} (h : BlockInv s) (hfifo : FifoInv s.params.fifoDepth fifo)
    (hspace : s.enc.busy = true → s.fifo.space s.params.fifoDepth ≤ fifo.space s.params.fifoDepth) :
    BlockInv { s with fifo := fifo } := by
  obtain ⟨legal, ac, -, dec, enc, room, progress, refusal⟩ := h
  exact ⟨legal, ac, hfifo, dec, enc, fun hp hb => (room hp hb).trans (hspace hb), progress, refusal⟩

theorem withTaken_inv {s : State} {b : Byte} {fifo : Fifo} (h : BlockInv s) (hne : s.fifo.empty = false)
    (ht : s.fifo.take s.params.fifoDepth = .ok (b, fifo)) : BlockInv { s with fifo := fifo } :=
  withFifo_inv h (Fifo.take_keeps_inv h.queue hne ht) fun _ => Fifo.take_space h.queue hne ht

theorem withDecoder_inv {s : State} {dec : Decoder} (h : BlockInv s) (hdec : DecoderInv dec) :
    BlockInv { s with dec := dec } := by
  obtain ⟨legal, ac, fifo, -, enc, room, progress, refusal⟩ := h
  exact ⟨legal, ac, fifo, hdec, enc, room, progress, refusal⟩

theorem withRead_inv {s : State} {rd : Option ReadOp} (h : BlockInv s)
    (hrd : ∀ op ∈ rd, 0 < op.n.toNat ∧ op.got.length ≤ op.n.toNat) : BlockInv { s with rd := rd } := by
  obtain ⟨legal, ac, fifo, dec, enc, room, ⟨-, hwr⟩, refusal⟩ := h
  exact ⟨legal, ac, fifo, dec, enc, room, ⟨hrd, hwr⟩, refusal⟩

theorem withWrite_inv {s : State} {wr : Option WriteOp} (h : BlockInv s) (hwr : ∀ op ∈ wr, op.idx < op.bytes.length) :
    BlockInv { s with wr := wr } := by
  obtain ⟨legal, ac, fifo, dec, enc, room, ⟨hrd, -⟩, refusal⟩ := h
  exact ⟨legal, ac, fifo, dec, enc, room, ⟨hrd, hwr⟩, refusal⟩

theorem readStep_inv {op : ReadOp} {s t : State} (h : BlockInv s) (hop : s.rd = some op)
    (ht : readStep op s = .next t) : BlockInv t := by
  obtain ⟨-, -, rfl⟩ | ⟨-, -, rfl⟩ | ⟨b, fifo, hne, hmore, htake, rfl⟩ := readStep_spec ht
  · exact h
  · exact reply_inv _ _ (withRead_inv h nofun)
  · obtain ⟨hpos, hle⟩ := h.progress.1 op hop
    refine withRead_inv (withTaken_inv h hne htake) fun op' hop' => ?_
    cases hop'
    simp only [List.length_append, List.length_singleton]
    omega

/-- A message is taken only with room for it under ATOMIC (R229, R233). -/
theorem encodeStart_inv {ty : Byte} {payload : List Byte} {s t : State} (h : BlockInv s)
    (hlen : payload.length ≤ 65535) (ht : encodeStart ty payload s = .next t) : BlockInv t := by
  obtain ⟨-, -, rfl⟩ | ⟨hroom, rfl⟩ := encodeStart_spec ht
  · exact reply_inv _ _ (withFifo_inv (fifo := { s.fifo with ovf := true }) h h.queue fun _ => le_rfl)
  · obtain ⟨legal, ac, fifo, dec, -, -, progress, refusal⟩ := h
    refine ⟨legal, ac, fifo, dec, Encoder.begin_inv _ ty hlen, fun hp _ => ?_, progress, refusal⟩
    simpa using hroom hp

/-- A push step uses one slot for one byte, so the rest of the message still fits (R231, R233). -/
theorem encodeStep_inv {s t : State} (h : BlockInv s) (hbusy : s.enc.busy = true) (ht : encodeStep s = .next t) :
    BlockInv t := by
  obtain ⟨legal, ac, fifo, dec, enc, room, progress, refusal⟩ := h
  obtain ⟨b, ok, fifo', -, hpush, hcases⟩ := encodeStep_spec ht
  have hfifo := Fifo.push_keeps_inv fifo hpush
  have hspace := Fifo.push_space fifo hpush
  obtain ⟨-, rfl⟩ | ⟨-, hlast, rfl⟩ | ⟨rfl, hmore, rfl⟩ := hcases
  · exact ⟨legal, ac, hfifo, dec, Encoder.end_inv enc enc.2.1, fun _ => nofun, progress, refusal⟩
  · exact ⟨legal, ac, hfifo, dec, Encoder.end_inv enc hlast.le, fun _ => nofun, progress, refusal⟩
  · refine ⟨legal, ac, hfifo, dec, Encoder.advance_inv enc hbusy hmore, fun hp _ => ?_, progress, refusal⟩
    have := room hp hbusy
    simp only [if_true] at hspace ⊢
    omega

theorem writeAdvance_inv {op : WriteOp} {s : State} (h : BlockInv s) (hidx : op.idx < op.bytes.length) :
    BlockInv (writeAdvance op s) := by
  obtain ⟨-, -, e⟩ | ⟨-, -, e⟩ | ⟨hmore, e⟩ := writeAdvance_spec op s
  · rw [e]
    exact reply_inv _ _ (withWrite_inv h nofun)
  · rw [e]
    exact withWrite_inv h nofun
  · rw [e]
    refine withWrite_inv h fun op' hop' => ?_
    cases hop'
    simp only
    omega

theorem writeStep_inv {op : WriteOp} {s t : State} (h : BlockInv s) (hop : s.wr = some op)
    (ht : writeStep op s = .next t) : BlockInv t := by
  obtain ⟨-, rfl⟩ | ⟨b, dec, hpend, -, hfeed, rfl⟩ := writeStep_spec ht
  · exact h
  · exact writeAdvance_inv (withDecoder_inv h (Decoder.feed_inv h.decoder hpend hfeed)) (h.progress.2 op hop)

theorem acceptStep_inv {s t : State} (h : BlockInv s) (ht : acceptStep s = .next t) : BlockInv t := by
  obtain ⟨-, rfl⟩ | ⟨msg, -, -, rfl⟩ := acceptStep_spec ht
  · exact h
  · exact reply_inv _ _ (withDecoder_inv h (Decoder.accepted_inv h.decoder))

/-- Every effect keeps the invariant. -/
theorem Effect.inv {a : Agent} {s t : State} (he : Effect a s t) (h : BlockInv s) : BlockInv t := by
  cases he with
  | pass => exact h
  | refuse => exact refuse_inv a h
  | reply bytes => exact h
  | acStart hidle => exact withArbiter_inv h s.ac.start_inv
  | cancel hrun => exact withArbiter_inv h (Arbiter.cancel_inv h.arbiter hrun)
  | respond r ht => exact respond_inv h ht
  | takeFrame frame => exact h
  | push bytes hfree hpush =>
    have hfifo := Fifo.push_keeps_inv h.queue hpush
    exact reply_inv _ _ (withFifo_inv h hfifo fun hb => absurd hb (by simp [hfree]))
  | pop bytes hne htake => exact reply_inv _ _ (withTaken_inv h hne htake)
  | beginRead hn =>
    refine withRead_inv h fun op hop => ?_
    cases hop
    exact ⟨Nat.pos_of_ne_zero fun e => hn (BitVec.eq_of_toNat_eq e), Nat.zero_le _⟩
  | readStep hop ht => exact readStep_inv h hop ht
  | encodeStart hlen ht => exact encodeStart_inv h hlen ht
  | encodeStep hbusy ht => exact encodeStep_inv h hbusy ht
  | feed hpend hfeed => exact withDecoder_inv h (Decoder.feed_inv h.decoder hpend hfeed)
  | beginWrite replies hne =>
    refine withWrite_inv h fun op hop => ?_
    cases hop
    exact List.length_pos_iff.mpr hne
  | writeStep hop ht => exact writeStep_inv h hop ht
  | acceptStep ht => exact acceptStep_inv h ht

/-- The packets and turns to come are inputs, of which the invariant says nothing (log entry 5). -/
theorem taken_inv {s : State} (pending : List Packet) (h : BlockInv s) : BlockInv (taken s pending) := h

/-- Settles O59: a step is an effect, or RESET, on the state without the turn and the packet, and each of them keeps the
invariant. -/
theorem invariantIsKept : Obligations.InvariantIsKept := by
  intro s t hinv hstep
  obtain rfl | ⟨a, pending, -, heffect | ⟨-, -, rfl⟩⟩ := step_effect hstep
  · exact hinv
  · exact heffect.inv (taken_inv pending hinv)
  · exact applyReset_inv (taken_inv pending hinv)

/-! ## No step of a state of the invariant faults (R76, R241, R314) -/

/-! ### The operations that can fault -/

theorem respond_next {s : State} (h : BlockInv s) (r : Response) : ∃ t, respond r s = .next t := by
  unfold respond
  split
  · exact ⟨_, rfl⟩
  · rename_i hrun
    obtain ⟨ac, hans⟩ := (h.arbiter.running hrun).answer_ok s.params.collBit r
    exact ⟨{ s with ac := ac }, by rw [hans]⟩

theorem execFifoPush_next {s : State} (h : BlockInv s) (b : Byte) : ∃ t, execFifoPush b s = .next t := by
  obtain ⟨-, -, ⟨-, -, hhead, -⟩, -⟩ := h
  rw [execFifoPush, Fifo.push_ok b hhead]
  by_cases hfull : s.fifo.full s.params.fifoDepth = true
  · rw [if_pos hfull]
    exact ⟨_, rfl⟩
  · rw [if_neg hfull]
    exact ⟨_, rfl⟩

theorem execFifoPop_next {s : State} (h : BlockInv s) : ∃ t, execFifoPop s = .next t := by
  unfold execFifoPop
  split
  · exact ⟨_, rfl⟩
  · rename_i hne
    obtain ⟨b, -, htake⟩ := Fifo.take_ok h.queue (by simpa using hne)
    rw [htake]
    exact ⟨_, rfl⟩

theorem readStep_next {s : State} (h : BlockInv s) (op : ReadOp) : ∃ t, readStep op s = .next t := by
  unfold readStep
  split
  · exact ⟨_, rfl⟩
  · split
    · exact ⟨_, rfl⟩
    · rename_i hmore
      obtain ⟨b, -, htake⟩ := Fifo.take_ok h.queue (by simpa using (not_or.mp hmore).2)
      rw [htake]
      exact ⟨_, rfl⟩

theorem encodeStart_next (ty : Byte) (payload : List Byte) (s : State) : ∃ t, encodeStart ty payload s = .next t := by
  unfold encodeStart
  simp only
  split
  all_goals exact ⟨_, rfl⟩

theorem encodeStep_next {s : State} (h : BlockInv s) (hbusy : s.enc.busy = true) : ∃ t, encodeStep s = .next t := by
  obtain ⟨-, -, ⟨-, -, hhead, -⟩, -, ⟨-, -, henc⟩, -⟩ := h
  obtain ⟨-, hidx⟩ := henc hbusy
  rw [encodeStep, List.getElem?_eq_getElem hidx]
  simp only [Fifo.push_ok _ hhead]
  by_cases hfull : s.fifo.full s.params.fifoDepth = true
  · rw [if_pos hfull]
    exact ⟨_, rfl⟩
  · rw [if_neg hfull]
    simp only
    split
    all_goals exact ⟨_, rfl⟩

theorem execFrmDec_next {s : State} (h : BlockInv s) (b : Byte) : ∃ t, execFrmDec b s = .next t := by
  unfold execFrmDec
  split
  · exact ⟨_, rfl⟩
  · obtain ⟨dec, hfeed⟩ := Decoder.feed_ok h.decoder s.params.lenOrder b
    rw [hfeed]
    exact ⟨_, rfl⟩

theorem writeStep_next {s : State} (h : BlockInv s) {op : WriteOp} (hop : s.wr = some op) :
    ∃ t, writeStep op s = .next t := by
  have hidx : op.idx < op.bytes.length := h.progress.2 op hop
  unfold writeStep
  split
  · exact ⟨_, rfl⟩
  · rw [List.getElem?_eq_getElem hidx]
    obtain ⟨dec, hfeed⟩ := Decoder.feed_ok h.decoder s.params.lenOrder op.bytes[op.idx]
    simp only [hfeed]
    exact ⟨_, rfl⟩

theorem acceptStep_next {s : State} (h : BlockInv s) : ∃ t, acceptStep s = .next t := by
  unfold acceptStep
  split
  · rename_i hpend
    obtain ⟨msg, hmsg⟩ := Decoder.message_isSome h.decoder hpend s.params.lenOrder
    rw [hmsg]
    exact ⟨_, rfl⟩
  · exact ⟨_, rfl⟩

theorem presentFrame_next (frame : List Bool) (s : State) : ∃ t, presentFrame frame s = .next t := by
  obtain ⟨-, e⟩ | ⟨-, e⟩ := presentFrame_spec frame s
  all_goals exact ⟨_, e⟩

/-! ### Instructions, operations in progress and packets -/

/-- Every instruction answers a next state. -/
theorem exec_next {s : State} (h : BlockInv s) (i : Instr) : ∃ t, exec i s = .next t := by
  cases i with
  | reset => exact ⟨_, rfl⟩
  | cancel => exact ⟨_, rfl⟩
  | acStart =>
    simp only [exec, execAcStart]
    split
    all_goals exact ⟨_, rfl⟩
  | acRespTimeout => exact respond_next h _
  | acRespXerr => exact respond_next h _
  | acRespFrame nbits coll data => exact respond_next h _
  | acRespBytes data => exact respond_next h _
  | acRespColl nbits c data => exact respond_next h _
  | acStatus => exact ⟨_, rfl⟩
  | acDesc => exact ⟨_, rfl⟩
  | fifoPush b => exact execFifoPush_next h b
  | fifoPop => exact execFifoPop_next h
  | fifoRead n =>
    simp only [exec, execFifoRead]
    split
    all_goals exact ⟨_, rfl⟩
  | fifoAvail => exact ⟨_, rfl⟩
  | fifoSpace => exact ⟨_, rfl⟩
  | frmDec b => exact execFrmDec_next h b
  | frmWrite bytes =>
    simp only [exec, execFrmWrite]
    split
    all_goals exact ⟨_, rfl⟩
  | frmAccept => exact acceptStep_next h
  | frmEnc ty payload => exact encodeStart_next ty payload s
  | msgIdentifyResp payload => exact encodeStart_next _ payload s
  | msgIdleAck payload => exact encodeStart_next _ payload s
  | msgDetectedTag payload => exact encodeStart_next _ payload s
  | msgSelectedTag payload => exact encodeStart_next _ payload s
  | msgTransceiveResp payload => exact encodeStart_next _ payload s
  | msgIdentify payload => exact ⟨_, rfl⟩
  | msgIdle payload => exact ⟨_, rfl⟩
  | msgDiscover payload => exact ⟨_, rfl⟩
  | msgSelect payload => exact ⟨_, rfl⟩
  | msgTransceive payload => exact ⟨_, rfl⟩
  | rfReqa => exact presentFrame_next _ s
  | rfAnticollCl1 known => exact presentFrame_next _ s
  | rfAnticollCl2 known => exact presentFrame_next _ s
  | rfAnticollCl3 known => exact presentFrame_next _ s
  | rfSelectCl1 cl => exact presentFrame_next _ s
  | rfSelectCl2 cl => exact presentFrame_next _ s
  | rfSelectCl3 cl => exact presentFrame_next _ s

theorem continueOp_next {s : State} (h : BlockInv s) (a : Agent) : ∃ t, continueOp a s = .next t := by
  cases a with
  | worker =>
    simp only [continueOp]
    split
    · exact encodeStep_next h ‹_›
    · exact ⟨_, rfl⟩
  | consumer =>
    simp only [continueOp]
    split
    · exact ⟨_, rfl⟩
    · exact readStep_next h _
  | writer =>
    simp only [continueOp]
    split
    · exact ⟨_, rfl⟩
    · exact writeStep_next h ‹_›
  | sink =>
    simp only [continueOp]
    split
    · exact acceptStep_next h
    · exact ⟨_, rfl⟩
  | transport => exact ⟨_, rfl⟩
  | host => exact ⟨_, rfl⟩

/-- Words that are no instruction of the agent's own stop the machine only as wire bytes that are no whole message (R120,
R228, log entry 13). -/
theorem otherWords_next_or_partial (p : Packet) (s : State) :
    (∃ t, otherWords p s = .next t)
    ∨ ((∃ bytes, p.words = .wire bytes ∧ wholeMessage s.params.lenOrder bytes = none)
      ∧ ∃ r, otherWords p s = .refused r) := by
  unfold otherWords
  split
  · rename_i bytes hwords
    unfold carryWire
    split
    · split
      all_goals exact .inl ⟨_, rfl⟩
    · cases hwhole : wholeMessage s.params.lenOrder bytes with
      | none => exact .inr ⟨⟨bytes, hwords, hwhole⟩, _, rfl⟩
      | some m => exact .inl (encodeStart_next m.1 m.2 s)
    all_goals exact .inl ⟨_, rfl⟩
  all_goals exact .inl ⟨_, rfl⟩

/-- Wire bytes that are no whole message are no instruction. -/
theorem decode_wire_of_partial {o : LenOrder} {bytes : List Byte} (h : wholeMessage o bytes = none) :
    decode o (.wire bytes) = .error .uncatalogued := by
  simp only [decode, decodeWire, h]

/-- A packet is stopped only where its words are no instruction. -/
theorem issue_next_or_undecoded {s : State} (h : BlockInv s) (p : Packet) :
    (∃ t, issue p s = .next t)
    ∨ ((∃ e, decode s.params.lenOrder p.words = .error e) ∧ ∃ r, issue p s = .refused r) := by
  unfold issue
  cases hd : decode s.params.lenOrder p.words with
  | error e =>
    cases e with
    | reservedCmd => exact .inl ⟨_, rfl⟩
    | reservedColl => exact .inl ⟨_, rfl⟩
    | malformedPacket => exact .inr ⟨⟨_, rfl⟩, _, rfl⟩
    | noSuchFrame => exact .inr ⟨⟨_, rfl⟩, _, rfl⟩
    | uncatalogued => exact (otherWords_next_or_partial p s).imp_right fun hpart => ⟨⟨_, rfl⟩, hpart.2⟩
  | ok i =>
    simp only
    split
    · exact .inl (exec_next h i)
    · obtain hnext | ⟨⟨bytes, hwords, hwhole⟩, -⟩ := otherWords_next_or_partial p s
      · exact .inl hnext
      · rw [hwords, decode_wire_of_partial hwhole] at hd
        cases hd

/-- A step answers a next state, or refuses words that are no instruction. -/
theorem step_next_or_undecoded {s : State} (h : BlockInv s) :
    (∃ t, step s = .next t)
    ∨ ((∃ p rest e, Issues s p rest ∧ decode s.params.lenOrder p.words = .error e) ∧ ∃ r, step s = .refused r) := by
  cases hs : s.sched with
  | nil => exact .inl ⟨s, step_of_no_turn hs⟩
  | cons a rest =>
    have hturn : Turn a s := by rw [Turn, hs, List.head?_cons]
    by_cases hhalted : a ∈ s.halted
    · exact .inl ⟨_, step_of_halted hturn hhalted⟩
    · have hlive : LiveTurn a s := ⟨hturn, hhalted⟩
      cases hbusy : s.busy a with
      | true =>
        obtain ⟨t, ht⟩ := continueOp_next (taken_inv s.pending h) a
        exact .inl ⟨t, (step_of_busy hlive hbusy).trans ht⟩
      | false =>
        cases hp : takePacket a s.pending with
        | none => exact .inl ⟨_, step_of_no_packet hlive hbusy hp⟩
        | some packet =>
          obtain ⟨p, others⟩ := packet
          obtain rfl := (takePacket_spec hp).1
          have hissues : Issues s p others := ⟨hlive, hbusy, hp⟩
          rw [step_of_issues hissues]
          exact (issue_next_or_undecoded (taken_inv others h) p).imp_right fun ⟨⟨e, he⟩, hr⟩ =>
            ⟨⟨p, others, e, hissues, he⟩, hr⟩

/-- Settles O60: the step answers a next state, or refuses words that are no instruction; it never faults. -/
theorem noStepFaults : Obligations.NoStepFaults := by
  intro s hinv
  obtain ⟨t, ht⟩ | ⟨hundecoded, r, hr⟩ := step_next_or_undecoded hinv
  · rw [ht]
    exact ⟨fun f => nofun, fun r => nofun⟩
  · rw [hr]
    exact ⟨fun f => nofun, fun _ _ => hundecoded⟩

end Sys2Proof.Machine

/-! ## What every step preserves: the parameters, the refusal mark, the outputs and the overflow flag (R46, R54, R56) -/

namespace Sys2Proof.Machine

/-- What no step takes back: the parameters are the same, `REFUSED` and the halted agents stay, no output is lost. -/
structure Persists (s t : State) : Prop where
  params : t.params = s.params
  refused : s.refused = true → t.refused = true
  halted : ∀ a ∈ s.halted, a ∈ t.halted
  replies : s.replies <+: t.replies
  rfOut : s.rfOut <+: t.rfOut

theorem Persists.refl (s : State) : Persists s s := ⟨rfl, id, fun _ h => h, List.prefix_rfl, List.prefix_rfl⟩

/-- A later step of an operation only adds replies. -/
theorem KeepsRest.persists {s t : State} (h : KeepsRest s t) (hr : s.replies <+: t.replies) : Persists s t where
  params := h.params
  refused := h.refused ▸ id
  halted := h.halted ▸ fun _ ha => ha
  replies := hr
  rfOut := h.rfOut ▸ List.prefix_rfl

theorem refuse_persists (s : State) (a : Agent) : Persists s (s.refuse a) where
  params := rfl
  refused := fun _ => rfl
  halted := fun b hb => (State.mem_refuse_halted s a b).mpr (.inr hb)
  replies := List.prefix_rfl
  rfOut := List.prefix_rfl

theorem respond_persists {r : Response} {s t : State} (h : respond r s = .next t) : Persists s t := by
  obtain ⟨-, rfl⟩ | ⟨ac, -, -, rfl⟩ := respond_spec h
  · exact refuse_persists s _
  · exact ⟨rfl, id, fun _ ha => ha, List.prefix_rfl, List.prefix_rfl⟩

theorem readStep_replies {op : ReadOp} {s t : State} (h : readStep op s = .next t) : s.replies <+: t.replies := by
  obtain ⟨-, -, rfl⟩ | ⟨-, -, rfl⟩ | ⟨b, fifo, -, -, -, rfl⟩ := readStep_spec h
  · exact List.prefix_rfl
  · exact List.prefix_append _ _
  · exact List.prefix_rfl

theorem encodeStart_persists {ty : Byte} {payload : List Byte} {s t : State} (h : encodeStart ty payload s = .next t) :
    Persists s t := by
  obtain ⟨-, -, rfl⟩ | ⟨-, rfl⟩ := encodeStart_spec h
  · exact ⟨rfl, id, fun _ ha => ha, List.prefix_append _ _, List.prefix_rfl⟩
  · exact ⟨rfl, id, fun _ ha => ha, List.prefix_rfl, List.prefix_rfl⟩

theorem encodeStep_replies {s t : State} (h : encodeStep s = .next t) : s.replies <+: t.replies := by
  obtain ⟨b, ok, fifo, -, -, ⟨-, rfl⟩ | ⟨-, -, rfl⟩ | ⟨-, -, rfl⟩⟩ := encodeStep_spec h
  · exact List.prefix_append _ _
  · exact List.prefix_append _ _
  · exact List.prefix_rfl

theorem writeAdvance_replies (op : WriteOp) (s : State) : s.replies <+: (writeAdvance op s).replies := by
  obtain ⟨-, -, e⟩ | ⟨-, -, e⟩ | ⟨-, e⟩ := writeAdvance_spec op s
  · rw [e]
    exact List.prefix_append _ _
  · rw [e]
  · rw [e]

theorem writeStep_replies {op : WriteOp} {s t : State} (h : writeStep op s = .next t) : s.replies <+: t.replies := by
  obtain ⟨-, rfl⟩ | ⟨b, dec, -, -, -, rfl⟩ := writeStep_spec h
  · exact List.prefix_rfl
  · exact writeAdvance_replies op { s with dec := dec }

theorem acceptStep_replies {s t : State} (h : acceptStep s = .next t) : s.replies <+: t.replies := by
  obtain ⟨-, rfl⟩ | ⟨msg, -, -, rfl⟩ := acceptStep_spec h
  · exact List.prefix_rfl
  · exact List.prefix_append _ _

theorem Effect.persists {a : Agent} {s t : State} (he : Effect a s t) : Persists s t := by
  cases he with
  | pass => exact .refl s
  | refuse => exact refuse_persists s a
  | respond r h => exact respond_persists h
  | takeFrame frame => exact ⟨rfl, id, fun _ ha => ha, List.prefix_rfl, List.prefix_append _ _⟩
  | readStep hop h => exact (readStep_keepsRest h).persists (readStep_replies h)
  | encodeStart hlen h => exact encodeStart_persists h
  | encodeStep hbusy h => exact (encodeStep_keepsRest h).persists (encodeStep_replies h)
  | writeStep hop h => exact (writeStep_keepsRest h).persists (writeStep_replies h)
  | acceptStep h => exact (acceptStep_keepsRest h).persists (acceptStep_replies h)
  | reply | push | pop => exact ⟨rfl, id, fun _ ha => ha, List.prefix_append _ _, List.prefix_rfl⟩
  | acStart | cancel | beginRead | feed | beginWrite => exact ⟨rfl, id, fun _ ha => ha, List.prefix_rfl, List.prefix_rfl⟩

theorem step_persists {s t : State} (h : step s = .next t) : Persists s t := by
  obtain rfl | ⟨a, pending, -, heffect | ⟨-, -, rfl⟩⟩ := step_effect h
  · exact .refl t
  · obtain ⟨params, refused, halted, replies, rfOut⟩ := heffect.persists
    exact ⟨params, refused, halted, replies, rfOut⟩
  · exact ⟨rfl, id, fun _ ha => ha, List.prefix_rfl, List.prefix_rfl⟩

/-- Settles O12: no effect, and no RESET, takes any of these back. -/
theorem parametersAndMarkPersist : Obligations.ParametersAndMarkPersist := by
  intro s t hstep
  obtain ⟨params, refused, halted, replies, rfOut⟩ := step_persists hstep
  exact ⟨params, refused, halted, replies, rfOut⟩

/-! ### The overflow flag -/

theorem encodeStart_ovf {ty : Byte} {payload : List Byte} {s t : State} (h : encodeStart ty payload s = .next t)
    (ho : s.fifo.ovf = true) : t.fifo.ovf = true := by
  obtain ⟨-, -, rfl⟩ | ⟨-, rfl⟩ := encodeStart_spec h
  · rfl
  · exact ho

theorem encodeStep_ovf {s t : State} (h : encodeStep s = .next t) (ho : s.fifo.ovf = true) : t.fifo.ovf = true := by
  obtain ⟨b, ok, fifo, -, hpush, hcases⟩ := encodeStep_spec h
  have hovf := Fifo.push_ovf hpush ho
  obtain ⟨-, rfl⟩ | ⟨-, -, rfl⟩ | ⟨-, -, rfl⟩ := hcases
  all_goals exact hovf

theorem readStep_ovf {op : ReadOp} {s t : State} (h : readStep op s = .next t) : t.fifo.ovf = s.fifo.ovf := by
  obtain ⟨-, -, rfl⟩ | ⟨-, -, rfl⟩ | ⟨b, fifo, -, -, htake, rfl⟩ := readStep_spec h
  · rfl
  · rfl
  · exact Fifo.take_ovf htake

theorem respond_fifo {r : Response} {s t : State} (h : respond r s = .next t) : t.fifo = s.fifo := by
  obtain ⟨-, rfl⟩ | ⟨ac, -, -, rfl⟩ := respond_spec h
  all_goals rfl

theorem writeAdvance_fifo (op : WriteOp) (s : State) : (writeAdvance op s).fifo = s.fifo := by
  obtain ⟨-, -, e⟩ | ⟨-, -, e⟩ | ⟨-, e⟩ := writeAdvance_spec op s
  all_goals exact (congrArg State.fifo e).trans rfl

theorem writeStep_fifo {op : WriteOp} {s t : State} (h : writeStep op s = .next t) : t.fifo = s.fifo := by
  obtain ⟨-, rfl⟩ | ⟨b, dec, -, -, -, rfl⟩ := writeStep_spec h
  · rfl
  · exact writeAdvance_fifo op _

theorem acceptStep_fifo {s t : State} (h : acceptStep s = .next t) : t.fifo = s.fifo := by
  obtain ⟨-, rfl⟩ | ⟨msg, -, -, rfl⟩ := acceptStep_spec h
  all_goals rfl

/-- No effect clears `FIFO_OVF`. -/
theorem Effect.ovf {a : Agent} {s t : State} (he : Effect a s t) (ho : s.fifo.ovf = true) : t.fifo.ovf = true := by
  cases he with
  | push bytes hfree h => exact Fifo.push_ovf h ho
  | pop bytes hne h => exact (Fifo.take_ovf h).trans ho
  | readStep hop h => exact (readStep_ovf h).trans ho
  | encodeStart hlen h => exact encodeStart_ovf h ho
  | encodeStep hbusy h => exact encodeStep_ovf h ho
  | respond r h => exact (respond_fifo h).symm ▸ ho
  | writeStep hop h => exact (writeStep_fifo h).symm ▸ ho
  | acceptStep h => exact (acceptStep_fifo h).symm ▸ ho
  | pass | refuse | reply | acStart | cancel | takeFrame | beginRead | feed | beginWrite => exact ho

/-- Settles O47: no effect clears the flag, and what is left of a step is HOST running RESET. -/
theorem overflowFlagIsSticky : Obligations.OverflowFlagIsSticky := by
  intro s t hstep hovf
  obtain rfl | ⟨a, pending, hturn, heffect | ⟨rfl, hruns, -⟩⟩ := step_effect hstep
  · exact .inl hovf
  · exact .inl (heffect.ovf hovf)
  · exact .inr ⟨hturn, hruns⟩

/-! ## Refused packets (R100, R103, R105, R318) -/

/-- The CMD values R105 reserves. -/
theorem decodePacket_reservedCmd (o : LenOrder) {c : Byte} (more : List Byte)
    (hc : c = 0 ∨ (0x03 ≤ c.toNat ∧ c.toNat ≤ 0x0F) ∨ (0x16 ≤ c.toNat ∧ c.toNat ≤ 0x1F)
      ∨ (0x25 ≤ c.toNat ∧ c.toNat ≤ 0x2F) ∨ 0x34 ≤ c.toNat) :
    decodePacket o (c :: more) = .error .reservedCmd := by
  simp only [decodePacket]
  split
  case h_18 => rfl
  all_goals exact absurd hc (by decide)

/-- The COLL values R103 reserves. -/
theorem decodeColl_reserved {c : Byte}
    (hc : (c.getLsbD 7 = true ∧ c.getLsbD 6 = true) ∨ (c.getLsbD 7 = false ∧ c ≠ 0)) :
    decodeColl c = .error .reservedColl := by
  obtain ⟨h7, h6⟩ | ⟨h7, hne⟩ := hc
  · simp only [decodeColl, h7, h6, if_true]
  · simp only [decodeColl, h7, hne, if_false, Bool.false_eq_true]

theorem decodePacket_reservedColl (o : LenOrder) (nbits : Byte) {c : Byte} (more : List Byte)
    (hc : (c.getLsbD 7 = true ∧ c.getLsbD 6 = true) ∨ (c.getLsbD 7 = false ∧ c ≠ 0)) :
    decodePacket o (0x13 :: nbits :: c :: more) = .error .reservedColl := by
  change decodeFrameOperands (nbits :: c :: more) = _
  simp only [decodeFrameOperands, decodeColl_reserved hc]

theorem decodePort_of_packet_error {o : LenOrder} {bs : List Byte} {e : DecodeError}
    (h : decodePacket o bs = .error e) : decode o (.port bs) = .error e := by
  simp only [decode, decodePort, h]

/-- A reserved CMD or COLL refuses the packet. -/
theorem issue_of_reserved {p : Packet} {s : State}
    (h : decode s.params.lenOrder p.words = .error .reservedCmd ∨ decode s.params.lenOrder p.words = .error .reservedColl) :
    issue p s = .next (s.refuse p.agent) := by
  obtain h | h := h
  all_goals simp only [issue, h, rejectWords]

/-- A port packet of another agent's operation is refused (R31). -/
theorem issue_of_other_agent {p : Packet} {s : State} {bytes : List Byte} {i : Instr} (hw : p.words = .port bytes)
    (hd : decode s.params.lenOrder p.words = .ok i) (ha : agentOf i ≠ p.agent) :
    issue p s = .next (s.refuse p.agent) := by
  have hother : otherWords p s = .next (s.refuse p.agent) := by simp only [otherWords, hw]
  simp only [issue, hd, ha, if_false, hother]

theorem acStart_refused {s : State} (h : s.ac.state ≠ .idle) : exec .acStart s = .next (s.refuse .worker) :=
  if_neg h

theorem respond_refused {s : State} (r : Response) (h : s.ac.state = .idle) :
    respond r s = .next (s.refuse .transport) :=
  if_pos h

/-- Settles O11: each of the five refusals is one branch of the packet checks or of the operation. -/
theorem refusalsOnlySetTheMark : Obligations.RefusalsOnlySetTheMark := by
  refine ⟨?cmd, ?coll, ?agent, fun s => acStart_refused, ?response, ?mark⟩
  case cmd =>
    intro s p rest c more hissues hwords hc
    refine (step_of_issues hissues).trans (issue_of_reserved (.inl ?_))
    rw [hwords]
    exact decodePort_of_packet_error (decodePacket_reservedCmd _ more hc)
  case coll =>
    intro s p rest nbits c more hissues hwords hc
    refine (step_of_issues hissues).trans (issue_of_reserved (.inr ?_))
    rw [hwords]
    exact decodePort_of_packet_error (decodePacket_reservedColl _ nbits more hc)
  case agent =>
    intro s p rest bytes i hissues hwords hd ha
    exact (step_of_issues hissues).trans (issue_of_other_agent hwords hd ha)
  case response =>
    intro s i hi hidle
    obtain ⟨r, hr⟩ := exec_of_response hi
    exact (hr s).trans (respond_refused r hidle)
  case mark =>
    intro s a
    exact ⟨⟨rfl, rfl, rfl, rfl, rfl, rfl, rfl⟩, fun i => ⟨rfl, rfl⟩, rfl,
      (State.mem_refuse_halted s a a).mpr (.inl rfl), fun u => step_of_halted⟩

/-! ## The packet of each operation (R31, R101, R103) -/

/-- An AC_RESP_FRAME packet, under whichever of its names (R108). -/
theorem encode_of_frameOperands (o : LenOrder) {i : Instr} {nbits : Byte} {coll : Option (BitVec 6)} {data : List Byte}
    (h : frameOperands i = some (nbits, coll, data)) :
    encode o i = .port (encodeFrame nbits coll data) ∧ agentOf i = .transport := by
  cases i <;> cases h
  all_goals exact ⟨rfl, rfl⟩

/-- Settles O10: `encode` and `agentOf` read row by row. -/
theorem packetTable : Obligations.PacketTable := by
  intro o
  refine ⟨⟨rfl, rfl⟩, ⟨rfl, rfl⟩, ⟨rfl, rfl⟩, ⟨rfl, rfl⟩, ⟨rfl, rfl⟩, ?frame, ⟨rfl, rfl⟩, ⟨rfl, rfl⟩,
    fun b => ⟨rfl, rfl⟩, ⟨rfl, rfl⟩, fun n => ⟨rfl, rfl⟩, ⟨rfl, rfl⟩, ⟨rfl, rfl⟩, fun ty payload => ⟨rfl, rfl⟩,
    fun b => ⟨rfl, rfl⟩, fun bytes => ⟨rfl, rfl⟩, ⟨rfl, rfl⟩⟩
  intro i nbits coll data h
  obtain ⟨hwords, hagent⟩ := encode_of_frameOperands o h
  refine ⟨hwords.trans ?_, hagent⟩
  cases coll <;> rfl

/-! ## The outstanding frame (R42, R110 to R115) -/

theorem acTx_of_idle {a : Arbiter} (h : a.state = .idle) : acTx a = none := by
  simp only [acTx, h]

theorem acTx_of_waitAtqa {a : Arbiter} (h : a.state = .waitAtqa) : acTx a = some reqaBits := by
  simp only [acTx, h]

theorem acTx_of_waitAc {a : Arbiter} (h : a.state = .waitAc) :
    acTx a = some (anticollBits a.level (clPrefix a.cl a.known)) := by
  simp only [acTx, h]

theorem acTx_of_waitSak {a : Arbiter} (h : a.state = .waitSak) : acTx a = some (selectBits a.level a.cl) := by
  simp only [acTx, h]

/-- The NVB byte holds the byte count in its high and the bit count in its low half (R112). -/
theorem nvb_eq_or (k : Nat) : nvb k = BitVec.ofNat 8 (((2 + k / 8) <<< 4) ||| (k % 8)) := by
  have hlow : k % 8 < 2 ^ 4 := by omega
  rw [nvb, ← Nat.shiftLeft_add_eq_or_of_lt hlow, Nat.shiftLeft_eq]

/-- Settles O29: `acTx` read state by state, SEL and NVB spelled out. -/
theorem outstandingFrame : Obligations.OutstandingFrame := by
  intro a
  refine ⟨acTx_of_idle, fun h => ?atqa, fun h _ => ?ac, fun h => ?sak⟩
  case atqa =>
    rw [acTx_of_waitAtqa h]
    rfl
  case ac =>
    rw [acTx_of_waitAc h, anticollBits, length_clPrefix, nvb_eq_or]
    cases a.level <;> rfl
  case sak =>
    rw [acTx_of_waitSak h]
    cases a.level <;> rfl

/-- An RF row whose words are the outstanding frame takes it. -/
theorem exec_takes_outstanding {o : LenOrder} {s : State} {i : Instr} {bits : List Bool} (hi : encode o i = .rf bits)
    (ht : acTx s.ac = some bits) : exec i s = .next { s with rfOut := s.rfOut ++ [bits] } :=
  (exec_of_rf_words hi s).trans (if_pos ht)

/-- Settles O30: each row's words are the frame of the arbiter's state, and any other frame is not there. -/
theorem outstandingFrameIsTaken : Obligations.OutstandingFrameIsTaken := by
  intro s
  refine ⟨fun h => ?reqa, fun h i hi => ?anticoll, fun h i hi => ?select, fun o i bits hi hne => ?other⟩
  case reqa => exact exec_takes_outstanding (o := .le) rfl (acTx_of_waitAtqa h)
  case anticoll =>
    refine exec_takes_outstanding (o := .le) ?_ (acTx_of_waitAc h)
    obtain ⟨hl, rfl⟩ | ⟨hl, rfl⟩ | ⟨hl, rfl⟩ := hi
    all_goals rw [hl]; rfl
  case select =>
    refine exec_takes_outstanding (o := .le) ?_ (acTx_of_waitSak h)
    obtain ⟨hl, rfl⟩ | ⟨hl, rfl⟩ | ⟨hl, rfl⟩ := hi
    all_goals rw [hl]; rfl
  case other => exact (exec_of_rf_words hi s).trans (if_neg hne)

end Sys2Proof.Machine

/-! ## Who writes the FIFO, the arbiter and the decoder (R78, R82, R83) -/

namespace Sys2Proof.Machine

theorem Turn.unique {a b : Agent} {s : State} (ha : Turn a s) (hb : Turn b s) : a = b :=
  Option.some.inj (ha.symm.trans hb)

/-! ### FIFO -/

/-- A push writes all of the FIFO but its tail (R275). -/
theorem Fifo.push_tail {n : Nat} {b : Byte} {f f' : Fifo} {ok : Bool} (h : f.push n b = .ok (ok, f')) :
    f'.tail = f.tail := by
  obtain ⟨-, -, rfl⟩ | ⟨-, -, -, rfl⟩ := Fifo.push_spec h
  all_goals rfl

theorem encodeStart_tail {ty : Byte} {payload : List Byte} {s t : State} (h : encodeStart ty payload s = .next t) :
    t.fifo.tail = s.fifo.tail := by
  obtain ⟨-, -, rfl⟩ | ⟨-, rfl⟩ := encodeStart_spec h
  all_goals rfl

theorem encodeStep_tail {s t : State} (h : encodeStep s = .next t) : t.fifo.tail = s.fifo.tail := by
  obtain ⟨b, ok, fifo, -, hpush, hcases⟩ := encodeStep_spec h
  have htail := Fifo.push_tail hpush
  obtain ⟨-, rfl⟩ | ⟨-, -, rfl⟩ | ⟨-, -, rfl⟩ := hcases
  all_goals exact htail

/-- FIFO_READ writes nothing of the FIFO but its tail (R279). -/
theorem readStep_onlyTail {op : ReadOp} {s t : State} (h : readStep op s = .next t) :
    ∃ tail, t.fifo = { s.fifo with tail := tail } := by
  obtain ⟨-, -, rfl⟩ | ⟨-, -, rfl⟩ | ⟨b, fifo, -, -, htake, rfl⟩ := readStep_spec h
  · exact ⟨_, rfl⟩
  · exact ⟨_, rfl⟩
  · exact ⟨_, (Fifo.take_spec htake).2⟩

/-- All an effect can do to the FIFO: WORKER writes what is not the tail, CONSUMER the tail. -/
theorem Effect.fifo {a : Agent} {s t : State} (he : Effect a s t) :
    t.fifo = s.fifo
    ∨ (a = .worker ∧ t.fifo.tail = s.fifo.tail)
    ∨ (a = .consumer ∧ ∃ tail, t.fifo = { s.fifo with tail := tail }) := by
  cases he with
  | push bytes hfree h => exact .inr (.inl ⟨rfl, Fifo.push_tail h⟩)
  | encodeStart hlen h => exact .inr (.inl ⟨rfl, encodeStart_tail h⟩)
  | encodeStep hbusy h => exact .inr (.inl ⟨rfl, encodeStep_tail h⟩)
  | pop bytes hne h => exact .inr (.inr ⟨rfl, _, (Fifo.take_spec h).2⟩)
  | readStep hop h => exact .inr (.inr ⟨rfl, readStep_onlyTail h⟩)
  | respond r h => exact .inl (respond_fifo h)
  | writeStep hop h => exact .inl (writeStep_fifo h)
  | acceptStep h => exact .inl (acceptStep_fifo h)
  | pass | refuse | reply | acStart | cancel | takeFrame | beginRead | feed | beginWrite => exact .inl rfl

/-- Settles O13: the effect is one of the agent whose turn it is, and what is left of a step is HOST running RESET. -/
theorem fifoHasSingleWriters : Obligations.FifoHasSingleWriters := by
  intro s t a hturn hstep
  obtain rfl | ⟨b, pending, hb, hcases⟩ := step_effect hstep
  · exact ⟨fun _ _ => ⟨rfl, rfl, fun _ => rfl⟩, fun _ _ => rfl, fun _ => .inl rfl⟩
  obtain rfl := hturn.unique hb
  obtain heffect | ⟨rfl, -, rfl⟩ := hcases
  · obtain hsame | ⟨rfl, htail⟩ | ⟨rfl, tail, htail⟩ := heffect.fifo
    · rw [hsame]
      exact ⟨fun _ _ => ⟨rfl, rfl, fun _ => rfl⟩, fun _ _ => rfl, fun _ => .inl rfl⟩
    · exact ⟨fun hw => absurd rfl hw, fun _ _ => htail, nofun⟩
    · rw [htail]
      exact ⟨fun _ _ => ⟨rfl, rfl, fun _ => rfl⟩, fun hc => absurd rfl hc, nofun⟩
  · exact ⟨fun _ hh => absurd rfl hh, fun _ hh => absurd rfl hh, fun _ => .inr ⟨rfl, rfl, rfl⟩⟩

/-! ### Decoder -/

theorem respond_dec {r : Response} {s t : State} (h : respond r s = .next t) : t.dec = s.dec := by
  obtain ⟨-, rfl⟩ | ⟨ac, -, -, rfl⟩ := respond_spec h
  all_goals rfl

theorem readStep_dec {op : ReadOp} {s t : State} (h : readStep op s = .next t) : t.dec = s.dec := by
  obtain ⟨-, -, rfl⟩ | ⟨-, -, rfl⟩ | ⟨b, fifo, -, -, -, rfl⟩ := readStep_spec h
  all_goals rfl

theorem encodeStart_dec {ty : Byte} {payload : List Byte} {s t : State} (h : encodeStart ty payload s = .next t) :
    t.dec = s.dec := by
  obtain ⟨-, -, rfl⟩ | ⟨-, rfl⟩ := encodeStart_spec h
  all_goals rfl

theorem encodeStep_dec {s t : State} (h : encodeStep s = .next t) : t.dec = s.dec := by
  obtain ⟨b, ok, fifo, -, -, ⟨-, rfl⟩ | ⟨-, -, rfl⟩ | ⟨-, -, rfl⟩⟩ := encodeStep_spec h
  all_goals rfl

/-- A byte that WRITER feeds finds nothing pending; otherwise WRITER holds (R236). -/
theorem writeStep_dec {op : WriteOp} {s t : State} (h : writeStep op s = .next t) :
    t.dec = s.dec ∨ s.dec.pend = false := by
  obtain ⟨-, rfl⟩ | ⟨b, dec, hpend, -, -, -⟩ := writeStep_spec h
  · exact .inl rfl
  · exact .inr hpend

/-- FRM_ACCEPT takes a pending message, or holds (R246). -/
theorem acceptStep_dec {s t : State} (h : acceptStep s = .next t) :
    t.dec = s.dec ∨ (s.dec.pend = true ∧ t.dec = { s.dec with pend := false }) := by
  obtain ⟨-, rfl⟩ | ⟨msg, hpend, -, rfl⟩ := acceptStep_spec h
  · exact .inl rfl
  · exact .inr ⟨hpend, rfl⟩

/-- All an effect can do to the decoder: `DEC_PEND` says which of WRITER and SINK may write it. -/
theorem Effect.dec {a : Agent} {s t : State} (he : Effect a s t) :
    t.dec = s.dec
    ∨ (a = .writer ∧ s.dec.pend = false)
    ∨ (a = .sink ∧ s.dec.pend = true ∧ t.dec = { s.dec with pend := false }) := by
  cases he with
  | feed hpend h => exact .inr (.inl ⟨rfl, hpend⟩)
  | writeStep hop h => exact (writeStep_dec h).imp_right fun hpend => .inl ⟨rfl, hpend⟩
  | acceptStep h => exact (acceptStep_dec h).imp_right fun htaken => .inr ⟨rfl, htaken⟩
  | respond r h => exact .inl (respond_dec h)
  | readStep hop h => exact .inl (readStep_dec h)
  | encodeStart hlen h => exact .inl (encodeStart_dec h)
  | encodeStep hbusy h => exact .inl (encodeStep_dec h)
  | pass | refuse | reply | acStart | cancel | takeFrame | push | pop | beginRead | beginWrite => exact .inl rfl

/-- Settles O15: the effect is one of the agent whose turn it is, and what is left of a step is HOST running RESET. -/
theorem decoderIsHandedOver : Obligations.DecoderIsHandedOver := by
  intro s t a hturn hstep hne
  obtain rfl | ⟨b, pending, hb, hcases⟩ := step_effect hstep
  · exact absurd rfl hne
  obtain rfl := hturn.unique hb
  obtain heffect | ⟨rfl, -, rfl⟩ := hcases
  · obtain hsame | hwriter | hsink := heffect.dec
    · exact absurd hsame hne
    · exact .inl hwriter
    · exact .inr (.inl hsink)
  · exact .inr (.inr ⟨rfl, rfl⟩)

/-! ### Arbiter -/

theorem encodeStart_ac {ty : Byte} {payload : List Byte} {s t : State} (h : encodeStart ty payload s = .next t) :
    t.ac = s.ac := by
  obtain ⟨-, -, rfl⟩ | ⟨-, rfl⟩ := encodeStart_spec h
  all_goals rfl

theorem presentFrame_ac {frame : List Bool} {s t : State} (h : presentFrame frame s = .next t) : t.ac = s.ac := by
  obtain ⟨-, e⟩ | ⟨-, e⟩ := presentFrame_spec frame s
  all_goals rw [e] at h; cases h; rfl

theorem carryWire_ac {a : Agent} {bytes : List Byte} {s t : State} (h : carryWire a bytes s = .next t) :
    t.ac = s.ac := by
  obtain ⟨-, -, rfl⟩ | ⟨-, -, rfl⟩ | ⟨-, ty, payload, -, he⟩ | rfl := carryWire_spec h
  · rfl
  · rfl
  · exact encodeStart_ac he
  · rfl

theorem execFifoPush_ac {b : Byte} {s t : State} (h : execFifoPush b s = .next t) : t.ac = s.ac := by
  unfold execFifoPush at h
  split at h
  · cases h
  all_goals cases h; rfl

/-- A response that changes the arbiter was not refused, so a run was in progress (R154). -/
theorem respond_ac {r : Response} {s t : State} (h : respond r s = .next t) : t.ac = s.ac ∨ s.ac.state ≠ .idle := by
  obtain ⟨-, rfl⟩ | ⟨ac, hrun, -, -⟩ := respond_spec h
  · exact .inl rfl
  · exact .inr hrun

/-- CONSUMER, WRITER and SINK have no effect on the arbiter. -/
theorem Effect.ac {a : Agent} {s t : State} (he : Effect a s t) (ha : a ∈ [.consumer, .writer, .sink]) :
    t.ac = s.ac := by
  cases he with
  | readStep hop h => exact (readStep_keepsRest h).ac
  | writeStep hop h => exact (writeStep_keepsRest h).ac
  | acceptStep h => exact (acceptStep_keepsRest h).ac
  | pass | refuse | reply | pop | beginRead | feed | beginWrite => rfl
  | acStart | cancel | respond | takeFrame | push | encodeStart | encodeStep => exact absurd ha (by decide)

/-- All an instruction its agent is free to issue can do to the arbiter. -/
theorem exec_ac {i : Instr} {s t : State} (hfree : s.busy (agentOf i) = false) (hw : i.wellFormed = true)
    (h : exec i s = .next t) :
    t.ac = s.ac
    ∨ (i = .acStart ∧ s.ac.state = .idle ∧ t.ac = s.ac.start)
    ∨ (isResponse i = true ∧ s.ac.state ≠ .idle)
    ∨ (i = .cancel ∧ t.ac = { s.ac with cancel := true })
    ∨ (i = .reset ∧ t.ac = Arbiter.reset) := by
  have ofOthers (ha : agentOf i ∈ [.consumer, .writer, .sink]) : t.ac = s.ac := by
    obtain ⟨rfl, -⟩ | heffect := exec_effect hfree hw h
    · exact absurd ha (by decide)
    · exact heffect.ac ha
  have encoded {ty : Byte} {payload : List Byte} (hi : encoderOperands i = some (ty, payload)) : t.ac = s.ac :=
    encodeStart_ac ((exec_of_encoderOperands hi s).symm.trans h)
  have presented {bits : List Bool} (hi : encode .le i = .rf bits) : t.ac = s.ac :=
    presentFrame_ac ((exec_of_rf_words hi s).symm.trans h)
  have responded (hi : isResponse i = true) : t.ac = s.ac ∨ (isResponse i = true ∧ s.ac.state ≠ .idle) := by
    obtain ⟨r, hr⟩ := exec_of_response hi
    exact (respond_ac ((hr s).symm.trans h)).imp_right fun hrun => ⟨hi, hrun⟩
  cases i with
  | reset => cases h; exact .inr (.inr (.inr (.inr ⟨rfl, rfl⟩)))
  | cancel =>
    cases h
    split
    · exact .inl rfl
    · exact .inr (.inr (.inr (.inl ⟨rfl, rfl⟩)))
  | acStart =>
    simp only [exec, execAcStart] at h
    split at h
    · cases h; exact .inr (.inl ⟨rfl, ‹_›, rfl⟩)
    · cases h; exact .inl rfl
  | acRespTimeout | acRespXerr | acRespFrame | acRespBytes | acRespColl =>
    exact (responded rfl).imp_right fun hresp => .inr (.inl hresp)
  | acStatus | acDesc | fifoSpace => cases h; exact .inl rfl
  | fifoPush b => exact .inl (execFifoPush_ac h)
  | frmEnc | msgIdentifyResp | msgIdleAck | msgDetectedTag | msgSelectedTag | msgTransceiveResp =>
    exact .inl (encoded rfl)
  | rfReqa | rfAnticollCl1 | rfAnticollCl2 | rfAnticollCl3 | rfSelectCl1 | rfSelectCl2 | rfSelectCl3 =>
    exact .inl (presented rfl)
  | fifoPop | fifoRead | fifoAvail | frmDec | frmWrite | frmAccept | msgIdentify | msgIdle | msgDiscover | msgSelect
  | msgTransceive => exact .inl (ofOthers (by simp [agentOf]))

/-- Only a step that runs an instruction can write the arbiter: operations in progress, wire bytes and refused packets
leave it as it is. -/
theorem step_ac_or_runs {s t : State} (h : step s = .next t) :
    t.ac = s.ac ∨ ∃ i pending, Turn (agentOf i) s ∧ Runs i s ∧ i.wellFormed = true
      ∧ (taken s pending).busy (agentOf i) = false ∧ exec i (taken s pending) = .next t := by
  obtain ⟨-, rfl⟩ | ⟨a, rest, hs, hcases⟩ := step_spec h
  · exact .inl rfl
  have hturn : Turn a s := by rw [Turn, hs, List.head?_cons]
  obtain rfl : rest = s.sched.tail := by rw [hs, List.tail_cons]
  obtain rfl | ⟨-, -, hop⟩ | ⟨p, pending, hlive, hfree, hp, rfl, hissue⟩ := hcases
  · exact .inl rfl
  · exact .inl (continueOp_keepsRest hop).ac
  · obtain rfl | ⟨i, hd, hi, hexec⟩ | ⟨bytes, -, hwire⟩ := hissue
    · exact .inl rfl
    · refine .inr ⟨i, pending, hi ▸ hturn, ⟨p, pending, ⟨⟨hturn, hlive⟩, hfree, hp⟩, hd, hi⟩, decode_wellFormed hd, ?_,
        hexec⟩
      rw [hi]
      exact (handOver_busy s _).trans hfree
    · exact .inl (carryWire_ac (s := taken s pending) hwire)

theorem agentOf_of_response {i : Instr} (h : isResponse i = true) : agentOf i = .transport := by
  cases i
  case acRespTimeout | acRespXerr | acRespFrame | acRespBytes | acRespColl => rfl
  all_goals cases h

/-- Settles O14: the step runs an instruction of the agent whose turn it is, and four kinds write the arbiter. -/
theorem arbiterHasOneOwner : Obligations.ArbiterHasOneOwner := by
  intro s t a hturn hstep hne
  obtain hsame | ⟨i, pending, hi, hruns, hw, hfree, hexec⟩ := step_ac_or_runs hstep
  · exact absurd hsame hne
  obtain rfl := hturn.unique hi
  obtain hsame | ⟨rfl, hidle, hac⟩ | ⟨hresp, hrun⟩ | ⟨rfl, hac⟩ | ⟨rfl, hac⟩ := exec_ac hfree hw hexec
  · exact absurd hsame hne
  · exact .inl ⟨rfl, hruns, hidle, hac⟩
  · exact .inr (.inl ⟨agentOf_of_response hresp, ⟨i, hresp, hruns⟩, hrun⟩)
  · exact .inr (.inr (.inl ⟨rfl, hruns, hac⟩))
  · exact .inr (.inr (.inr ⟨rfl, hruns, hac⟩))

/-! ## The room of an accepted message (R233) -/

/-- A FIFO with room for one byte is not full (R272, R273). -/
theorem Fifo.not_full_of_space {n : Nat} {f : Fifo} (h : 0 < f.space n) : f.full n = false := by
  refine Bool.eq_false_iff.mpr fun hfull => ?_
  have hocc := Fifo.full_iff.mp hfull
  rw [Fifo.space] at h
  omega

theorem respond_room {r : Response} {s t : State} (h : AtomicRoom s) (ht : respond r s = .next t) : AtomicRoom t := by
  obtain ⟨-, rfl⟩ | ⟨ac, -, -, rfl⟩ := respond_spec ht
  all_goals exact h

/-- CONSUMER only makes room. -/
theorem readStep_room {op : ReadOp} {s t : State} (hf : FifoInv s.params.fifoDepth s.fifo) (h : AtomicRoom s)
    (ht : readStep op s = .next t) : AtomicRoom t := by
  obtain ⟨-, -, rfl⟩ | ⟨-, -, rfl⟩ | ⟨b, fifo, hne, -, htake, rfl⟩ := readStep_spec ht
  · exact h
  · exact h
  · exact fun hp hb => (h hp hb).trans (Fifo.take_space hf hne htake)

/-- A message is accepted under ATOMIC only when all of it fits (R228, R229). -/
theorem encodeStart_room {ty : Byte} {payload : List Byte} {s t : State} (h : AtomicRoom s)
    (ht : encodeStart ty payload s = .next t) : AtomicRoom t := by
  obtain ⟨-, -, rfl⟩ | ⟨hfits, rfl⟩ := encodeStart_spec ht
  · exact h
  · exact fun hp _ => by simpa using hfits hp

/-- A push step takes one slot for one byte (R231). -/
theorem encodeStep_room {s t : State} (hf : FifoInv s.params.fifoDepth s.fifo) (h : AtomicRoom s)
    (hbusy : s.enc.busy = true) (ht : encodeStep s = .next t) : AtomicRoom t := by
  obtain ⟨b, ok, fifo, -, hpush, hcases⟩ := encodeStep_spec ht
  have hspace := Fifo.push_space hf hpush
  obtain ⟨-, rfl⟩ | ⟨-, -, rfl⟩ | ⟨rfl, -, rfl⟩ := hcases
  · exact fun _ => nofun
  · exact fun _ => nofun
  · intro hp _
    have hroom := h hp hbusy
    simp only [if_true] at hspace ⊢
    omega

theorem writeStep_room {op : WriteOp} {s t : State} (h : AtomicRoom s) (ht : writeStep op s = .next t) :
    AtomicRoom t := by
  obtain ⟨-, rfl⟩ | ⟨b, dec, -, -, -, rfl⟩ := writeStep_spec ht
  · exact h
  · obtain ⟨-, -, e⟩ | ⟨-, -, e⟩ | ⟨-, e⟩ := writeAdvance_spec op { s with dec := dec }
    all_goals rw [e]; exact h

theorem acceptStep_room {s t : State} (h : AtomicRoom s) (ht : acceptStep s = .next t) : AtomicRoom t := by
  obtain ⟨-, rfl⟩ | ⟨msg, -, -, rfl⟩ := acceptStep_spec ht
  all_goals exact h

/-- No effect takes the room of an accepted message: WORKER, the one agent that pushes, pushes only that message until
it is done (R78). -/
theorem Effect.room {a : Agent} {s t : State} (he : Effect a s t) (hf : FifoInv s.params.fifoDepth s.fifo)
    (h : AtomicRoom s) : AtomicRoom t := by
  cases he with
  | push bytes hfree hpush => exact fun _ hbusy => absurd hbusy (by simp [hfree])
  | pop bytes hne htake => exact fun hp hb => (h hp hb).trans (Fifo.take_space hf hne htake)
  | readStep hop ht => exact readStep_room hf h ht
  | encodeStart hlen ht => exact encodeStart_room h ht
  | encodeStep hbusy ht => exact encodeStep_room hf h hbusy ht
  | respond r ht => exact respond_room h ht
  | writeStep hop ht => exact writeStep_room h ht
  | acceptStep ht => exact acceptStep_room h ht
  | pass | refuse | reply | acStart | cancel | takeFrame | beginRead | feed | beginWrite => exact h

theorem step_room {s t : State} (hf : FifoInv s.params.fifoDepth s.fifo) (h : AtomicRoom s) (ht : step s = .next t) :
    AtomicRoom t := by
  obtain rfl | ⟨a, pending, -, heffect | ⟨-, -, rfl⟩⟩ := step_effect ht
  · exact h
  · exact heffect.room (s := taken s pending) hf h
  · exact fun _ => nofun

/-- Settles O52: the room is kept by every effect, and a busy encoder has a byte to push that needs a slot of it. -/
theorem acceptedMessagesAlwaysFit : Obligations.AcceptedMessagesAlwaysFit := by
  intro s t _ hf ⟨_, _, henc⟩ h hstep
  refine ⟨step_room hf h hstep, fun hp hbusy => Fifo.not_full_of_space ?_⟩
  have hroom := h hp hbusy
  have hdue := (henc hbusy).2
  omega

end Sys2Proof.Machine

/-! ## Port packets: what the operands read, and the words they are read from (R100 to R104, R108) -/

namespace Sys2Proof

open Machine (frameOperands encode_of_frameOperands)

/-! ### The operands -/

theorem splitBytes_eq_ok {n : Nat} {bs data rest : List Byte} :
    splitBytes n bs = .ok (data, rest) ↔ bs = data ++ rest ∧ data.length = n := by
  constructor
  · intro h
    refine ⟨?_, splitBytes_length h⟩
    unfold splitBytes at h
    split at h
    · cases h
      exact (List.take_append_drop n bs).symm
    · cases h
  · rintro ⟨rfl, rfl⟩
    simp [splitBytes]

/-- The COLL byte holds the flag in bit 7, 0 in bit 6 and the position in the low six bits (R103). -/
theorem getLsbD_encodeColl_some (c : BitVec 6) (k : Nat) (hk : k < 8) :
    (encodeColl (some c)).getLsbD k = (c.getLsbD k || k == 7) := by
  have hflag : ∀ j < 8, (0x80 : Byte).getLsbD j = (j == 7) := by decide
  rw [encodeColl, BitVec.getLsbD_or, hflag k hk, Bool.or_comm]
  simp [hk]

theorem decodeColl_encodeColl (coll : Option (BitVec 6)) : decodeColl (encodeColl coll) = .ok coll := by
  cases coll with
  | none => rfl
  | some c =>
    have hpos : (encodeColl (some c)).extractLsb' 0 6 = c := by
      apply BitVec.eq_of_getLsbD_eq
      intro k hk
      rw [BitVec.getLsbD_extractLsb', Nat.zero_add, getLsbD_encodeColl_some c k (by omega)]
      simp [hk, show k ≠ 7 by omega]
    have h7 : (encodeColl (some c)).getLsbD 7 = true := by
      rw [getLsbD_encodeColl_some c 7 (by decide), beq_self_eq_true, Bool.or_true]
    have h6 : (encodeColl (some c)).getLsbD 6 = false := by
      rw [getLsbD_encodeColl_some c 6 (by decide), BitVec.getLsbD_of_ge c 6 (le_refl 6)]
      rfl
    rw [decodeColl, if_pos h7, h6, if_neg Bool.false_ne_true, hpos]

theorem encodeColl_of_decodeColl {b : Byte} {coll : Option (BitVec 6)} (h : decodeColl b = .ok coll) :
    encodeColl coll = b := by
  unfold decodeColl at h
  split at h
  next h7 =>
    split at h
    · cases h
    next h6 =>
      cases h
      apply BitVec.eq_of_getLsbD_eq
      intro k hk
      rw [getLsbD_encodeColl_some _ k hk, BitVec.getLsbD_extractLsb', Nat.zero_add]
      obtain rfl | rfl | hlt : k = 7 ∨ k = 6 ∨ k < 6 := by omega
      · simp [h7]
      · rw [Bool.eq_false_of_not_eq_true h6]
        rfl
      · simp [hlt, show k ≠ 7 by omega]
  · split at h
    next h0 =>
      cases h
      exact h0.symm
    · cases h

theorem decodeFrameOperands_eq_ok {bs rest : List Byte} {i : Instr} :
    decodeFrameOperands bs = .ok (i, rest) ↔
      ∃ nbits coll data, bs = nbits :: encodeColl coll :: data ++ rest ∧ data.length = dataBytes nbits
        ∧ i = spellFrame nbits coll data := by
  constructor
  · intro h
    unfold decodeFrameOperands at h
    split at h
    · split at h
      · cases h
      next hcoll =>
        split at h
        · cases h
        next hsplit =>
          cases h
          obtain ⟨rfl, hlen⟩ := splitBytes_eq_ok.mp hsplit
          exact ⟨_, _, _, by rw [encodeColl_of_decodeColl hcoll]; rfl, hlen, rfl⟩
    · cases h
  · rintro ⟨nbits, coll, data, rfl, hlen, rfl⟩
    simp [decodeFrameOperands, decodeColl_encodeColl, splitBytes_eq_ok.mpr ⟨rfl, hlen⟩]

theorem decodeByteOperand_eq_ok {f : Byte → Instr} {bs rest : List Byte} {i : Instr} :
    decodeByteOperand f bs = .ok (i, rest) ↔ ∃ b, bs = b :: rest ∧ i = f b := by
  constructor
  · intro h
    cases bs with
    | nil => cases h
    | cons b bs => cases h; exact ⟨b, rfl, rfl⟩
  · rintro ⟨b, rfl, rfl⟩
    rfl

theorem decodeU16Operand_eq_ok {o : LenOrder} {f : U16 → Instr} {bs rest : List Byte} {i : Instr} :
    decodeU16Operand o f bs = .ok (i, rest) ↔ ∃ n, bs = u16 o n ++ rest ∧ i = f n := by
  constructor
  · intro h
    unfold decodeU16Operand at h
    split at h
    · cases h
      exact ⟨_, by rw [u16_len16]; rfl, rfl⟩
    · cases h
  · rintro ⟨n, rfl, rfl⟩
    obtain ⟨x1, x2, hbytes, hn⟩ := u16_eq o n
    rw [hbytes, ← hn]
    rfl

theorem decodeCounted_eq_ok {o : LenOrder} {f : List Byte → Instr} {bs rest : List Byte} {i : Instr} :
    decodeCounted o f bs = .ok (i, rest) ↔
      ∃ bytes, bytes.length ≤ 65535 ∧ bs = u16 o (BitVec.ofNat 16 bytes.length) ++ bytes ++ rest ∧ i = f bytes := by
  constructor
  · intro h
    unfold decodeCounted at h
    split at h
    next x1 x2 more =>
      split at h
      · cases h
      next hsplit =>
        cases h
        obtain ⟨rfl, hlen⟩ := splitBytes_eq_ok.mp hsplit
        have := (len16 o x1 x2).isLt
        refine ⟨_, by omega, ?_, rfl⟩
        rw [hlen, BitVec.ofNat_toNat, BitVec.setWidth_eq, u16_len16]
        rfl
    · cases h
  · rintro ⟨bytes, hlen, rfl, rfl⟩
    obtain ⟨x1, x2, hcount, hn⟩ := Laws.PacketLength.count_read_back o hlen
    simp [decodeCounted, hcount, splitBytes_eq_ok.mpr ⟨rfl, hn.symm⟩]

theorem decodeEncOperands_eq_ok {o : LenOrder} {bs rest : List Byte} {i : Instr} :
    decodeEncOperands o bs = .ok (i, rest) ↔
      ∃ ty payload, payload.length ≤ 65535 ∧ bs = ser o ty payload ++ rest ∧ i = .frmEnc ty payload := by
  constructor
  · intro h
    cases bs with
    | nil => cases h
    | cons ty more =>
      obtain ⟨payload, hlen, rfl, rfl⟩ := decodeCounted_eq_ok.mp h
      exact ⟨ty, payload, hlen, rfl, rfl⟩
  · rintro ⟨ty, payload, hlen, rfl, rfl⟩
    exact decodeCounted_eq_ok.mpr ⟨payload, hlen, rfl, rfl⟩

/-! ### The names of an AC_RESP_FRAME packet (R108, log entry 11) -/

/-- A whole number of bytes is counted by its bits without loss. -/
theorem ofNat_dataBytes_of_wholeBytes {nbits : Byte} (h : wholeBytes nbits = true) :
    BitVec.ofNat 8 (8 * dataBytes nbits) = nbits := by
  simp only [wholeBytes, Bool.and_eq_true, beq_iff_eq] at h
  have hdata : 8 * dataBytes nbits = nbits.toNat := by simp only [dataBytes]; omega
  rw [hdata, BitVec.ofNat_toNat, BitVec.setWidth_eq]

/-- Whichever name a frame packet is given, its words are the packet's. -/
theorem frameOperands_spellFrame (coll : Option (BitVec 6)) {nbits : Byte} {data : List Byte}
    (h : data.length = dataBytes nbits) : frameOperands (spellFrame nbits coll data) = some (nbits, coll, data) := by
  cases coll with
  | some c => rfl
  | none =>
    by_cases hw : wholeBytes nbits = true
    · simp [spellFrame, hw, frameOperands, h, ofNat_dataBytes_of_wholeBytes hw]
    · simp [spellFrame, hw, frameOperands]

/-- A well-formed frame instruction is the one name of its packet. -/
theorem spellFrame_of_frameOperands {i : Instr} {nbits : Byte} {coll : Option (BitVec 6)} {data : List Byte}
    (hw : i.wellFormed = true) (h : frameOperands i = some (nbits, coll, data)) :
    i = spellFrame nbits coll data ∧ data.length = dataBytes nbits := by
  cases i <;> cases h
  case acRespFrame =>
    simp only [Instr.wellFormed, Bool.and_eq_true, Option.isNone_iff_eq_none, Bool.not_eq_true', beq_iff_eq] at hw
    obtain ⟨⟨rfl, hpart⟩, hlen⟩ := hw
    exact ⟨by simp [spellFrame, hpart], hlen⟩
  case acRespBytes =>
    simp only [Instr.wellFormed, Bool.and_eq_true, decide_eq_true_eq] at hw
    have hn : (BitVec.ofNat 8 (8 * data.length)).toNat = 8 * data.length := by
      rw [BitVec.toNat_ofNat, Nat.mod_eq_of_lt (by omega)]
    have hne : BitVec.ofNat 8 (8 * data.length) ≠ 0 := fun e => by
      have hzero : 8 * data.length = 0 := hn.symm.trans (congrArg BitVec.toNat e)
      omega
    have hwhole : wholeBytes (BitVec.ofNat 8 (8 * data.length)) = true := by
      rw [wholeBytes, hn, Nat.mul_mod_right, bne_iff_ne.mpr hne]
      rfl
    exact ⟨by simp [spellFrame, hwhole], by rw [dataBytes, hn]; omega⟩
  case acRespColl =>
    simp only [Instr.wellFormed, beq_iff_eq] at hw
    exact ⟨rfl, hw⟩

/-! ### The packets -/

/-- The packet read is the words of the instruction, at the front of the bytes. -/
theorem decodePacket_spec {o : LenOrder} {bs rest : List Byte} {i : Instr} (h : decodePacket o bs = .ok (i, rest)) :
    ∃ packet, encode o i = .port packet ∧ bs = packet ++ rest := by
  unfold decodePacket at h
  split at h
  · cases h
  · split at h
    -- AC_RESP_FRAME.
    case h_6 =>
      obtain ⟨nbits, coll, data, rfl, hlen, rfl⟩ := decodeFrameOperands_eq_ok.mp h
      obtain ⟨hwords, -⟩ := encode_of_frameOperands o (frameOperands_spellFrame coll hlen)
      exact ⟨_, hwords, rfl⟩
    -- FIFO_PUSH.
    case h_9 => obtain ⟨b, rfl, rfl⟩ := decodeByteOperand_eq_ok.mp h; exact ⟨_, rfl, rfl⟩
    -- FIFO_READ.
    case h_11 => obtain ⟨n, rfl, rfl⟩ := decodeU16Operand_eq_ok.mp h; exact ⟨_, rfl, rfl⟩
    -- FRM_ENC.
    case h_14 => obtain ⟨ty, payload, -, rfl, rfl⟩ := decodeEncOperands_eq_ok.mp h; exact ⟨_, rfl, rfl⟩
    -- FRM_DEC.
    case h_15 => obtain ⟨b, rfl, rfl⟩ := decodeByteOperand_eq_ok.mp h; exact ⟨_, rfl, rfl⟩
    -- FRM_WRITE.
    case h_16 => obtain ⟨bytes, -, rfl, rfl⟩ := decodeCounted_eq_ok.mp h; exact ⟨_, rfl, rfl⟩
    -- A reserved CMD.
    case h_18 => cases h
    -- The packets without operands.
    all_goals cases h; exact ⟨_, rfl, rfl⟩

theorem decodePacket_encodeFrame {o : LenOrder} {i : Instr} {nbits : Byte} {coll : Option (BitVec 6)}
    {data : List Byte} (rest : List Byte) (hw : i.wellFormed = true) (h : frameOperands i = some (nbits, coll, data)) :
    decodePacket o (encodeFrame nbits coll data ++ rest) = .ok (i, rest) := by
  obtain ⟨hi, hlen⟩ := spellFrame_of_frameOperands hw h
  exact decodeFrameOperands_eq_ok.mpr ⟨nbits, coll, data, rfl, hlen, hi⟩

/-- The words of a port operation are read back from the front of any bytes. -/
theorem decodePacket_encode {o : LenOrder} {i : Instr} {packet : List Byte} (rest : List Byte)
    (hw : i.wellFormed = true) (h : encode o i = .port packet) : decodePacket o (packet ++ rest) = .ok (i, rest) := by
  cases i <;> cases h
  case acRespFrame | acRespBytes | acRespColl => exact decodePacket_encodeFrame rest hw rfl
  case fifoRead n => exact decodeU16Operand_eq_ok.mpr ⟨n, rfl, rfl⟩
  case frmEnc ty payload => exact decodeEncOperands_eq_ok.mpr ⟨ty, payload, of_decide_eq_true hw, rfl, rfl⟩
  case frmWrite bytes => exact decodeCounted_eq_ok.mpr ⟨bytes, of_decide_eq_true hw, rfl, rfl⟩
  all_goals rfl

theorem decodePort_eq_ok {o : LenOrder} {bs : List Byte} {i : Instr} :
    decodePort o bs = .ok i ↔ decodePacket o bs = .ok (i, []) := by
  unfold decodePort
  split
  next e he => simp [he]
  next j hj => simp [hj]
  next j b bs hj => simp [hj]

/-- The port decoder and the encoder agree. -/
theorem decodePort_eq_ok_iff_encode {o : LenOrder} {bs : List Byte} {i : Instr} :
    decodePort o bs = .ok i ↔ encode o i = .port bs ∧ i.wellFormed = true := by
  rw [decodePort_eq_ok]
  constructor
  · intro h
    obtain ⟨packet, hwords, rfl⟩ := decodePacket_spec h
    rw [List.append_nil]
    exact ⟨hwords, decodePacket_wellFormed h⟩
  · rintro ⟨hwords, hw⟩
    simpa using decodePacket_encode [] hw hwords

end Sys2Proof

/-! ## RF frames and wire messages, and the decoder as a whole (R110 to R114, R120 to R123) -/

namespace Sys2Proof

/-! ### Bytes of a frame -/

theorem bytesToBitsLSB_append (as bs : List Byte) :
    bytesToBitsLSB (as ++ bs) = bytesToBitsLSB as ++ bytesToBitsLSB bs :=
  List.flatMap_append

/-- Two bit strings of one length that agree in every position are equal. -/
theorem bits_ext {as bs : List Bool} (hlen : as.length = bs.length)
    (h : ∀ i, i < as.length → as.getD i false = bs.getD i false) : as = bs := by
  apply List.ext_getElem hlen
  intro i ha hb
  rw [← List.getD_eq_getElem as false ha, ← List.getD_eq_getElem bs false hb]
  exact h i ha

/-- A byte sent in a frame is read back at its place. -/
theorem frameByte_bytesToBitsLSB_append (bs : List Byte) (tail : List Bool) {j : Nat} (hj : j < bs.length) :
    frameByte (bytesToBitsLSB bs ++ tail) j = bs.getD j 0 := by
  rw [← ofBits_getLsbD (bs.getD j 0)]
  apply ofBits_congr
  intro i hi
  rw [List.getD_append _ _ _ _ (by rw [length_bytesToBitsLSB]; omega), getD_bytesToBitsLSB,
    show (8 * j + i) / 8 = j by omega, show (8 * j + i) % 8 = i by omega]

/-- A frame of two bytes or more is its first two bytes and what follows them. -/
theorem frame_eq_header_append {bits : List Bool} (h : 16 ≤ bits.length) :
    bits = bytesToBitsLSB [frameByte bits 0, frameByte bits 1] ++ bits.drop 16 := by
  conv_lhs => rw [← List.take_append_drop 16 bits]
  congr 1
  apply bits_ext
  · simp [h]
  · intro i hi
    have hi : i < 16 := by simpa [h] using hi
    have hbit : ∀ j, j * 8 ≤ i → i < j * 8 + 8 → (frameByte bits j).getLsbD (i % 8) = bits.getD i false := by
      intro j hlo hhi
      rw [frameByte, getLsbD_ofBits _ _ (by omega), show 8 * j + i % 8 = i by omega]
    rw [getD_bytesToBitsLSB, List.getD_eq_getElem?_getD, List.getElem?_take_of_lt hi, ← List.getD_eq_getElem?_getD]
    obtain hlo | hhi : i < 8 ∨ 8 ≤ i := by omega
    · rw [show i / 8 = 0 by omega]
      exact (hbit 0 (by omega) (by omega)).symm
    · rw [show i / 8 = 1 by omega]
      exact (hbit 1 (by omega) (by omega)).symm

@[simp] theorem length_clBytes (cl : BitVec 40) : (clBytes cl).length = 5 := rfl

/-- The five bytes of a UID CLn carry its bits in order (R19). -/
theorem getD_bytesToBitsLSB_clBytes (cl : BitVec 40) {p : Nat} (hp : p < 40) :
    (bytesToBitsLSB (clBytes cl)).getD p false = cl.getLsbD p := by
  have hbyte : ∀ j, j < 5 → (clBytes cl).getD j 0 = clByte cl j := by
    intro j hj
    interval_cases j <;> rfl
  have hbit : 8 * (p / 8) + p % 8 = p := by omega
  rw [getD_bytesToBitsLSB, hbyte _ (by omega), clByte, BitVec.getLsbD_extractLsb', hbit]
  simp [Nat.mod_lt]

/-- Forty bits are the bytes of the UID CLn they spell. -/
theorem bytesToBitsLSB_clBytes_ofBits {tail : List Bool} (h : tail.length = 40) :
    bytesToBitsLSB (clBytes (ofBits 40 fun i => tail.getD i false)) = tail := by
  apply bits_ext
  · simp [h]
  · intro i hi
    have hi : i < 40 := by simpa using hi
    rw [getD_bytesToBitsLSB_clBytes _ hi, getLsbD_ofBits _ _ hi]

/-! ### RF frames -/

theorem levelOfSel_eq_some {b : Byte} {l : Level} : levelOfSel b = some l ↔ b = sel l := by
  constructor
  · intro h
    unfold levelOfSel at h
    split at h <;> cases h <;> rfl
  · rintro rfl
    cases l <;> rfl

/-- No count of at most 39 known bits is the NVB that marks SELECT (R112, R114). -/
theorem nvb_ne_select {k : Nat} (hk : k ≤ 39) : nvb k ≠ 0x70 := by
  intro h
  have hval := congrArg BitVec.toNat h
  rw [nvb, BitVec.toNat_ofNat, Nat.mod_eq_of_lt (by omega)] at hval
  have : (0x70 : Byte).toNat = 112 := rfl
  omega

theorem encode_anticollInstr (o : LenOrder) (l : Level) (known : List Bool) :
    encode o (anticollInstr l known) = .rf (anticollBits l known) := by
  cases l <;> rfl

theorem encode_selectInstr (o : LenOrder) (l : Level) (cl : BitVec 40) :
    encode o (selectInstr l cl) = .rf (selectBits l cl) := by
  cases l <;> rfl

theorem selectBits_eq_append (l : Level) (cl : BitVec 40) :
    selectBits l cl = bytesToBitsLSB [sel l, 0x70] ++ bytesToBitsLSB (clBytes cl) :=
  bytesToBitsLSB_append _ _

/-- A frame that begins with SEL and NVB is read by those two bytes. -/
theorem decodeRf_header (l : Level) (n : Byte) (tail : List Bool) :
    decodeRf (bytesToBitsLSB [sel l, n] ++ tail) =
      if n = 0x70 then
        if tail.length = 40 then .ok (selectInstr l (ofBits 40 fun i => tail.getD i false)) else .error .noSuchFrame
      else if tail.length ≤ 39 ∧ n = nvb tail.length then .ok (anticollInstr l tail)
      else .error .noSuchFrame := by
  have hlen : (bytesToBitsLSB [sel l, n] ++ tail).length = 16 + tail.length := by simp
  have hreqa : bytesToBitsLSB [sel l, n] ++ tail ≠ reqaBits := fun e => by
    have := congrArg List.length e
    rw [hlen, length_reqaBits] at this
    omega
  have hsel : levelOfSel (frameByte (bytesToBitsLSB [sel l, n] ++ tail) 0) = some l :=
    levelOfSel_eq_some.mpr (frameByte_bytesToBitsLSB_append _ _ (by simp))
  have hnvb : frameByte (bytesToBitsLSB [sel l, n] ++ tail) 1 = n := frameByte_bytesToBitsLSB_append _ _ (by simp)
  have hdrop : (bytesToBitsLSB [sel l, n] ++ tail).drop 16 = tail := List.drop_left' (by simp)
  have htail : ∀ i, (bytesToBitsLSB [sel l, n] ++ tail).getD (16 + i) false = tail.getD i false := fun i => by
    rw [List.getD_append_right _ _ _ _ (by simp)]
    simp
  have h56 : 16 + tail.length = 56 ↔ tail.length = 40 := by omega
  have h55 : 16 + tail.length ≤ 55 ↔ tail.length ≤ 39 := by omega
  have h16 : ¬ 16 + tail.length < 16 := by omega
  simp only [decodeRf, hreqa, hlen, hsel, hnvb, hdrop, htail, h56, h55, h16, if_false, Nat.add_sub_cancel_left]

theorem decodeRf_anticollBits (l : Level) {known : List Bool} (h : known.length ≤ 39) :
    decodeRf (anticollBits l known) = .ok (anticollInstr l known) := by
  rw [anticollBits, decodeRf_header, if_neg (nvb_ne_select h), if_pos ⟨h, rfl⟩]

theorem decodeRf_selectBits (l : Level) (cl : BitVec 40) : decodeRf (selectBits l cl) = .ok (selectInstr l cl) := by
  have hcl : ofBits 40 (fun i => (bytesToBitsLSB (clBytes cl)).getD i false) = cl :=
    (ofBits_congr fun _ hi => getD_bytesToBitsLSB_clBytes cl hi).trans (ofBits_getLsbD cl)
  rw [selectBits_eq_append, decodeRf_header, if_pos rfl, if_pos (by simp), hcl]

/-- A frame that decodes is the frame of the instruction read. -/
theorem encode_of_decodeRf (o : LenOrder) {bits : List Bool} {i : Instr} (h : decodeRf bits = .ok i) :
    encode o i = .rf bits := by
  by_cases hreqa : bits = reqaBits
  · rw [decodeRf, if_pos hreqa] at h
    cases h
    exact congrArg Words.rf hreqa.symm
  by_cases hshort : bits.length < 16
  · rw [decodeRf, if_neg hreqa, if_pos hshort] at h
    cases h
  cases hsel : levelOfSel (frameByte bits 0) with
  | none =>
    simp only [decodeRf, hreqa, hshort, hsel, if_false] at h
    cases h
  | some l =>
    have hframe := frame_eq_header_append (Nat.le_of_not_lt hshort)
    rw [levelOfSel_eq_some.mp hsel] at hframe
    generalize frameByte bits 1 = n at hframe
    generalize bits.drop 16 = tail at hframe
    subst hframe
    rw [decodeRf_header] at h
    split at h
    next hn =>
      split at h
      next hlen =>
        cases h
        rw [encode_selectInstr, selectBits_eq_append, bytesToBitsLSB_clBytes_ofBits hlen, hn]
      · cases h
    · split at h
      next hcount =>
        cases h
        rw [encode_anticollInstr, anticollBits, ← hcount.2]
      · cases h

/-- The frame of a well-formed instruction decodes to it. -/
theorem decodeRf_of_encode {o : LenOrder} {bits : List Bool} {i : Instr} (hw : i.wellFormed = true)
    (h : encode o i = .rf bits) : decodeRf bits = .ok i := by
  cases i <;> cases h
  case rfReqa => exact if_pos rfl
  case rfAnticollCl1 => exact decodeRf_anticollBits .one (of_decide_eq_true hw)
  case rfAnticollCl2 => exact decodeRf_anticollBits .two (of_decide_eq_true hw)
  case rfAnticollCl3 => exact decodeRf_anticollBits .three (of_decide_eq_true hw)
  case rfSelectCl1 cl => exact decodeRf_selectBits .one cl
  case rfSelectCl2 cl => exact decodeRf_selectBits .two cl
  case rfSelectCl3 cl => exact decodeRf_selectBits .three cl

/-- The RF decoder and the encoder agree. -/
theorem decodeRf_eq_ok_iff_encode {o : LenOrder} {bits : List Bool} {i : Instr} :
    decodeRf bits = .ok i ↔ encode o i = .rf bits ∧ i.wellFormed = true :=
  ⟨fun h => ⟨encode_of_decodeRf o h, decodeRf_wellFormed h⟩, fun ⟨hwords, hw⟩ => decodeRf_of_encode hw hwords⟩

/-! ### Wire messages -/

theorem encode_messageInstr (o : LenOrder) {ty : Byte} {payload : List Byte} {i : Instr}
    (h : messageInstr ty payload = some i) : encode o i = .wire (ser o ty payload) := by
  unfold messageInstr at h
  split at h
  all_goals cases h
  all_goals rfl

/-- The words of a well-formed message are one serialised message of its row. -/
theorem messageInstr_of_encode {o : LenOrder} {i : Instr} {bs : List Byte} (hw : i.wellFormed = true)
    (h : encode o i = .wire bs) :
    ∃ ty payload, bs = ser o ty payload ∧ payload.length ≤ 65535 ∧ messageInstr ty payload = some i := by
  cases i <;> cases h
  all_goals exact ⟨_, _, rfl, of_decide_eq_true hw, rfl⟩

/-- The message decoder and the encoder agree. -/
theorem decodeWire_eq_ok_iff_encode {o : LenOrder} {bs : List Byte} {i : Instr} :
    decodeWire o bs = .ok i ↔ encode o i = .wire bs ∧ i.wellFormed = true := by
  constructor
  · intro h
    obtain ⟨ty, payload, hwhole, hi⟩ := decodeWire_spec h
    obtain ⟨rfl, hlen⟩ := wholeMessage_eq_some.mp hwhole
    exact ⟨encode_messageInstr o hi, messageInstr_wellFormed hlen hi⟩
  · rintro ⟨hwords, hw⟩
    obtain ⟨ty, payload, rfl, hlen, hi⟩ := messageInstr_of_encode hw hwords
    simp only [decodeWire, wholeMessage_eq_some.mpr ⟨rfl, hlen⟩, hi]

/-! ### The decoder -/

/-- The decoder and the encoder agree: words decode to `i` exactly when they are the words of a well-formed `i`. -/
theorem decode_eq_ok_iff_encode {o : LenOrder} {w : Words} {i : Instr} :
    decode o w = .ok i ↔ encode o i = w ∧ i.wellFormed = true := by
  cases w with
  | port bytes => exact decodePort_eq_ok_iff_encode
  | rf bits => exact decodeRf_eq_ok_iff_encode
  | wire bytes => exact decodeWire_eq_ok_iff_encode

/-- Settles O1: the decoder reads exactly the words of well-formed instructions. -/
theorem decodeEncodeRoundTrip : Obligations.DecodeEncodeRoundTrip :=
  fun _ _ hw => decode_eq_ok_iff_encode.mpr ⟨rfl, hw⟩

/-- Settles O2: the same agreement, read the other way. -/
theorem decodedWordsEncodeBack : Obligations.DecodedWordsEncodeBack :=
  fun _ _ _ h => decode_eq_ok_iff_encode.mp h

/-- Settles O3: each word is the encoding of the instruction, written out. -/
theorem specWordsDecode : Obligations.SpecWordsDecode := by
  refine ⟨?_, ?_, ?_, ?_, ?_, ?_, ?_, ?_⟩
  all_goals exact decode_eq_ok_iff_encode.mpr ⟨rfl, rfl⟩

end Sys2Proof

/-! ## The length of a packet and the header of a message (R100, R101, R120, R220) -/

namespace Sys2Proof

/-- Every packet of R101 has the length its first bytes announce. -/
theorem packetLength_encode {o : LenOrder} {i : Instr} {packet : List Byte} (hw : i.wellFormed = true)
    (h : encode o i = .port packet) : packetLength o packet = some packet.length := by
  cases i
  case reset => exact Laws.PacketLength.reset o packet hw h
  case cancel => exact Laws.PacketLength.cancel o packet hw h
  case acStart => exact Laws.PacketLength.acStart o packet hw h
  case acRespTimeout => exact Laws.PacketLength.acRespTimeout o packet hw h
  case acRespXerr => exact Laws.PacketLength.acRespXerr o packet hw h
  case acRespFrame nbits coll data => exact Laws.PacketLength.acRespFrame nbits coll data o packet hw h
  case acStatus => exact Laws.PacketLength.acStatus o packet hw h
  case acDesc => exact Laws.PacketLength.acDesc o packet hw h
  case fifoPush b => exact Laws.PacketLength.fifoPush b o packet hw h
  case fifoPop => exact Laws.PacketLength.fifoPop o packet hw h
  case fifoRead n => exact Laws.PacketLength.fifoRead n o packet hw h
  case fifoAvail => exact Laws.PacketLength.fifoAvail o packet hw h
  case fifoSpace => exact Laws.PacketLength.fifoSpace o packet hw h
  case frmEnc ty payload => exact Laws.PacketLength.frmEnc ty payload o packet hw h
  case frmDec b => exact Laws.PacketLength.frmDec b o packet hw h
  case frmWrite bytes => exact Laws.PacketLength.frmWrite bytes o packet hw h
  case frmAccept => exact Laws.PacketLength.frmAccept o packet hw h
  case acRespBytes data => exact Laws.PacketLength.acRespBytes data o packet hw h
  case acRespColl nbits c data => exact Laws.PacketLength.acRespColl nbits c data o packet hw h
  -- RF frames and wire messages are no packets.
  all_goals cases h

/-- Bytes after a whole packet do not change the length its first bytes announce. -/
theorem packetLength_append {o : LenOrder} {packet : List Byte} (rest : List Byte)
    (h : packetLength o packet = some packet.length) : packetLength o (packet ++ rest) = some packet.length := by
  have hbyte : ∀ j, j < packet.length → (packet ++ rest).getD j 0 = packet.getD j 0 :=
    fun j hj => List.getD_append _ _ _ _ hj
  have hcmd : (packet ++ rest).getD 0 0 = packet.getD 0 0 := by
    cases packet with
    | nil => cases h
    | cons c more => rfl
  unfold packetLength at h ⊢
  rw [hcmd]
  split at h
  -- AC_RESP_FRAME: NBITS is in byte 1.
  case h_6 =>
    rw [hbyte 1 (by simp only [Option.some.injEq] at h; omega)]
    exact h
  -- FRM_ENC: LEN16 is in bytes 2 and 3.
  case h_14 =>
    simp only [Option.some.injEq] at h
    rw [hbyte 2 (by omega), hbyte 3 (by omega), h]
  -- FRM_WRITE: the count is in bytes 1 and 2.
  case h_16 =>
    simp only [Option.some.injEq] at h
    rw [hbyte 1 (by omega), hbyte 2 (by omega), h]
  case h_18 => cases h
  all_goals exact h

/-- Settles O4: what the decoder reads is a packet, and a packet has the length its first bytes announce. -/
theorem decoderReadsThePacketLength : Obligations.DecoderReadsThePacketLength := by
  intro o bs rest i h
  obtain ⟨packet, hwords, rfl⟩ := decodePacket_spec h
  have hlen := packetLength_append rest (packetLength_encode (decodePacket_wellFormed h) hwords)
  exact ⟨by simpa using hlen, List.suffix_append packet rest⟩

/-- A U16 has a low and a high byte: LE sends the low one first, BE the high one, and each order reads its own back. -/
theorem u16_low_high (v : U16) :
    ∃ lo hi : Byte, lo.toNat = v.toNat % 256 ∧ hi.toNat = v.toNat / 256 ∧ u16 .le v = [lo, hi] ∧ u16 .be v = [hi, lo]
      ∧ len16 .le lo hi = v ∧ len16 .be hi lo = v := by
  have := v.isLt
  refine ⟨BitVec.ofNat 8 v.toNat, BitVec.ofNat 8 (v.toNat / 256), BitVec.toNat_ofNat _ _, ?high, rfl, rfl,
    len16_u16 .le v, len16_u16 .be v⟩
  case high => rw [BitVec.toNat_ofNat, Nat.mod_eq_of_lt (by omega)]

/-- Settles O5: the header's two length bytes are those of the payload length as a U16. -/
theorem headerCarriesTheLength : Obligations.HeaderCarriesTheLength := by
  intro ty payload hlen
  have hn : (BitVec.ofNat 16 payload.length).toNat = payload.length := by
    rw [BitVec.toNat_ofNat, Nat.mod_eq_of_lt (by omega)]
  obtain ⟨lo, hi, hlo, hhi, hle, hbe, hreadLe, hreadBe⟩ := u16_low_high (BitVec.ofNat 16 payload.length)
  rw [hn] at hlo hhi
  refine ⟨lo, hi, hlo, hhi, ?serLe, ?serBe, ?readLe, ?readBe, length_ser _ _ _⟩
  case serLe => rw [ser, hle]; rfl
  case serBe => rw [ser, hbe]; rfl
  case readLe => rw [hreadLe, hn]
  case readBe => rw [hreadBe, hn]

end Sys2Proof

/-! ## How responses and messages reach the block (R108, R122, R123, R228) -/

namespace Sys2Proof.Machine

/-- An AC_RESP_FRAME packet, under whichever of its names, is the response it carries (R108, R159). -/
theorem exec_of_frameOperands {i : Instr} {nbits : Byte} {coll : Option (BitVec 6)} {data : List Byte}
    (h : frameOperands i = some (nbits, coll, data)) (s : State) :
    exec i s = respond (frameResponse nbits coll data) s := by
  cases i <;> cases h
  all_goals rfl

/-- Settles O28: the words are the packet's as `encode` writes them, and both names carry the same response. -/
theorem pseudoOperationsAreFrames : Obligations.PseudoOperationsAreFrames := by
  refine ⟨fun o data s => ⟨rfl, ?bytes⟩, fun o nbits c data s => ⟨rfl, ?coll⟩⟩
  case bytes =>
    rw [exec_of_frameOperands (i := .acRespBytes data) rfl, exec_of_frameOperands (i := .acRespFrame _ _ _) rfl]
  case coll =>
    rw [exec_of_frameOperands (i := .acRespColl nbits c data) rfl, exec_of_frameOperands (i := .acRespFrame _ _ _) rfl]

/-- Each row of the catalogue is WORKER's, for the encoder, or WRITER's, for the decoder (R123). -/
theorem messageInstr_operands {ty : Byte} {payload : List Byte} {i : Instr} (h : messageInstr ty payload = some i) :
    (agentOf i = .worker ∧ encoderOperands i = some (ty, payload))
    ∨ (agentOf i = .writer ∧ clientOperands i = some (ty, payload)) := by
  unfold messageInstr at h
  split at h
  case h_1 | h_3 | h_5 | h_7 | h_9 => cases h; exact .inr ⟨rfl, rfl⟩
  case h_2 | h_4 | h_6 | h_8 | h_10 => cases h; exact .inl ⟨rfl, rfl⟩
  case h_11 => cases h

/-- A message of the catalogue does what its wire bytes do. -/
theorem exec_of_wire {s : State} {bytes : List Byte} {i : Instr} (h : decode s.params.lenOrder (.wire bytes) = .ok i) :
    exec i s = carryWire (agentOf i) bytes s := by
  obtain ⟨ty, payload, hwhole, hi⟩ := decodeWire_spec h
  obtain ⟨hagent, hops⟩ | ⟨hagent, hops⟩ := messageInstr_operands hi
  · simp only [exec_of_encoderOperands hops, hagent, carryWire, hwhole]
  · obtain ⟨rfl, -⟩ := wholeMessage_eq_some.mp hwhole
    simp only [exec_of_clientOperands hops, hagent, carryWire, ser_ne_nil, if_false]

theorem decode_wire_error {o : LenOrder} {bytes : List Byte} {e : DecodeError}
    (h : decode o (.wire bytes) = .error e) : e = .uncatalogued := by
  simp only [decode, decodeWire] at h
  split at h
  · cases h; rfl
  · split at h <;> cases h
    rfl

/-- Wire bytes are carried, whether or not they are one message of the catalogue (R122). -/
theorem issue_of_wire {p : Packet} {s : State} {bytes : List Byte} (h : p.words = .wire bytes) :
    issue p s = carryWire p.agent bytes s := by
  have hother : otherWords p s = carryWire p.agent bytes s := by simp only [otherWords, h]
  cases hd : decode s.params.lenOrder p.words with
  | error e =>
    obtain rfl := decode_wire_error (h ▸ hd)
    simp only [issue, hd, rejectWords, hother]
  | ok i =>
    by_cases hagent : agentOf i = p.agent
    · rw [issue_of_own_instr hd hagent, ← hagent]
      exact exec_of_wire (h ▸ hd)
    · simp only [issue, hd, hagent, if_false, hother]

theorem encodeStart_rejected {s : State} (ty : Byte) {payload : List Byte} (hp : s.params.ovfPolicy = .atomic)
    (hspace : s.fifo.space s.params.fifoDepth < 3 + payload.length) :
    encodeStart ty payload s
      = .next { s with fifo := { s.fifo with ovf := true }, replies := s.replies ++ [⟨.worker, [0x01]⟩] } :=
  if_pos ⟨hp, by rwa [length_ser]⟩

theorem encodeStart_accepted {s : State} (ty : Byte) {payload : List Byte}
    (h : s.params.ovfPolicy = .truncate ∨ 3 + payload.length ≤ s.fifo.space s.params.fifoDepth) :
    encodeStart ty payload s
      = .next { s with enc := { busy := true, bytes := ser s.params.lenOrder ty payload, idx := 0 } } := by
  refine if_neg fun ⟨hp, hspace⟩ => ?_
  rw [length_ser] at hspace
  obtain htr | hfits := h
  · cases hp.symm.trans htr
  · omega

/-- Settles O49: messages with encoder operands are an `encodeStart`, a client's are a `writeStart`, and wire bytes are
carried to the same two operations. -/
theorem messagesEnterTheBlock : Obligations.MessagesEnterTheBlock := by
  refine ⟨fun s i ty payload hi => ?driver, fun s i ty payload hi => exec_of_clientOperands hi s, ?chunk, ?whole⟩
  case driver =>
    rw [exec_of_encoderOperands hi s]
    exact ⟨encodeStart_rejected ty, encodeStart_accepted ty⟩
  case chunk =>
    intro s p rest bytes hissues hagent hwords hne
    rw [step_of_issues hissues, issue_of_wire hwords, hagent]
    exact if_neg hne
  case whole =>
    intro s p rest ty payload hissues hagent hwords hlen
    have hwhole : wholeMessage s.params.lenOrder (ser s.params.lenOrder ty payload) = some (ty, payload) :=
      wholeMessage_eq_some.mpr ⟨rfl, hlen⟩
    rw [step_of_issues hissues, issue_of_wire hwords, hagent]
    simp only [carryWire, hwhole, exec_of_encoderOperands (i := .frmEnc ty payload) rfl]

end Sys2Proof.Machine

/-! ## The payload layouts (R124 to R127, R179) -/

namespace Sys2Proof.Machine

/-! ### Integers in LEN_ORDER (R120, R124) -/

@[simp] theorem length_bytesLE (n v : Nat) : (bytesLE n v).length = n := by
  rw [bytesLE, List.length_map, List.length_range]

theorem bytesLE_succ (n v : Nat) : bytesLE (n + 1) v = BitVec.ofNat 8 v :: bytesLE n (v / 256) := by
  simp [bytesLE, List.range_succ_eq_map, Nat.pow_succ', Nat.div_div_eq_div_mul]

theorem valueLE_bytesLE (n : Nat) {v : Nat} (h : v < 256 ^ n) : valueLE (bytesLE n v) = v := by
  induction n generalizing v with
  | zero =>
    rw [Nat.lt_one_iff.mp h]
    rfl
  | succ n ih =>
    rw [bytesLE_succ, valueLE, ih (Nat.div_lt_of_lt_mul (by rwa [← Nat.pow_succ'])), BitVec.toNat_ofNat]
    exact Nat.mod_add_div v 256

@[simp] theorem length_intBytes (o : LenOrder) (n v : Nat) : (intBytes o n v).length = n := by
  cases o <;> simp [intBytes]

theorem intValue_intBytes (o : LenOrder) (n : Nat) {v : Nat} (h : v < 256 ^ n) : intValue o (intBytes o n v) = v := by
  cases o <;> simp [intValue, intBytes, valueLE_bytesLE n h]

theorem getD_bytesLE {n i : Nat} (v : Nat) (h : i < n) : (bytesLE n v).getD i 0 = BitVec.ofNat 8 (v / 256 ^ i) := by
  simp [bytesLE, h]

/-- Byte i of a word, by division. -/
theorem ofNat_div_pow_eq_extractLsb' {w : Nat} (v : BitVec w) (i : Nat) :
    BitVec.ofNat 8 (v.toNat / 256 ^ i) = v.extractLsb' (8 * i) 8 := by
  rw [BitVec.extractLsb', Nat.shiftRight_eq_div_pow, Nat.pow_mul]

/-- In LE byte i of the integer is at offset i. -/
theorem getD_intBytes_le {w n i : Nat} (v : BitVec w) (h : i < n) :
    (intBytes .le n v.toNat).getD i 0 = v.extractLsb' (8 * i) 8 :=
  (getD_bytesLE v.toNat h).trans (ofNat_div_pow_eq_extractLsb' v i)

/-- In BE byte i of the integer is at the mirrored offset. -/
theorem getD_intBytes_be {w n i : Nat} (v : BitVec w) (h : i < n) :
    (intBytes .be n v.toNat).getD i 0 = v.extractLsb' (8 * (n - 1 - i)) 8 := by
  rw [intBytes, List.getD_reverse _ (by rwa [length_bytesLE]), length_bytesLE, getD_bytesLE v.toNat (by omega)]
  exact ofNat_div_pow_eq_extractLsb' v _

/-! ### Discover (R124) -/

@[simp] theorem Discover.length_toPayload (o : LenOrder) (d : Discover) : (d.toPayload o).length = 15 := by
  simp [Discover.toPayload]

/-- Offsets 0 to 7 hold the bitmask. -/
theorem Discover.getD_toPayload_protocols (o : LenOrder) (d : Discover) {i : Nat} (h : i < 8) :
    (d.toPayload o).getD i 0 = (intBytes o 8 d.protocols.toNat).getD i 0 := by
  rw [Discover.toPayload, List.append_assoc, List.getD_append _ _ _ _ (by simpa using h)]

/-- Offsets 8 to 11 hold the period. -/
theorem Discover.getD_toPayload_period (o : LenOrder) (d : Discover) {i : Nat} (h : i < 4) :
    (d.toPayload o).getD (8 + i) 0 = (intBytes o 4 d.period.toNat).getD i 0 := by
  rw [Discover.toPayload, List.append_assoc, List.getD_append_right _ _ _ _ (by simp), length_intBytes,
    Nat.add_sub_cancel_left, List.getD_append _ _ _ _ (by simpa using h)]

theorem Discover.drop_toPayload (o : LenOrder) (d : Discover) :
    (d.toPayload o).drop 12 = [d.deviceCount, d.maxBitrate, d.flags] :=
  List.drop_left' (by simp)

/-- Offsets 12 to 14 hold the three bytes. -/
theorem Discover.getD_toPayload_tail (o : LenOrder) (d : Discover) (i : Nat) :
    (d.toPayload o).getD (12 + i) 0 = [d.deviceCount, d.maxBitrate, d.flags].getD i 0 := by
  rw [← Discover.drop_toPayload o d]
  simp [List.getD_eq_getElem?_getD]

theorem Discover.ofPayload_toPayload (o : LenOrder) (d : Discover) : Discover.ofPayload o (d.toPayload o) = some d := by
  have hprotocols : intValue o ((d.toPayload o).take 8) = d.protocols.toNat := by
    rw [Discover.toPayload, List.append_assoc, List.take_left' (length_intBytes _ _ _)]
    exact intValue_intBytes o 8 d.protocols.isLt
  have hperiod : intValue o (((d.toPayload o).drop 8).take 4) = d.period.toNat := by
    rw [Discover.toPayload, List.append_assoc, List.drop_left' (length_intBytes _ _ _),
      List.take_left' (length_intBytes _ _ _)]
    exact intValue_intBytes o 4 d.period.isLt
  have h12 := Discover.getD_toPayload_tail o d 0
  have h13 := Discover.getD_toPayload_tail o d 1
  have h14 := Discover.getD_toPayload_tail o d 2
  rw [Discover.ofPayload, if_pos (Discover.length_toPayload o d), hprotocols, hperiod, h12, h13, h14]
  simp

/-! ### Select (R125) -/

/-- The lengths of a UID (R37, R125). -/
abbrev UidLength (n : Nat) : Prop := n = 4 ∨ n = 7 ∨ n = 10

/-- A UID length byte is read back as that length. -/
theorem UidLength.ofNat {n : Nat} (h : UidLength n) :
    ((BitVec.ofNat 8 n : Byte) = 4 ∨ (BitVec.ofNat 8 n : Byte) = 7 ∨ (BitVec.ofNat 8 n : Byte) = 10)
      ∧ (BitVec.ofNat 8 n).toNat = n := by
  obtain rfl | rfl | rfl := h
  all_goals decide

theorem SelectRequest.toPayload_of_uidLength {r : SelectRequest} (h : UidLength r.uid.length) :
    r.toPayload = some ([r.familyTag, BitVec.ofNat 8 r.uid.length] ++ r.uid) :=
  if_pos h

theorem SelectRequest.ofPayload_of_uidLength (f : Byte) {uid : List Byte} (h : UidLength uid.length) :
    SelectRequest.ofPayload ([f, BitVec.ofNat 8 uid.length] ++ uid) = some ⟨f, uid⟩ :=
  if_pos ⟨h.ofNat.1, h.ofNat.2.symm⟩

/-- Bytes read as a Select request are the bytes of that request. -/
theorem SelectRequest.toPayload_of_ofPayload {bytes : List Byte} {r : SelectRequest}
    (h : SelectRequest.ofPayload bytes = some r) : r.toPayload = some bytes := by
  unfold SelectRequest.ofPayload at h
  split at h
  next f n uid =>
    split at h
    next hread =>
      obtain ⟨hn, hlen⟩ := hread
      cases h
      have huid : UidLength uid.length := by
        rw [hlen]
        obtain rfl | rfl | rfl := hn
        all_goals decide
      rw [SelectRequest.toPayload_of_uidLength huid, hlen, BitVec.ofNat_toNat, BitVec.setWidth_eq]
      rfl
    · cases h
  · cases h

/-! ### Transceive (R126) -/

theorem Transceive.length_toPayload (o : LenOrder) (t : Transceive) :
    (t.toPayload o).length = 3 + t.data.length := by
  simp only [Transceive.toPayload, List.length_append, length_u16, List.length_cons]
  omega

theorem Transceive.ofPayload_toPayload (o : LenOrder) {t : Transceive} (h : t.data.length ≤ 512) :
    Transceive.ofPayload o (t.toPayload o) = some t := by
  obtain ⟨c1, c2, hbytes, hcount⟩ := u16_eq o t.count
  rw [Transceive.toPayload, hbytes]
  simp [Transceive.ofPayload, h, hcount]

/-! ### The tag descriptor (R127, R179) -/

theorem descPayload_eq (p : Params) (a : Arbiter) (ats : List Byte) :
    descPayload p a ats = [p.familyTagA, a.atqa[0], a.atqa[1], a.sak, BitVec.ofNat 8 a.uidLen]
      ++ a.uid.toList.take a.uidLen ++ [BitVec.ofNat 8 ats.length] ++ ats := by
  have hatqa : a.atqa.toList = [a.atqa[0], a.atqa[1]] := by
    apply List.ext_getElem (by simp)
    intro i hi _
    have hi : i < 2 := by simpa using hi
    interval_cases i <;> rfl
  rw [descPayload, hatqa]
  simp

/-- A descriptor is read back when its two length bytes are the lengths of what follows them. -/
theorem TagDescriptor.ofPayload_append (f q0 q1 sak : Byte) {uid ats : List Byte} (huid : UidLength uid.length)
    (hats : ats.length ≤ 255) :
    TagDescriptor.ofPayload ([f, q0, q1, sak, BitVec.ofNat 8 uid.length] ++ uid ++ [BitVec.ofNat 8 ats.length] ++ ats)
      = some ⟨f, q0, q1, sak, uid, ats⟩ := by
  obtain ⟨hn, huidLen⟩ := huid.ofNat
  have hatsLen : (BitVec.ofNat 8 ats.length).toNat = ats.length := by
    rw [BitVec.toNat_ofNat, Nat.mod_eq_of_lt (by omega)]
  generalize hx : BitVec.ofNat 8 ats.length = x at hatsLen
  have hlen : (uid ++ x :: ats).length = uid.length + 1 + ats.length := by
    rw [List.length_append, List.length_cons]
    omega
  have hcount : (uid ++ x :: ats).getD uid.length 0 = x := by
    rw [List.getD_append_right _ _ _ _ le_rfl, Nat.sub_self, List.getD_cons_zero]
  have htake : (uid ++ x :: ats).take uid.length = uid := List.take_left
  have hdrop : (uid ++ x :: ats).drop (uid.length + 1) = ats := by
    rw [List.append_cons, List.drop_left' (by simp)]
  have hread : (BitVec.ofNat 8 uid.length).toNat < (uid ++ x :: ats).length
      ∧ (uid ++ x :: ats).length = (BitVec.ofNat 8 uid.length).toNat + 1
        + ((uid ++ x :: ats).getD (BitVec.ofNat 8 uid.length).toNat 0).toNat := by
    rw [huidLen, hcount, hatsLen, hlen]
    omega
  rw [List.append_assoc, List.append_assoc]
  change TagDescriptor.ofPayload (f :: q0 :: q1 :: sak :: BitVec.ofNat 8 uid.length :: (uid ++ x :: ats)) = _
  rw [TagDescriptor.ofPayload, if_pos ⟨hn, hread⟩, huidLen, htake, hdrop]

/-- Settles O6: each payload by the lemmas of its layout. -/
theorem payloadLayoutsReadBack : Obligations.PayloadLayoutsReadBack := by
  refine ⟨fun o d => ?discover, fun p uid => ?select, fun bytes r => SelectRequest.toPayload_of_ofPayload,
    fun o x hx => ?transceive, fun p a ats huid hats => ?descriptor⟩
  case discover =>
    refine ⟨Discover.length_toPayload o d, Discover.ofPayload_toPayload o d, fun i hi => ?protocols,
      fun i hi => ?period, Discover.drop_toPayload o d⟩
    case protocols =>
      rw [Discover.getD_toPayload_protocols .le d hi, Discover.getD_toPayload_protocols .be d hi]
      exact ⟨getD_intBytes_le d.protocols hi, getD_intBytes_be d.protocols hi⟩
    case period =>
      rw [Discover.getD_toPayload_period .le d hi, Discover.getD_toPayload_period .be d hi]
      exact ⟨getD_intBytes_le d.period hi, getD_intBytes_be d.period hi⟩
  case select =>
    exact ⟨fun h => ⟨_, SelectRequest.toPayload_of_uidLength h, rfl, SelectRequest.ofPayload_of_uidLength _ h⟩,
      fun h4 h7 h10 => if_neg (by simp [h4, h7, h10])⟩
  case transceive =>
    exact ⟨by simp [Transceive.toPayload], Transceive.length_toPayload o x, Transceive.ofPayload_toPayload o hx⟩
  case descriptor =>
    have hlen : (a.uid.toList.take a.uidLen).length = a.uidLen := by
      rw [List.length_take, Vector.length_toList]
      omega
    have hread := TagDescriptor.ofPayload_append p.familyTagA a.atqa[0] a.atqa[1] a.sak
      (uid := a.uid.toList.take a.uidLen) (hlen.symm ▸ huid) hats
    rw [hlen] at hread
    rw [descPayload_eq]
    exact ⟨rfl, by simp [hlen]; omega, hread⟩

end Sys2Proof.Machine

/-! ## AC_START and the response rules up to WAIT_AC, as equations (R150 to R165) -/

namespace Sys2Proof.Machine

/-! ### The received bits (R104) -/

@[simp] theorem length_rxBits (nbits : Byte) (data : List Byte) : (rxBits nbits data).length = nbits.toNat := by
  rw [rxBits, List.length_map, List.length_range]

theorem getD_rxBits {nbits : Byte} (data : List Byte) {i : Nat} (h : i < nbits.toNat) :
    (rxBits nbits data).getD i false = rxBit data i := by
  simp [rxBits, rxBit, List.getD_eq_getElem?_getD, h]

/-- A byte of which all eight bits were received is the DATA byte. -/
theorem getD_bitsToBytesLSB_rxBits {nbits : Byte} (data : List Byte) {j : Nat} (h : 8 * j + 8 ≤ nbits.toNat) :
    (bitsToBytesLSB (rxBits nbits data)).getD j 0 = data.getD j 0 := by
  have hj : j < (nbits.toNat + 7) / 8 := by omega
  have hbyte : (bitsToBytesLSB (rxBits nbits data)).getD j 0
      = ofBits 8 fun i => (rxBits nbits data).getD (8 * j + i) false := by
    simp [bitsToBytesLSB, List.getD_eq_getElem?_getD, hj]
  rw [hbyte]
  refine BitVec.eq_of_getLsbD_eq fun i hi => ?_
  rw [getLsbD_ofBits _ i hi, getD_rxBits data (by omega), rxBit, show (8 * j + i) / 8 = j by omega,
    show (8 * j + i) % 8 = i by omega]

/-! ### Responses to a run in progress -/

theorem respond_of_answer {r : Response} {s : State} {ac : Arbiter} (hs : s.ac.state ≠ .idle)
    (h : s.ac.answer s.params.collBit r = .ok ac) : respond r s = .next { s with ac := ac } := by
  simp only [respond, hs, if_false, h]

theorem respond_cancelled (r : Response) {s : State} (hs : s.ac.state ≠ .idle) (hc : s.ac.cancel = true) :
    respond r s = .next { s with ac := s.ac.finish .cancelled } :=
  respond_of_answer hs (if_pos hc)

theorem Arbiter.answer_of_not_cancelled {a : Arbiter} (hc : a.cancel = false) (collBit : Bool) :
    a.answer collBit .xportError = .ok (a.finish .errTransport)
    ∧ a.answer collBit .timeout = .ok (a.finish (if a.state = .waitAtqa then .noTag else .errTimeout)) :=
  ⟨if_neg (by simp [hc]), if_neg (by simp [hc])⟩

theorem exec_frame_of_waitAtqa {i : Instr} {nbits : Byte} {coll : Option (BitVec 6)} {data : List Byte} {s : State}
    (hi : frameOperands i = some (nbits, coll, data)) (hs : s.ac.state = .waitAtqa) (hc : s.ac.cancel = false) :
    exec i s = .next { s with ac := s.ac.onAtqa (rxBits nbits data) } := by
  rw [exec_of_frameOperands hi]
  exact respond_of_answer (by simp [hs]) (by simp [Arbiter.answer, frameResponse, hs, hc])

theorem exec_frame_of_waitAc {i : Instr} {nbits : Byte} {coll : Option (BitVec 6)} {data : List Byte} {s : State}
    (hi : frameOperands i = some (nbits, coll, data)) (hs : s.ac.state = .waitAc) (hc : s.ac.cancel = false) :
    exec i s = .next { s with
      ac := s.ac.onAnticoll s.params.collBit (rxBits nbits data) (coll.map BitVec.toNat) } := by
  rw [exec_of_frameOperands hi]
  exact respond_of_answer (by simp [hs]) (by simp [Arbiter.answer, frameResponse, hs, hc])

theorem exec_frame_of_waitSak {i : Instr} {nbits : Byte} {coll : Option (BitVec 6)} {data : List Byte} {s : State}
    {ac : Arbiter} (hi : frameOperands i = some (nbits, coll, data)) (hs : s.ac.state = .waitSak)
    (hc : s.ac.cancel = false) (h : s.ac.onSak (rxBits nbits data) (coll.map BitVec.toNat) = .ok ac) :
    exec i s = .next { s with ac := ac } := by
  rw [exec_of_frameOperands hi]
  exact respond_of_answer (by simp [hs]) (by simpa [Arbiter.answer, frameResponse, hs, hc] using h)

/-! ### AC_START, and the responses that carry no frame (R150, R154, R157, R158) -/

/-- What AC_START leaves, in full: nothing of the arbiter before it. -/
theorem Arbiter.start_eq (a : Arbiter) :
    a.start = { state := .waitAtqa, level := .one, known := 0, cl := 0, uid := Vector.replicate 10 0,
                uidLen := 0, atqa := #v[0, 0], sak := 0, cancel := false, result := .none } := rfl

theorem exec_acStart_of_idle {s : State} (h : s.ac.state = .idle) :
    exec .acStart s = .next { s with ac := s.ac.start } :=
  if_pos h

/-- Settles O18: AC_START writes every register of the arbiter, or is refused. -/
theorem acStartBeginsARun : Obligations.AcStartBeginsARun := by
  refine fun s => ⟨fun hidle => ⟨_, exec_acStart_of_idle hidle, ?state, acTx_of_waitAtqa s.ac.start_state⟩,
    acStart_refused⟩
  case state => rw [Arbiter.start_eq]

/-- Settles O19: both checks come before the response is looked at. -/
theorem cancelledRunEnds : Obligations.CancelledRunEnds := by
  intro s i hi
  obtain ⟨r, hr⟩ := exec_of_response hi
  rw [hr]
  exact ⟨respond_refused r, respond_cancelled r⟩

/-- Settles O20: the two responses without a frame end the run; the checks before that are those of every response. -/
theorem answersWithoutAFrameEndTheRun : Obligations.AnswersWithoutAFrameEndTheRun := by
  refine fun s => ⟨fun hs hc => ?ends, fun i hi => cancelledRunEnds s i ?response⟩
  case ends =>
    obtain ⟨hxerr, htimeout⟩ := Arbiter.answer_of_not_cancelled hc s.params.collBit
    exact ⟨respond_of_answer hs hxerr, respond_of_answer hs htimeout⟩
  case response =>
    obtain rfl | rfl : i = .acRespXerr ∨ i = .acRespTimeout := by simpa using hi
    all_goals rfl

/-! ### WAIT_ATQA (R160) -/

theorem Arbiter.onAtqa_of_length_ne {a : Arbiter} {rx : List Bool} (h : rx.length ≠ 16) :
    a.onAtqa rx = a.finish .errLength :=
  if_pos h

theorem Arbiter.onAtqa_of_length_eq {a : Arbiter} {rx : List Bool} (h : rx.length = 16) :
    a.onAtqa rx
      = Arbiter.enterLevel .one { a with atqa := #v[(bitsToBytesLSB rx).getD 0 0, (bitsToBytesLSB rx).getD 1 0] } :=
  if_neg (not_not_intro h)

/-- Settles O21: 16 received bits are the two DATA bytes, and `onAtqa` does not look at the collision. -/
theorem atqaFrameEntersLevelOne : Obligations.AtqaFrameEntersLevelOne := by
  intro s i nbits coll data hi hs hc
  rw [exec_frame_of_waitAtqa hi hs hc]
  constructor
  · intro hn
    have hlen : nbits.toNat ≠ 16 := fun h => hn (BitVec.eq_of_toNat_eq h)
    rw [Arbiter.onAtqa_of_length_ne (by rwa [length_rxBits])]
    rfl
  · rintro rfl
    rw [Arbiter.onAtqa_of_length_eq (length_rxBits 16 data), getD_bitsToBytesLSB_rxBits data (by decide),
      getD_bitsToBytesLSB_rxBits data (by decide)]
    exact ⟨_, rfl, rfl, acTx_of_waitAc rfl⟩

/-! ### WAIT_AC (R162 to R165) -/

/-- A level completed with a right check byte waits for the SAK (R165). -/
theorem Arbiter.completeLevel_of_check (a : Arbiter) {cl : BitVec 40} (h : CheckByteHolds cl) :
    Arbiter.completeLevel { a with cl := cl, known := 40 } = { a with cl := cl, known := 40, state := .waitSak } :=
  if_pos (beq_iff_eq.mpr h)

/-- A level completed with a wrong check byte ends the run (R165). -/
theorem Arbiter.completeLevel_of_not_check (a : Arbiter) {cl : BitVec 40} (h : ¬ CheckByteHolds cl) :
    Arbiter.completeLevel { a with cl := cl, known := 40 }
      = { a with cl := cl, known := 40, result := .errBcc, state := .idle, cancel := false } :=
  if_neg fun hb => h (beq_iff_eq.mp hb)

/-- `AC_CL` with the first n received bits after the known ones. -/
def Arbiter.clFilled (a : Arbiter) (rx : List Bool) (n : Nat) : BitVec 40 :=
  fillBits a.cl a.known (fun i => rx.getD i false) n

/-- `AC_CL` with the received bits before the collision at c, and `COLL_BIT` in its place. -/
def Arbiter.clCollided (a : Arbiter) (collBit : Bool) (rx : List Bool) (c : Nat) : BitVec 40 :=
  setPos (a.clFilled rx c) (a.known + c) collBit

theorem Arbiter.mergeAll_eq (a : Arbiter) (rx : List Bool) :
    a.mergeAll rx = Arbiter.completeLevel { a with cl := a.clFilled rx (40 - a.known), known := 40 } := rfl

theorem Arbiter.mergeCollision_of_partial {a : Arbiter} {collBit : Bool} {rx : List Bool} {c : Nat}
    (h : a.known + c + 1 ≠ 40) :
    a.mergeCollision collBit rx c = { a with cl := a.clCollided collBit rx c, known := a.known + c + 1 } :=
  if_neg h

theorem Arbiter.mergeCollision_of_last {a : Arbiter} {collBit : Bool} {rx : List Bool} {c : Nat}
    (h : a.known + c + 1 = 40) :
    a.mergeCollision collBit rx c
      = Arbiter.completeLevel { a with cl := a.clCollided collBit rx c, known := 40 } := by
  rw [← h]
  exact if_pos h

theorem Arbiter.onAnticoll_of_length_gt {a : Arbiter} {collBit : Bool} {rx : List Bool} {coll : Option Nat}
    (h : rx.length > 40 - a.known) : a.onAnticoll collBit rx coll = a.finish .errLength :=
  if_pos h

theorem Arbiter.onAnticoll_none {a : Arbiter} {collBit : Bool} {rx : List Bool} (h : rx.length ≤ 40 - a.known) :
    a.onAnticoll collBit rx none = if rx.length ≠ 40 - a.known then a.finish .errLength else a.mergeAll rx :=
  if_neg (Nat.not_lt.mpr h)

theorem Arbiter.onAnticoll_some {a : Arbiter} {collBit : Bool} {rx : List Bool} {c : Nat}
    (h : rx.length ≤ 40 - a.known) :
    a.onAnticoll collBit rx (some c)
      = if c ≥ rx.length then a.finish .errCollpos else a.mergeCollision collBit rx c :=
  if_neg (Nat.not_lt.mpr h)

/-- Settles O22: the length checks, then the position of the collision. -/
theorem anticollisionChecksInOrder : Obligations.AnticollisionChecksInOrder := by
  intro s i nbits coll data hi hs hc _
  rw [exec_frame_of_waitAc hi hs hc]
  constructor
  · intro hlen
    by_cases hgt : nbits.toNat > 40 - s.ac.known
    · rw [Arbiter.onAnticoll_of_length_gt (by rwa [length_rxBits])]
      rfl
    · obtain ⟨rfl, hne⟩ := hlen.resolve_left hgt
      rw [Option.map_none, Arbiter.onAnticoll_none (by rw [length_rxBits]; omega),
        if_pos (by rwa [length_rxBits])]
      rfl
  · rintro c rfl hle hcoll
    rw [Option.map_some, Arbiter.onAnticoll_some (by rwa [length_rxBits]), if_pos (by rwa [length_rxBits])]
    rfl

/-- Every position of a UID CLn after a merge of n bits of a response. -/
theorem Arbiter.getLsbD_clFilled (a : Arbiter) {nbits : Byte} (data : List Byte) {n p : Nat} (hn : n ≤ nbits.toNat)
    (hp : p < 40) :
    (a.clFilled (rxBits nbits data) n).getLsbD p
      = if a.known ≤ p ∧ p < a.known + n then rxBit data (p - a.known) else a.cl.getLsbD p := by
  rw [Arbiter.clFilled, getLsbD_fillBits _ _ _ _ _ hp]
  split
  · exact getD_rxBits data (by omega)
  · rfl

/-- Settles O23: the merge fills every position from `AC_KNOWN` on, and completes the level. -/
theorem fullResponseCompletesTheLevel : Obligations.FullResponseCompletesTheLevel := by
  intro s i nbits data hi hs hc hk hn
  have hlen : (rxBits nbits data).length = 40 - s.ac.known := by rwa [length_rxBits]
  rw [exec_frame_of_waitAc hi hs hc, Option.map_none, Arbiter.onAnticoll_none hlen.le, if_neg (not_not_intro hlen),
    Arbiter.mergeAll_eq]
  refine ⟨s.ac.clFilled (rxBits nbits data) (40 - s.ac.known), fun p hp => ?bits, fun hcheck => ?holds,
    fun hcheck => ?fails⟩
  case bits =>
    rw [Arbiter.getLsbD_clFilled _ _ hn.ge hp]
    by_cases hlt : p < s.ac.known
    · rw [if_neg (by omega), if_pos hlt]
    · rw [if_pos (by omega), if_neg hlt]
  case holds => rw [Arbiter.completeLevel_of_check s.ac hcheck]
  case fails => rw [Arbiter.completeLevel_of_not_check s.ac hcheck]

/-- Settles O24: the merge fills the positions before the collision and sets that of the collision; only when that is
the last one is the level complete. -/
theorem collisionFixesOneMoreBit : Obligations.CollisionFixesOneMoreBit := by
  intro s i nbits c data hi hs hc hk hn hcoll
  rw [exec_frame_of_waitAc hi hs hc, Option.map_some, Arbiter.onAnticoll_some (by rwa [length_rxBits]),
    if_neg (by rw [length_rxBits]; omega)]
  refine ⟨s.ac.clCollided s.params.collBit (rxBits nbits data) c.toNat, fun p hp => ?bits,
    fun hpartial => ?partialLevel, fun hlast hcheck => ?holds, fun hlast hcheck => ?fails⟩
  case bits =>
    rw [Arbiter.clCollided, getLsbD_setPos _ _ _ _ hp, Arbiter.getLsbD_clFilled _ _ hcoll.le hp]
    obtain hlt | hmid | rfl | hgt : p < s.ac.known ∨ (s.ac.known ≤ p ∧ p < s.ac.known + c.toNat)
        ∨ p = s.ac.known + c.toNat ∨ s.ac.known + c.toNat < p := by omega
    · rw [if_neg (by omega), if_neg (by omega), if_pos hlt]
    · rw [if_neg (by omega), if_pos hmid, if_neg (by omega), if_pos hmid.2]
    · rw [if_pos rfl, if_neg (by omega), if_neg (by omega), if_pos rfl]
    · rw [if_neg (by omega), if_neg (by omega), if_neg (by omega), if_neg (by omega), if_neg (by omega)]
  case partialLevel => rw [Arbiter.mergeCollision_of_partial hpartial]
  case holds => rw [Arbiter.mergeCollision_of_last hlast, Arbiter.completeLevel_of_check s.ac hcheck]
  case fails => rw [Arbiter.mergeCollision_of_last hlast, Arbiter.completeLevel_of_not_check s.ac hcheck]

end Sys2Proof.Machine

/-! ## A Frame in WAIT_SAK (R167 to R171) -/

namespace Sys2Proof.Machine

/-! ### The SAK and its checks (R167 to R169) -/

/-- A mask of one bit tests that bit. -/
theorem and_twoPow_ne_zero (s : Byte) {k : Nat} (hk : k < 8) : s &&& BitVec.twoPow 8 k ≠ 0 ↔ s.getLsbD k = true := by
  have hpow : BitVec.twoPow 8 k ≠ 0 := fun h => by
    have := congrArg (BitVec.getLsbD · k) h
    simp [hk] at this
  rw [BitVec.and_twoPow]
  cases s.getLsbD k <;> simp_all

theorem cascadeBit_eq (s : Byte) : cascadeBit s = s.getLsbD 2 :=
  Bool.eq_iff_iff.mpr (bne_iff_ne.trans (and_twoPow_ne_zero s (k := 2) (by decide)))

theorem Arbiter.onSak_of_length_ne {a : Arbiter} {rx : List Bool} {coll : Option Nat} (h : rx.length ≠ 8) :
    a.onSak rx coll = .ok (a.finish .errLength) :=
  if_pos h

theorem Arbiter.onSak_some {a : Arbiter} {rx : List Bool} {c : Nat} (h : rx.length = 8) :
    a.onSak rx (some c) = .ok (a.finish .errSakColl) :=
  if_neg (not_not_intro h)

/-- Eight received bits without collision are the SAK (R169). -/
theorem Arbiter.onSak_rxBits (a : Arbiter) (data : List Byte) :
    a.onSak (rxBits 8 data) none
      = if (data.getD 0 0).getLsbD 2 then Arbiter.cascade { a with sak := data.getD 0 0 }
        else Arbiter.finalLevel { a with sak := data.getD 0 0 } := by
  have hlen : (rxBits 8 data).length = 8 := length_rxBits 8 data
  have hsak : (bitsToBytesLSB (rxBits 8 data)).getD 0 0 = data.getD 0 0 := getD_bitsToBytesLSB_rxBits data (by decide)
  rw [Arbiter.onSak, if_neg (not_not_intro hlen), if_neg (by simp)]
  simp only [hsak, cascadeBit_eq]

/-- Settles O25: the length check, then the collision check. -/
theorem sakChecksInOrder : Obligations.SakChecksInOrder := by
  intro s i nbits coll data hi hs hc
  constructor
  · intro hn
    have hlen : nbits.toNat ≠ 8 := fun h => hn (BitVec.eq_of_toNat_eq h)
    exact exec_frame_of_waitSak hi hs hc (Arbiter.onSak_of_length_ne (by rwa [length_rxBits]))
  · rintro rfl hcoll
    obtain ⟨c, rfl⟩ := Option.ne_none_iff_exists'.mp hcoll
    exact exec_frame_of_waitSak hi hs hc (Arbiter.onSak_some (length_rxBits 8 data))

/-! ### The next level, or the end (R170, R171) -/

theorem Arbiter.cascade_of_level_three {a : Arbiter} (h : a.level = .three) :
    a.cascade = .ok (a.finish .errCascadeDepth) := by
  simp only [Arbiter.cascade, h, nextLevel]

theorem Arbiter.cascade_without_tag {a : Arbiter} {l : Level} (hl : nextLevel a.level = some l)
    (htag : clByte a.cl 0 ≠ 0x88) : a.cascade = .ok (a.finish .errCascadeTag) := by
  simp only [Arbiter.cascade, hl, ne_eq, htag, not_false_eq_true, if_true]

theorem Arbiter.cascade_with_tag {a : Arbiter} {l : Level} {uid : Vector Byte 10} (hl : nextLevel a.level = some l)
    (htag : clByte a.cl 0 = 0x88)
    (hw : writeUid a.uid a.uidLen [clByte a.cl 1, clByte a.cl 2, clByte a.cl 3] = some uid) :
    a.cascade = .ok (Arbiter.enterLevel l { a with uid := uid, uidLen := a.uidLen + 3 }) := by
  simp only [Arbiter.cascade, hl, htag, hw, ne_eq, not_true_eq_false, if_false]

theorem Arbiter.finalLevel_of_room {a : Arbiter} {uid : Vector Byte 10}
    (hw : writeUid a.uid a.uidLen [clByte a.cl 0, clByte a.cl 1, clByte a.cl 2, clByte a.cl 3] = some uid) :
    a.finalLevel = .ok (Arbiter.finish .ok { a with uid := uid, uidLen := a.uidLen + 4 }) := by
  simp only [Arbiter.finalLevel, hw]

theorem nextLevel_of_ne_three {l : Level} (h : l ≠ .three) : ∃ l', nextLevel l = some l' := by
  cases l with
  | one => exact ⟨_, rfl⟩
  | two => exact ⟨_, rfl⟩
  | three => exact absurd rfl h

/-- Appending n bytes of a UID CLn, from its byte k on, to a UID with room for them (R170, R171). -/
theorem writeUid_clBytes {uid : Vector Byte 10} {len k n : Nat} (cl : BitVec 40) (hroom : len + n ≤ 10) :
    ∃ uid', writeUid uid len ((List.range n).map fun j => clByte cl (k + j)) = some uid'
      ∧ ∀ j, uid'.toList.getD j 0
          = if len ≤ j ∧ j < len + n then clByte cl (k + (j - len)) else uid.toList.getD j 0 := by
  obtain ⟨uid', hw⟩ := writeUid_isSome (uid := uid) (i := len) (bs := (List.range n).map fun j => clByte cl (k + j))
    (by simpa using hroom)
  refine ⟨uid', hw, fun j => ?_⟩
  rw [(writeUid_spec hw).2 j, List.length_map, List.length_range]
  split
  · have hj : j - len < n := by omega
    simp [List.getD_eq_getElem?_getD, hj]
  · rfl

/-- Settles O26: the three ways of a cascading SAK, by the level and by the tag. -/
theorem cascadingSakStripsTheTag : Obligations.CascadingSakStripsTheTag := by
  rintro s i _ data hi hs hc rfl hbit
  have hcascade : s.ac.onSak (rxBits 8 data) none = Arbiter.cascade { s.ac with sak := data.getD 0 0 } :=
    (Arbiter.onSak_rxBits _ _).trans (if_pos hbit)
  refine ⟨fun hl => ?depth, fun hl htag => ?tag, fun l hl htag hroom => ?next⟩
  case depth => exact exec_frame_of_waitSak hi hs hc (hcascade.trans (Arbiter.cascade_of_level_three hl))
  case tag =>
    obtain ⟨l, hnext⟩ := nextLevel_of_ne_three hl
    exact exec_frame_of_waitSak hi hs hc (hcascade.trans (Arbiter.cascade_without_tag hnext htag))
  case next =>
    have hnext : nextLevel s.ac.level = some l := by
      obtain ⟨h, rfl⟩ | ⟨h, rfl⟩ := hl
      all_goals rw [h]; rfl
    obtain ⟨uid, hw, hget⟩ := writeUid_clBytes (uid := s.ac.uid) (len := s.ac.uidLen) (k := 1) (n := 3) s.ac.cl
      (by omega)
    exact ⟨uid, fun j _ => hget j,
      exec_frame_of_waitSak hi hs hc (hcascade.trans (Arbiter.cascade_with_tag hnext htag hw))⟩

/-- Settles O27: a final SAK appends all four bytes and ends the run. -/
theorem finalSakEndsTheRunOk : Obligations.FinalSakEndsTheRunOk := by
  rintro s i _ data hi hs hc rfl hbit hroom
  have hfinal : s.ac.onSak (rxBits 8 data) none = Arbiter.finalLevel { s.ac with sak := data.getD 0 0 } :=
    (Arbiter.onSak_rxBits _ _).trans (if_neg (by rw [hbit]; decide))
  obtain ⟨uid, hw, hget⟩ := writeUid_clBytes (uid := s.ac.uid) (len := s.ac.uidLen) (k := 0) (n := 4) s.ac.cl (by omega)
  refine ⟨uid, fun j _ => ?bytes, exec_frame_of_waitSak hi hs hc (hfinal.trans (Arbiter.finalLevel_of_room hw))⟩
  case bytes => simpa only [Nat.zero_add] using hget j

end Sys2Proof.Machine

/-! ## Status, descriptor and SAK class (R175 to R178) -/

namespace Sys2Proof.Machine

theorem AcState.code_mem (st : AcState) :
    (st.code, st) ∈ [((0 : Byte), AcState.idle), (1, .waitAtqa), (2, .waitAc), (3, .waitSak)] := by
  cases st <;> decide

theorem AcResult.code_mem (r : AcResult) :
    (r.code, r) ∈ [((0x00 : Byte), AcResult.none), (0x01, .ok), (0x02, .noTag), (0x03, .cancelled),
      (0x10, .errTransport), (0x20, .errTimeout), (0x21, .errLength), (0x22, .errCollpos), (0x23, .errBcc),
      (0x24, .errSakColl), (0x25, .errCascadeTag), (0x26, .errCascadeDepth)] := by
  cases r <;> decide

/-- Settles O31: the reply holds the two codes, which the two tables list. -/
theorem statusReply : Obligations.StatusReply :=
  fun s => ⟨s.ac.state.code, s.ac.result.code, rfl, s.ac.state.code_mem, s.ac.result.code_mem⟩

theorem toList_two (v : Vector Byte 2) : v.toList = [v[0], v[1]] := by
  apply List.ext_getElem (by simp)
  intro i hi _
  have hi : i < 2 := by simpa using hi
  interval_cases i <;> rfl

theorem descriptor_of_ok (p : Params) {a : Arbiter} (h : a.state = .idle ∧ a.result = .ok) :
    descriptor p a = ([0x00, a.atqa[0], a.atqa[1], a.sak, classify p.mcLike a.sak ||| (needsRats a.sak <<< 7),
      BitVec.ofNat 8 a.uidLen] : List Byte) ++ a.uid.toList.take a.uidLen := by
  rw [descriptor, if_pos h, toList_two, classByte]
  rfl

theorem descriptor_not_valid (p : Params) {a : Arbiter} (h : ¬ (a.state = .idle ∧ a.result = .ok)) :
    descriptor p a = [0x01] :=
  if_neg h

theorem exec_acDesc (s : State) :
    exec .acDesc s = .next { s with replies := s.replies ++ [⟨.worker, descriptor s.params s.ac⟩] } := rfl

/-- Settles O32: AC_DESC replies the descriptor, in both of its cases. -/
theorem descriptorReply : Obligations.DescriptorReply := by
  intro s
  rw [exec_acDesc]
  refine ⟨fun hok => ?valid, fun hnot => ?notValid⟩
  case valid => rw [descriptor_of_ok s.params hok]
  case notValid => rw [descriptor_not_valid s.params (not_and_or.mpr hnot)]

/-- Settles O33: the masks 0x20 and 0x40 test bits 5 and 6. -/
theorem sakClassification : Obligations.SakClassification := by
  intro mcLike s
  have hbit5 : s &&& 0x20 ≠ 0 ↔ s.getLsbD 5 = true := and_twoPow_ne_zero s (k := 5) (by decide)
  have hbit6 : s &&& 0x40 ≠ 0 ↔ s.getLsbD 6 = true := and_twoPow_ne_zero s (k := 6) (by decide)
  simp only [classify, needsRats, hbit5, hbit6, and_self]

end Sys2Proof.Machine

/-! ## What a response does to a run: its safety and its length (R156, R166, R172 to R174) -/

namespace Sys2Proof.Machine

/-! ### The moves of a run -/

/-- What one response does to a run in progress: one constructor for each place it can leave the arbiter in. -/
inductive Arbiter.Answered (a : Arbiter) : Arbiter → Prop
  /-- The run is over without a UID (R152); a SAK may have been stored. -/
  | ended {r : AcResult} (sak : Byte) (hr : r ≠ .ok) : Answered a (Arbiter.finish r { a with sak := sak })
  /-- The ATQA is in (R160). -/
  | firstLevel (atqa : Vector Byte 2) (hs : a.state = .waitAtqa) :
      Answered a (Arbiter.enterLevel .one { a with atqa := atqa })
  /-- More positions are known, and some are not (R164). -/
  | someKnown (cl : BitVec 40) {k : Nat} (hs : a.state = .waitAc) (hmore : a.known < k) (hk : k ≤ 39) :
      Answered a { a with cl := cl, known := k }
  /-- Every position is known (R163, R164): the check byte decides. -/
  | allKnown (cl : BitVec 40) (hs : a.state = .waitAc) :
      Answered a (Arbiter.completeLevel { a with cl := cl, known := 40 })
  /-- A cascading SAK (R170). -/
  | nextLevel {l : Level} (sak : Byte) (uid : Vector Byte 10) (n : Nat) (hs : a.state = .waitSak)
      (hl : nextLevel a.level = some l) :
      Answered a (Arbiter.enterLevel l { a with sak := sak, uid := uid, uidLen := n })
  /-- A final SAK (R171). -/
  | endedOk (sak : Byte) (uid : Vector Byte 10) (n : Nat) (hs : a.state = .waitSak) :
      Answered a (Arbiter.finish .ok { a with sak := sak, uid := uid, uidLen := n })

theorem Arbiter.onAtqa_answered {a : Arbiter} (rx : List Bool) (hs : a.state = .waitAtqa) :
    a.Answered (a.onAtqa rx) := by
  by_cases hlen : rx.length = 16
  · rw [Arbiter.onAtqa_of_length_eq hlen]
    exact .firstLevel _ hs
  · rw [Arbiter.onAtqa_of_length_ne hlen]
    exact .ended a.sak (by decide)

theorem Arbiter.mergeCollision_answered {a : Arbiter} (collBit : Bool) (rx : List Bool) {c : Nat}
    (hs : a.state = .waitAc) (hc : a.known + c + 1 ≤ 40) : a.Answered (a.mergeCollision collBit rx c) := by
  by_cases hlast : a.known + c + 1 = 40
  · rw [Arbiter.mergeCollision_of_last hlast]
    exact .allKnown _ hs
  · rw [Arbiter.mergeCollision_of_partial hlast]
    exact .someKnown _ hs (by omega) (by omega)

theorem Arbiter.onAnticoll_answered {a : Arbiter} (collBit : Bool) (rx : List Bool) (coll : Option Nat)
    (hs : a.state = .waitAc) : a.Answered (a.onAnticoll collBit rx coll) := by
  by_cases hgt : rx.length > 40 - a.known
  · rw [Arbiter.onAnticoll_of_length_gt hgt]
    exact .ended a.sak (by decide)
  have hle : rx.length ≤ 40 - a.known := Nat.not_lt.mp hgt
  cases coll with
  | none =>
    rw [Arbiter.onAnticoll_none hle]
    split
    · exact .ended a.sak (by decide)
    · rw [Arbiter.mergeAll_eq]
      exact .allKnown _ hs
  | some c =>
    rw [Arbiter.onAnticoll_some hle]
    split
    · exact .ended a.sak (by decide)
    · exact Arbiter.mergeCollision_answered collBit rx hs (by omega)

theorem Arbiter.cascade_answered {a b : Arbiter} {sak : Byte} (hs : a.state = .waitSak)
    (h : Arbiter.cascade { a with sak := sak } = .ok b) : a.Answered b := by
  obtain ⟨-, rfl⟩ | ⟨-, -, rfl⟩ | ⟨l, uid, hl, -, -, rfl⟩ := Arbiter.cascade_spec h
  · exact .ended sak (by decide)
  · exact .ended sak (by decide)
  · exact .nextLevel sak uid _ hs hl

theorem Arbiter.onSak_answered {a b : Arbiter} {rx : List Bool} {coll : Option Nat} (hs : a.state = .waitSak)
    (h : a.onSak rx coll = .ok b) : a.Answered b := by
  unfold Arbiter.onSak at h
  split at h
  · cases h
    exact .ended a.sak (by decide)
  · split at h
    · cases h
      exact .ended a.sak (by decide)
    · simp only at h
      split at h
      · exact Arbiter.cascade_answered hs h
      · obtain ⟨uid, -, rfl⟩ := Arbiter.finalLevel_spec h
        exact .endedOk _ uid _ hs

/-- Every response to a run in progress is one of the moves. -/
theorem Arbiter.answer_answered {a b : Arbiter} {collBit : Bool} {r : Response} (hs : a.state ≠ .idle)
    (h : a.answer collBit r = .ok b) : a.Answered b := by
  obtain ⟨-, rfl⟩ | ⟨-, -, rfl⟩ | ⟨-, -, -, rfl⟩ | ⟨-, -, -, rfl⟩ | ⟨rx, coll, -, -, hframe⟩ := Arbiter.answer_spec hs h
  · exact .ended a.sak (by decide)
  · exact .ended a.sak (by decide)
  · exact .ended a.sak (by decide)
  · exact .ended a.sak (by decide)
  · obtain ⟨hst, rfl⟩ | ⟨hst, rfl⟩ | ⟨hst, hsak⟩ := hframe
    · exact Arbiter.onAtqa_answered rx hst
    · exact Arbiter.onAnticoll_answered collBit rx coll hst
    · exact Arbiter.onSak_answered hst hsak

/-! ### What the moves keep (R165, R166, R172, R173) -/

/-- A completed level waits for the SAK only with a right check byte; otherwise the run is over. -/
theorem Arbiter.completeLevel_checked (a : Arbiter) :
    a.completeLevel.known = a.known
    ∧ ((a.completeLevel.state = .waitSak ∧ CheckByteHolds a.completeLevel.cl ∧ a.completeLevel.result = a.result)
      ∨ (a.completeLevel.state = .idle ∧ a.completeLevel.result = .errBcc)) := by
  obtain ⟨hcheck, h⟩ | ⟨-, h⟩ := a.completeLevel_cases
  · rw [h]
    exact ⟨rfl, .inl ⟨rfl, beq_iff_eq.mp hcheck, rfl⟩⟩
  · rw [h]
    exact ⟨rfl, .inr ⟨rfl, rfl⟩⟩

/-- Completing a level is the only way into WAIT_SAK (R173). -/
theorem Arbiter.Answered.into_waitSak {a b : Arbiter} (h : a.Answered b) (hb : b.state = .waitSak)
    (ha : a.state ≠ .waitSak) : a.state = .waitAc ∧ b.known = 40 ∧ CheckByteHolds b.cl := by
  cases h with
  | ended | firstLevel | nextLevel | endedOk => cases hb
  | someKnown cl hs => exact absurd hb ha
  | allKnown cl hs =>
    obtain ⟨hknown, ⟨-, hcheck, -⟩ | ⟨hidle, -⟩⟩ := Arbiter.completeLevel_checked { a with cl := cl, known := 40 }
    · exact ⟨hs, hknown, hcheck⟩
    · cases hb.symm.trans hidle

/-- A final SAK is the only way to the result OK, and it keeps the UID CLn (R171, R172). -/
theorem Arbiter.Answered.into_ok {a b : Arbiter} (h : a.Answered b) (hb : b.result = .ok) (ha : a.result ≠ .ok) :
    a.state = .waitSak ∧ b.state = .idle ∧ b.cl = a.cl := by
  cases h with
  | ended sak hr => exact absurd hb hr
  | endedOk sak uid n hs => exact ⟨hs, rfl, rfl⟩
  | firstLevel | someKnown | nextLevel => exact absurd hb ha
  | allKnown cl hs =>
    obtain ⟨-, ⟨-, -, hres⟩ | ⟨-, hres⟩⟩ := Arbiter.completeLevel_checked { a with cl := cl, known := 40 }
    · exact absurd (hres.symm.trans hb) ha
    · cases hres.symm.trans hb

/-- In WAIT_AC a response leaves WAIT_AC or makes more positions known (R166). -/
theorem Arbiter.Answered.progress {a b : Arbiter} (h : a.Answered b) (hs : a.state = .waitAc) (hk : a.known ≤ 39) :
    b.known ≤ 40 ∧ (b.state = .waitAc → a.known < b.known ∧ b.known ≤ 39 ∧ b.level = a.level) := by
  cases h with
  | ended => exact ⟨hk.trans (by decide), nofun⟩
  | someKnown cl _ hmore hk' => exact ⟨hk'.trans (by decide), fun _ => ⟨hmore, hk', rfl⟩⟩
  | allKnown cl =>
    obtain ⟨hknown, hleft⟩ := Arbiter.completeLevel_checked { a with cl := cl, known := 40 }
    refine ⟨hknown.le, fun hb => ?_⟩
    obtain ⟨hsak, -⟩ | ⟨hidle, -⟩ := hleft
    · cases hb.symm.trans hsak
    · cases hb.symm.trans hidle
  | firstLevel _ hs' | nextLevel _ _ _ hs' | endedOk _ _ _ hs' => cases hs.symm.trans hs'

/-- All a step can do to the arbiter: AC_START, CANCEL or RESET, or TRANSPORT answers a run in progress (R83). -/
theorem step_ac_spec {s t : State} (h : step s = .next t) :
    t.ac = s.ac ∨ t.ac = s.ac.start ∨ t.ac = { s.ac with cancel := true } ∨ t.ac = Arbiter.reset
    ∨ (Turn .transport s ∧ s.ac.state ≠ .idle ∧ ∃ r, s.ac.answer s.params.collBit r = .ok t.ac) := by
  obtain hsame | ⟨i, pending, hturn, -, hw, hfree, hexec⟩ := step_ac_or_runs h
  · exact .inl hsame
  obtain hsame | ⟨-, -, hac⟩ | ⟨hresp, -⟩ | ⟨-, hac⟩ | ⟨-, hac⟩ := exec_ac hfree hw hexec
  · exact .inl hsame
  · exact .inr (.inl hac)
  · obtain ⟨r, hr⟩ := exec_of_response hresp
    obtain ⟨-, rfl⟩ | ⟨ac, hrun, hanswer, rfl⟩ := respond_spec ((hr _).symm.trans hexec)
    · exact .inl rfl
    · exact .inr (.inr (.inr (.inr ⟨agentOf_of_response hresp ▸ hturn, hrun, r, hanswer⟩)))
  · exact .inr (.inr (.inl hac))
  · exact .inr (.inr (.inr (.inl hac)))

/-- Settles O34: of all writes to the arbiter only a response enters WAIT_SAK, and only by completing a level. -/
theorem selectOnlyAfterTheCheckByte : Obligations.SelectOnlyAfterTheCheckByte := by
  intro s t hstep ht hs
  obtain hac | hac | hac | hac | ⟨hturn, hrun, r, hanswer⟩ := step_ac_spec hstep
  · exact absurd (hac ▸ ht) hs
  · cases (congrArg Arbiter.state hac).symm.trans ht
  · exact absurd ((congrArg Arbiter.state hac).symm.trans ht) hs
  · cases (congrArg Arbiter.state hac).symm.trans ht
  · exact ⟨hturn, (Arbiter.answer_answered hrun hanswer).into_waitSak ht hs⟩

/-- Settles O35: only a response gives OK, in WAIT_SAK, where the invariant has the check byte; and it keeps the
invariant, which has the length of the UID. -/
theorem okRunsHaveWholeUids : Obligations.OkRunsHaveWholeUids := by
  intro s t hinv hstep ht hs
  obtain hac | hac | hac | hac | ⟨hturn, hrun, r, hanswer⟩ := step_ac_spec hstep
  · exact absurd (hac ▸ ht) hs
  · cases (congrArg Arbiter.result hac).symm.trans ht
  · exact absurd ((congrArg Arbiter.result hac).symm.trans ht) hs
  · cases (congrArg Arbiter.result hac).symm.trans ht
  · obtain ⟨hsak, hidle, hcl⟩ := (Arbiter.answer_answered hrun hanswer).into_ok ht hs
    obtain ⟨-, -, -, -, -, -, -, -, hlen, -⟩ := Arbiter.answer_inv hinv hrun hanswer
    obtain ⟨-, -, -, -, -, -, -, hcheck, -⟩ := hinv
    refine ⟨hturn, hsak, ?check, hidle, hlen hidle ht⟩
    case check =>
      rw [hcl]
      exact beq_iff_eq.mp (hcheck hsak).2

/-- Settles O36: the response is one of the moves of a run. -/
theorem anticollisionProgress : Obligations.AnticollisionProgress := by
  intro s t i hi hs hk hexec
  obtain ⟨r, hr⟩ := exec_of_response hi
  obtain ⟨hidle, -⟩ | ⟨ac, hrun, hanswer, rfl⟩ := respond_spec ((hr s).symm.trans hexec)
  · cases hs.symm.trans hidle
  · exact (Arbiter.answer_answered hrun hanswer).progress hs hk

/-! ### A run presents at most 124 frames (R166) -/

/-- How many frames a run can still present: REQA, and for each level at most 40 ANTICOLLISION frames, each after the
first with a position more known, and a SELECT. -/
def Arbiter.framesLeft (a : Arbiter) : Nat :=
  match a.state with
  | .idle => 0
  | .waitAtqa => 124
  | .waitAc => 41 * (3 - levelNumber a.level) + (41 - a.known)
  | .waitSak => 41 * (3 - levelNumber a.level) + 1

theorem Arbiter.framesLeft_of_idle {a : Arbiter} (h : a.state = .idle) : a.framesLeft = 0 := by
  simp only [Arbiter.framesLeft, h]

theorem Arbiter.framesLeft_of_waitAtqa {a : Arbiter} (h : a.state = .waitAtqa) : a.framesLeft = 124 := by
  simp only [Arbiter.framesLeft, h]

theorem Arbiter.framesLeft_of_waitAc {a : Arbiter} (h : a.state = .waitAc) :
    a.framesLeft = 41 * (3 - levelNumber a.level) + (41 - a.known) := by
  simp only [Arbiter.framesLeft, h]

theorem Arbiter.framesLeft_of_waitSak {a : Arbiter} (h : a.state = .waitSak) :
    a.framesLeft = 41 * (3 - levelNumber a.level) + 1 := by
  simp only [Arbiter.framesLeft, h]

/-- Only an idle arbiter has no frame left. -/
theorem Arbiter.framesLeft_pos {a : Arbiter} (hs : a.state ≠ .idle) (hk : a.known ≤ 40) : 0 < a.framesLeft := by
  cases h : a.state with
  | idle => exact absurd h hs
  | waitAtqa => rw [Arbiter.framesLeft_of_waitAtqa h]; decide
  | waitAc => rw [Arbiter.framesLeft_of_waitAc h]; omega
  | waitSak => rw [Arbiter.framesLeft_of_waitSak h]; omega

/-- A level that begins has 41 frames, and those of the levels after it. -/
theorem Arbiter.framesLeft_enterLevel (l : Level) (a : Arbiter) :
    (Arbiter.enterLevel l a).framesLeft = 41 * (3 - levelNumber l) + 41 :=
  Arbiter.framesLeft_of_waitAc rfl

/-- A completed level has at most its SELECT, and the frames of the levels after it. -/
theorem Arbiter.framesLeft_completeLevel_le (a : Arbiter) :
    a.completeLevel.framesLeft ≤ 41 * (3 - levelNumber a.level) + 1 := by
  obtain ⟨-, h⟩ | ⟨-, h⟩ := a.completeLevel_cases
  · rw [h]
    exact (Arbiter.framesLeft_of_waitSak rfl).le
  · rw [h]
    exact Nat.zero_le _

/-- Every response uses up a frame. -/
theorem Arbiter.Answered.framesLeft_lt {a b : Arbiter} (h : a.Answered b) (hs : a.state ≠ .idle) (hinv : ArbiterInv a) :
    b.framesLeft < a.framesLeft := by
  obtain ⟨hknown, -, -, -, -, -, hac, -⟩ := hinv
  cases h with
  | ended | endedOk => exact Arbiter.framesLeft_pos hs hknown
  | firstLevel atqa hst =>
    rw [Arbiter.framesLeft_enterLevel, Arbiter.framesLeft_of_waitAtqa hst]
    decide
  | @someKnown cl k hst hmore hk =>
    rw [Arbiter.framesLeft_of_waitAc hst, Arbiter.framesLeft_of_waitAc (a := { a with cl := cl, known := k }) hst]
    simp only
    omega
  | allKnown cl hst =>
    have hdone := Arbiter.framesLeft_completeLevel_le { a with cl := cl, known := 40 }
    have hleft := hac hst
    rw [Arbiter.framesLeft_of_waitAc hst]
    simp only at hdone
    omega
  | @nextLevel l sak uid n hst hl =>
    have hnext := levelNumber_nextLevel hl
    have hbound := levelNumber_bounds l
    rw [Arbiter.framesLeft_enterLevel, Arbiter.framesLeft_of_waitSak hst]
    omega

/-! ### Responses one after the other (R156) -/

theorem respondAll_of_idle (rs : List Response) {s : State} (h : s.ac.state = .idle) : respondAll rs s = .next s := by
  cases rs with
  | nil => rfl
  | cons r rs => exact if_pos h

theorem respondAll_cons {r : Response} (rs : List Response) {s t : State} (hs : s.ac.state ≠ .idle)
    (h : respond r s = .next t) : respondAll (r :: rs) s = respondAll rs t := by
  simp only [respondAll, hs, if_false, h]

theorem respondAll_cons_spec {r : Response} {rs : List Response} {s u : State} (hs : s.ac.state ≠ .idle)
    (h : respondAll (r :: rs) s = .next u) : ∃ t, respond r s = .next t ∧ respondAll rs t = .next u := by
  rw [respondAll, if_neg hs] at h
  split at h
  · exact ⟨_, ‹_›, h⟩
  · cases h
  · cases h

/-- As many responses as frames left end the run, and none of them faults. -/
theorem respondAll_ends {rs : List Response} {s : State} (hinv : ArbiterInv s.ac)
    (hlen : s.ac.framesLeft ≤ rs.length) : ∃ u, respondAll rs s = .next u ∧ u.ac.state = .idle := by
  induction rs generalizing s with
  | nil =>
    refine ⟨s, rfl, by_contra fun hs => ?_⟩
    have hpos := Arbiter.framesLeft_pos hs hinv.inRange.known
    rw [List.length_nil] at hlen
    omega
  | cons r rs ih =>
    by_cases hs : s.ac.state = .idle
    · exact ⟨s, respondAll_of_idle _ hs, hs⟩
    obtain ⟨ac, hanswer⟩ := (hinv.running hs).answer_ok s.params.collBit r
    have hless := (Arbiter.answer_answered hs hanswer).framesLeft_lt hs hinv
    rw [respondAll_cons rs hs (respond_of_answer hs hanswer)]
    rw [List.length_cons] at hlen
    exact ih (s := { s with ac := ac }) (Arbiter.answer_inv hinv hs hanswer) (by simp only; omega)

/-- Settles O37: AC_START leaves a run with 124 frames left. -/
theorem runEndsWithin124Frames : Obligations.RunEndsWithin124Frames := by
  intro s rs hidle hlen
  have hleft : s.ac.start.framesLeft ≤ rs.length := hlen ▸ (Arbiter.framesLeft_of_waitAtqa s.ac.start_state).le
  obtain ⟨u, hu, hend⟩ := respondAll_ends (s := { s with ac := s.ac.start }) s.ac.start_inv hleft
  exact ⟨_, u, exec_acStart_of_idle hidle, hu, hend⟩

/-! ### Runs depend on the responses and `COLL_BIT` only (R174) -/

/-- A response makes the same of the same arbiter, and changes no parameter. -/
theorem respond_congr {r : Response} {s s' t t' : State} (hac : s.ac = s'.ac)
    (hbit : s.params.collBit = s'.params.collBit) (h : respond r s = .next t) (h' : respond r s' = .next t') :
    t.ac = t'.ac ∧ t.params.collBit = t'.params.collBit := by
  obtain ⟨hidle, rfl⟩ | ⟨ac, hrun, hanswer, rfl⟩ := respond_spec h
  all_goals obtain ⟨hidle', rfl⟩ | ⟨ac', hrun', hanswer', rfl⟩ := respond_spec h'
  · exact ⟨hac, hbit⟩
  · exact absurd (hac ▸ hidle) hrun'
  · exact absurd (hac ▸ hidle') hrun
  · rw [hac, hbit, hanswer'] at hanswer
    cases hanswer
    exact ⟨rfl, hbit⟩

theorem respondAll_congr {rs : List Response} {s s' u u' : State} (hac : s.ac = s'.ac)
    (hbit : s.params.collBit = s'.params.collBit) (h : respondAll rs s = .next u) (h' : respondAll rs s' = .next u') :
    u.ac = u'.ac := by
  induction rs generalizing s s' with
  | nil =>
    cases h
    cases h'
    exact hac
  | cons r rs ih =>
    by_cases hs : s.ac.state = .idle
    · rw [respondAll_of_idle _ hs] at h
      rw [respondAll_of_idle _ (hac ▸ hs)] at h'
      cases h
      cases h'
      exact hac
    · obtain ⟨t, ht, hrest⟩ := respondAll_cons_spec hs h
      obtain ⟨t', ht', hrest'⟩ := respondAll_cons_spec (hac ▸ hs) h'
      obtain ⟨hac', hbit'⟩ := respond_congr hac hbit ht ht'
      exact ih hac' hbit' hrest hrest'

/-- Settles O38: AC_START leaves the same arbiter whatever it was, and the responses make the same of it. -/
theorem runsForgetEarlierRuns : Obligations.RunsForgetEarlierRuns := by
  intro s s' t t' u u' rs hs hs' hbit ht ht' hu hu'
  cases (exec_acStart_of_idle hs).symm.trans ht
  cases (exec_acStart_of_idle hs').symm.trans ht'
  have hstart : s.ac.start = s'.ac.start := (Arbiter.start_eq s.ac).trans (Arbiter.start_eq s'.ac).symm
  exact respondAll_congr (s := { s with ac := s.ac.start }) (s' := { s' with ac := s'.ac.start }) hstart hbit hu hu'

end Sys2Proof.Machine

/-! ## The catalogue check (R123, R247) -/

namespace Sys2Proof.Machine

/-- R123, type by type. -/
theorem admittedLength_cases (ty : Byte) :
    (10 ≤ ty.toNat ∧ admittedLength ty = none)
    ∨ ((ty = 0 ∨ ty = 2 ∨ ty = 3) ∧ admittedLength ty = some (0, 0))
    ∨ (ty = 1 ∧ admittedLength ty = some (0, 65535))
    ∨ (ty = 4 ∧ admittedLength ty = some (15, 15))
    ∨ ((ty = 5 ∨ ty = 6 ∨ ty = 7) ∧ admittedLength ty = some (1, 65535))
    ∨ ((ty = 8 ∨ ty = 9) ∧ admittedLength ty = some (3, 515)) := by
  unfold admittedLength
  split
  case h_11 => exact .inl ⟨by simp only [imp_false] at *; bv_omega, rfl⟩
  all_goals decide

theorem catalogueCheck_of_none {ty : Byte} (len : Nat) (h : admittedLength ty = none) :
    catalogueCheck ty len = .unknown := by
  rw [catalogueCheck, h]

theorem catalogueCheck_of_some {ty : Byte} {lo hi : Nat} (len : Nat) (h : admittedLength ty = some (lo, hi)) :
    catalogueCheck ty len = if lo ≤ len ∧ len ≤ hi then .ok else .lengthMismatch := by
  rw [catalogueCheck, h]

/-- Settles O7: no type 10 or above is admitted, and for the others the table's bounds are those of R123. -/
theorem catalogueCheckTable : Obligations.CatalogueCheckTable := by
  intro ty len hlen
  obtain ⟨hty, h⟩ | ⟨rfl | rfl | rfl, h⟩ | ⟨rfl, h⟩ | ⟨rfl, h⟩ | ⟨rfl | rfl | rfl, h⟩ | ⟨rfl | rfl, h⟩ :=
    admittedLength_cases ty
  · rw [catalogueCheck_of_none len h, if_pos hty]
  all_goals
    rw [catalogueCheck_of_some len h]
    grind

end Sys2Proof.Machine

/-! ## The encoder: a message is queued byte by byte (R228 to R231) -/

namespace Sys2Proof.Machine

/-! ### The queue after a push -/

/-- A write read back: the slot written holds the byte, every other slot what it held. -/
theorem Memory.load_put (m : Memory) (i j : Nat) (b : Byte) :
    (m.put i b).load j = if j = i then some b else m.load j := by
  by_cases h : j = i
  · rw [if_pos h, h, Memory.load_put_same]
  · rw [if_neg h, Memory.load_put_other m b h]

/-- The FIFO after a push that found a slot (R275). -/
abbrev Fifo.pushed (n : Nat) (b : Byte) (f : Fifo) : Fifo :=
  { f with mem := f.mem.put f.head b, head := nextIndex n f.head }

theorem Fifo.push_of_full {n : Nat} {f : Fifo} (b : Byte) (h : f.full n = true) :
    f.push n b = .ok (false, { f with ovf := true }) :=
  if_pos h

theorem Fifo.push_of_not_full {n : Nat} {f : Fifo} (b : Byte) (hh : f.head < n) (h : f.full n = false) :
    f.push n b = .ok (true, f.pushed n b) := by
  rw [Fifo.push_ok b hh, h]
  rfl

/-- The byte of a push comes last in the queue, and the bytes queued before stay as they are (R282, R283). -/
theorem Fifo.contents_pushed {n : Nat} {f : Fifo} (b : Byte) (hh : f.head < n) (ht : f.tail < n)
    (hf : f.full n = false) : (f.pushed n b).contents n = f.contents n ++ [b] := by
  have hocc : (f.pushed n b).occ n = f.occ n + 1 := Fifo.occ_push _ hh ht hf
  have hroom : (f.pushed n b).occ n < n := Fifo.occ_lt _ (by omega)
  have hhead : (f.tail + f.occ n) % n = f.head := Fifo.head_eq_slot hh ht
  have hold : ∀ j ∈ List.range (f.occ n),
      (f.mem.put f.head b).load ((f.tail + j) % n) = f.mem.load ((f.tail + j) % n) := by
    intro j hj
    have hj := List.mem_range.mp hj
    exact Memory.load_put_other _ b (hhead ▸ slot_ne ht (by omega) (by omega) (by omega))
  rw [Fifo.contents, hocc, List.range_succ, List.filterMap_append, List.filterMap_congr hold, ← Fifo.contents]
  simp [hhead]

/-! ### The encoder's push step (R230, R231) -/

theorem step_of_encoding {s : State} (h : LiveTurn .worker s) (hb : s.enc.busy = true) :
    step s = encodeStep (handOver s) :=
  (step_of_busy h hb).trans (if_pos hb)

theorem encodeStep_of_full {s : State} {b : Byte} (hb : s.enc.bytes[s.enc.idx]? = some b)
    (hf : s.fifo.full s.params.fifoDepth = true) :
    encodeStep s = .next { s with
      fifo := { s.fifo with ovf := true }, enc := { s.enc with busy := false }
      replies := s.replies ++ [⟨.worker, [0x01]⟩] } := by
  simp only [encodeStep, hb, Fifo.push_of_full b hf, State.reply]

theorem encodeStep_of_last {s : State} {b : Byte} (hb : s.enc.bytes[s.enc.idx]? = some b)
    (hh : s.fifo.head < s.params.fifoDepth) (hf : s.fifo.full s.params.fifoDepth = false)
    (hlast : s.enc.idx + 1 = s.enc.bytes.length) :
    encodeStep s = .next { s with
      fifo := s.fifo.pushed s.params.fifoDepth b, enc := { s.enc with busy := false, idx := s.enc.idx + 1 }
      replies := s.replies ++ [⟨.worker, [0x00]⟩] } := by
  simp only [encodeStep, hb, Fifo.push_of_not_full b hh hf, hlast, if_true, State.reply]

theorem encodeStep_of_more {s : State} {b : Byte} (hb : s.enc.bytes[s.enc.idx]? = some b)
    (hh : s.fifo.head < s.params.fifoDepth) (hf : s.fifo.full s.params.fifoDepth = false)
    (hmore : s.enc.idx + 1 ≠ s.enc.bytes.length) :
    encodeStep s = .next { s with
      fifo := s.fifo.pushed s.params.fifoDepth b, enc := { s.enc with idx := s.enc.idx + 1 } } := by
  simp only [encodeStep, hb, Fifo.push_of_not_full b hh hf, hmore, if_false]

/-! ### A run of the encoder -/

/-- What WORKER's pushes of `bytes` leave: they are queued last, and the rest of the block is the same. -/
structure Queued (bytes : List Byte) (s t : State) : Prop where
  params : t.params = s.params
  contents : t.fifo.contents s.params.fifoDepth = s.fifo.contents s.params.fifoDepth ++ bytes
  tail : t.fifo.tail = s.fifo.tail
  ovf : t.fifo.ovf = s.fifo.ovf
  ac : t.ac = s.ac
  dec : t.dec = s.dec
  rd : t.rd = s.rd
  wr : t.wr = s.wr
  sinkHeld : t.sinkHeld = s.sinkHeld

theorem Queued.trans {xs ys : List Byte} {s t u : State} (h : Queued xs s t) (h' : Queued ys t u) :
    Queued (xs ++ ys) s u where
  params := h'.params.trans h.params
  contents := by
    have := h'.contents
    rwa [h.params, h.contents, List.append_assoc] at this
  tail := h'.tail.trans h.tail
  ovf := h'.ovf.trans h.ovf
  ac := h'.ac.trans h.ac
  dec := h'.dec.trans h.dec
  rd := h'.rd.trans h.rd
  wr := h'.wr.trans h.wr
  sinkHeld := h'.sinkHeld.trans h.sinkHeld

/-- WORKER is due to push `bytes`, all of which fit, and has a turn for each before the turns `rest`. -/
structure PushesDue (bytes : List Byte) (rest : List Agent) (s : State) : Prop where
  inv : FifoInv s.params.fifoDepth s.fifo
  busy : s.enc.busy = true
  due : s.enc.bytes.drop s.enc.idx = bytes
  fits : bytes.length ≤ s.fifo.space s.params.fifoDepth
  live : .worker ∉ s.halted
  turns : s.sched = List.replicate bytes.length .worker ++ rest

/-- The first of an agent's turns in a row, and the turns after it. -/
theorem liveTurn_of_replicate {s : State} {a : Agent} {k : Nat} {rest : List Agent} (hl : a ∉ s.halted)
    (h : s.sched = List.replicate (k + 1) a ++ rest) :
    LiveTurn a s ∧ (handOver s).sched = List.replicate k a ++ rest := by
  rw [List.replicate_succ, List.cons_append] at h
  exact ⟨⟨List.head?_eq_some_iff.mpr ⟨_, h⟩, hl⟩, by rw [handOver, h, List.tail_cons]⟩

/-- What is left of a list at an index where it is `x` and `more`: that element, the rest, and the length. -/
theorem getElem?_of_drop_eq_cons {α : Type} {l more : List α} {i : Nat} {x : α} (h : l.drop i = x :: more) :
    l[i]? = some x ∧ l.drop (i + 1) = more ∧ l.length = i + 1 + more.length := by
  have hlen := congrArg List.length h
  rw [List.length_drop, List.length_cons] at hlen
  refine ⟨by rw [← List.head?_drop, h, List.head?_cons], by rw [← List.drop_drop, h]; rfl, by omega⟩

section
variable {b : Byte} {more : List Byte} {rest : List Agent} {s : State}

theorem PushesDue.not_full (h : PushesDue (b :: more) rest s) : s.fifo.full s.params.fifoDepth = false :=
  Fifo.not_full_of_space (Nat.lt_of_lt_of_le (Nat.succ_pos _) h.fits)

theorem PushesDue.contents_pushed (h : PushesDue (b :: more) rest s) :
    (s.fifo.pushed s.params.fifoDepth b).contents s.params.fifoDepth
      = s.fifo.contents s.params.fifoDepth ++ [b] := by
  obtain ⟨-, -, hhead, htail, -⟩ := h.inv
  exact Fifo.contents_pushed b hhead htail h.not_full

/-- The push of the last byte replies OK and ends the operation. -/
theorem PushesDue.last_step (h : PushesDue [b] rest s) :
    ∃ t, step s = .next t ∧ Queued [b] s t ∧ t.enc.busy = false ∧ t.sched = rest
      ∧ t.replies = s.replies ++ [⟨.worker, [0x00]⟩] := by
  obtain ⟨-, -, hhead, -, -⟩ := h.inv
  obtain ⟨hturn, hsched⟩ := liveTurn_of_replicate h.live h.turns
  obtain ⟨hb, -, hlen⟩ := getElem?_of_drop_eq_cons h.due
  have hstep := (step_of_encoding hturn h.busy).trans (encodeStep_of_last hb hhead h.not_full hlen.symm)
  exact ⟨_, hstep, ⟨rfl, h.contents_pushed, rfl, rfl, rfl, rfl, rfl, rfl, rfl⟩, rfl, hsched, rfl⟩

/-- The push of any other byte leaves the bytes after it due. -/
theorem PushesDue.inner_step {c : Byte} (h : PushesDue (b :: c :: more) rest s) :
    ∃ t, step s = .next t ∧ Queued [b] s t ∧ PushesDue (c :: more) rest t ∧ t.replies = s.replies := by
  obtain ⟨-, -, hhead, -, -⟩ := h.inv
  obtain ⟨hturn, hsched⟩ := liveTurn_of_replicate h.live h.turns
  obtain ⟨hb, hdue, hlen⟩ := getElem?_of_drop_eq_cons h.due
  have hpush := Fifo.push_of_not_full b hhead h.not_full
  have hspace : s.fifo.space s.params.fifoDepth = (s.fifo.pushed s.params.fifoDepth b).space s.params.fifoDepth + 1 :=
    Fifo.push_space h.inv hpush
  have hfits : (c :: more).length ≤ (s.fifo.pushed s.params.fifoDepth b).space s.params.fifoDepth :=
    Nat.le_of_succ_le_succ (h.fits.trans_eq hspace)
  have hmore : s.enc.idx + 1 ≠ s.enc.bytes.length := by
    rw [hlen, List.length_cons]
    omega
  have hstep := (step_of_encoding hturn h.busy).trans (encodeStep_of_more hb hhead h.not_full hmore)
  exact ⟨_, hstep, ⟨rfl, h.contents_pushed, rfl, rfl, rfl, rfl, rfl, rfl, rfl⟩,
    ⟨Fifo.push_keeps_inv h.inv hpush, h.busy, hdue, hfits, h.live, hsched⟩, rfl⟩

end

/-- The run of the bytes due, by induction on them: each step pushes one, and the last replies. -/
theorem PushesDue.run {b : Byte} {more : List Byte} {rest : List Agent} {s : State}
    (h : PushesDue (b :: more) rest s) :
    ∃ t, runFor (more.length + 1) s = .next t ∧ Queued (b :: more) s t ∧ t.enc.busy = false ∧ t.sched = rest
      ∧ t.replies = s.replies ++ [⟨.worker, [0x00]⟩] := by
  induction more generalizing b s with
  | nil =>
    obtain ⟨t, hstep, ht⟩ := h.last_step
    exact ⟨t, runFor_succ hstep, ht⟩
  | cons c more ih =>
    obtain ⟨t, hstep, hqueued, hdue, hreplies⟩ := h.inner_step
    obtain ⟨u, hrun, hqueued', hbusy, hsched, hreplies'⟩ := ih hdue
    exact ⟨u, (runFor_succ hstep).trans hrun, hqueued.trans hqueued', hbusy, hsched, hreplies ▸ hreplies'⟩

/-- Settles O51: all bytes are due at first, and the run pushes them one by one. -/
theorem encoderQueuesTheWholeMessage : Obligations.EncoderQueuesTheWholeMessage := by
  intro s bytes rest _ hinv henc hne hfits hlive hsched
  obtain ⟨b, more, rfl⟩ := List.exists_cons_of_ne_nil hne
  have hdue : PushesDue (b :: more) rest s := ⟨hinv, by rw [henc], by rw [henc]; rfl, hfits, hlive, hsched⟩
  obtain ⟨t, hrun, hqueued, hbusy, hrest, hreplies⟩ := hdue.run
  exact ⟨t, hrun, hqueued.contents, hreplies, hbusy, hrest, hqueued.tail, hqueued.ovf, hqueued.ac, hqueued.dec,
    hqueued.rd, hqueued.wr, hqueued.sinkHeld⟩

/-- Settles O50: the push finds the FIFO full, or a slot at `FIFO_HEAD`, for the last byte or another. -/
theorem encoderPushSteps : Obligations.EncoderPushSteps := by
  intro s b hturn hbusy hb hhead
  have hstep := step_of_encoding hturn hbusy
  refine ⟨fun hfull => hstep.trans (encodeStep_of_full hb hfull), fun hfull =>
    ⟨s.fifo.mem.put s.fifo.head b, fun i => Memory.load_put _ _ _ _, fun hlast => ?_, fun hmore => ?_⟩⟩
  · exact hstep.trans (encodeStep_of_last hb hhead hfull hlast)
  · exact hstep.trans (encodeStep_of_more hb hhead hfull hmore)

/-- Settles O48: the two ways of FRM_ENC's space check. -/
theorem encoderTakesWholeMessages : Obligations.EncoderTakesWholeMessages := by
  intro s ty payload
  rw [exec_of_encoderOperands (i := .frmEnc ty payload) rfl s]
  exact ⟨encodeStart_rejected ty, encodeStart_accepted ty⟩

end Sys2Proof.Machine

/-! ## The decoder: a message goes in byte by byte (R221, R236 to R239, R243, R246) -/

namespace Sys2Proof.Machine

/-! ### The three header bytes -/

theorem header_eq (v : Vector Byte 3) : v = #v[v[0], v[1], v[2]] := by
  ext i hi
  obtain rfl | rfl | rfl : i = 0 ∨ i = 1 ∨ i = 2 := by omega
  all_goals rfl

theorem header_set_zero (v : Vector Byte 3) (b : Byte) : v.set 0 b = #v[b, v[1], v[2]] := by
  rw [header_eq v]; rfl

theorem header_set_one (v : Vector Byte 3) (b : Byte) : v.set 1 b = #v[v[0], b, v[2]] := by
  rw [header_eq v]; rfl

theorem header_set_two (v : Vector Byte 3) (b : Byte) : v.set 2 b = #v[v[0], v[1], b] := by
  rw [header_eq v]; rfl

/-! ### One byte (R236 to R239) -/

section
variable {o : LenOrder} {b : Byte} {d : Decoder}

theorem Decoder.feed_of_hcnt_zero (hp : d.phase = .hdr) (hc : d.hcnt = 0) :
    d.feed o b = .ok { d with hdr := #v[b, d.hdr[1], d.hdr[2]], hcnt := 1 } := by
  simp only [Decoder.feed, hp, Decoder.headerStep, hc, header_set_zero]

theorem Decoder.feed_of_hcnt_one (hp : d.phase = .hdr) (hc : d.hcnt = 1) :
    d.feed o b = .ok { d with hdr := #v[d.hdr[0], b, d.hdr[2]], hcnt := 2 } := by
  simp only [Decoder.feed, hp, Decoder.headerStep, hc, header_set_one]

theorem Decoder.feed_of_len_zero (hp : d.phase = .hdr) (hc : d.hcnt = 2) (hl : len16 o d.hdr[1] b = 0) :
    d.feed o b = .ok { d with
      hdr := #v[d.hdr[0], d.hdr[1], b], hcnt := 0, len := 0, pendType := d.hdr[0], pendLen := 0, pend := true } := by
  have h : len16 o #v[d.hdr[0], d.hdr[1], b][1] #v[d.hdr[0], d.hdr[1], b][2] = 0 := hl
  simp only [Decoder.feed, hp, Decoder.headerStep, hc, header_set_two, Decoder.headerDone, h, if_true]
  rfl

theorem Decoder.feed_of_len_ne_zero (hp : d.phase = .hdr) (hc : d.hcnt = 2) (hl : len16 o d.hdr[1] b ≠ 0) :
    d.feed o b = .ok { d with
      hdr := #v[d.hdr[0], d.hdr[1], b], hcnt := 0, len := len16 o d.hdr[1] b, phase := .pay, cnt := 0 } := by
  simp only [Decoder.feed, hp, Decoder.headerStep, hc, header_set_two, Decoder.headerDone]
  exact congrArg Except.ok (if_neg hl)

theorem Decoder.feed_of_pay_last (hp : d.phase = .pay) (hs : d.cnt.toNat < decBufSize) (hl : d.cnt + 1 = d.len) :
    d.feed o b = .ok { d with
      buf := d.buf.put d.cnt.toNat b, cnt := d.cnt + 1, phase := .hdr
      pendType := d.hdr[0], pendLen := d.len, pend := true } := by
  simp only [Decoder.feed, hp, Decoder.payloadStep, Memory.store, hs, hl, if_true, Decoder.dispatch]

theorem Decoder.feed_of_pay_more (hp : d.phase = .pay) (hs : d.cnt.toNat < decBufSize) (hl : d.cnt + 1 ≠ d.len) :
    d.feed o b = .ok { d with buf := d.buf.put d.cnt.toNat b, cnt := d.cnt + 1 } := by
  simp only [Decoder.feed, hp, Decoder.payloadStep, Memory.store, hs, hl, if_true, if_false]

end

/-- Below 65535 the 16-bit counter does not wrap. -/
theorem add_one_eq_iff_toNat {c l : U16} (h : c.toNat < 65535) : c + 1 = l ↔ c.toNat + 1 = l.toNat := by
  bv_omega

/-! ### FRM_DEC (R236) -/

theorem exec_frmDec_of_pend {s : State} (b : Byte) (hp : s.dec.pend = true) :
    exec (.frmDec b) s = .next { s with wr := some ⟨[b], 0, false⟩ } :=
  if_pos hp

theorem exec_frmDec_of_feed {s : State} {b : Byte} {d : Decoder} (hp : s.dec.pend = false)
    (hd : s.dec.feed s.params.lenOrder b = .ok d) : exec (.frmDec b) s = .next { s with dec := d } := by
  simp only [exec, execFrmDec, hp, hd, if_false, Bool.false_eq_true]

theorem exec_frmDec_of_fault {s : State} {b : Byte} {f : Fault} (hp : s.dec.pend = false)
    (hd : s.dec.feed s.params.lenOrder b = .error f) : exec (.frmDec b) s = .fault f := by
  simp only [exec, execFrmDec, hp, hd, if_false, Bool.false_eq_true]

/-- Settles O53: FRM_DEC does with its byte what the decoder's phase and count say. -/
theorem decoderStepsAsStated : Obligations.DecoderStepsAsStated := by
  intro s b hpend
  refine ⟨fun hp hc => exec_frmDec_of_feed hpend (Decoder.feed_of_hcnt_zero hp hc),
    fun hp hc => exec_frmDec_of_feed hpend (Decoder.feed_of_hcnt_one hp hc),
    fun hp hc hl => exec_frmDec_of_feed hpend (Decoder.feed_of_len_zero hp hc hl),
    fun hp hc hl => exec_frmDec_of_feed hpend (Decoder.feed_of_len_ne_zero hp hc hl), fun hp hs => ?payload⟩
  have hcount := add_one_eq_iff_toNat (l := s.dec.len) hs
  exact ⟨s.dec.buf.put s.dec.cnt.toNat b, fun i => Memory.load_put _ _ _ _,
    fun hlast => exec_frmDec_of_feed hpend (Decoder.feed_of_pay_last hp hs (hcount.mpr hlast)),
    fun hmore => exec_frmDec_of_feed hpend (Decoder.feed_of_pay_more hp hs (mt hcount.mp hmore))⟩

/-! ### WRITER's operation in progress (R236, R243) -/

theorem step_of_writing {s : State} {op : WriteOp} (h : LiveTurn .writer s) (hop : s.wr = some op) :
    step s = writeStep op (handOver s) := by
  rw [step_of_busy h (by rw [State.busy, hop]; rfl)]
  simp only [continueOp, hop]

theorem writeStep_of_pend {s : State} (op : WriteOp) (hp : s.dec.pend = true) : writeStep op s = .next s :=
  if_pos hp

theorem writeStep_of_feed {s : State} {op : WriteOp} {b : Byte} {d : Decoder} (hp : s.dec.pend = false)
    (hb : op.bytes[op.idx]? = some b) (hd : s.dec.feed s.params.lenOrder b = .ok d) :
    writeStep op s = .next (writeAdvance op { s with dec := d }) := by
  simp only [writeStep, hp, hb, hd, if_false, Bool.false_eq_true]

theorem writeStep_of_fault {s : State} {op : WriteOp} {b : Byte} {f : Fault} (hp : s.dec.pend = false)
    (hb : op.bytes[op.idx]? = some b) (hd : s.dec.feed s.params.lenOrder b = .error f) :
    writeStep op s = .fault f := by
  simp only [writeStep, hp, hb, hd, if_false, Bool.false_eq_true]

theorem writeAdvance_of_more {op : WriteOp} (s : State) (h : op.idx + 1 ≠ op.bytes.length) :
    writeAdvance op s = { s with wr := some { op with idx := op.idx + 1 } } :=
  if_neg h

theorem writeAdvance_of_last {op : WriteOp} (s : State) (h : op.idx + 1 = op.bytes.length) :
    writeAdvance op s = { s with
      wr := none
      replies := if op.replies then
          s.replies ++ [⟨.writer, u16 s.params.lenOrder (BitVec.ofNat 16 op.bytes.length)⟩]
        else s.replies } := by
  rw [writeAdvance, if_pos h]
  cases op.replies <;> rfl

/-- Settles O54: FRM_DEC keeps its byte, WRITER's step passes, and a one-byte operation is an FRM_DEC of its byte. -/
theorem pendingMessageHoldsTheWriter : Obligations.PendingMessageHoldsTheWriter := by
  refine ⟨fun s b hp => ⟨_, exec_frmDec_of_pend b hp, rfl, rfl, rfl⟩, fun s hturn hwr hp => ?hold,
    fun s b hturn hwr hp => ?resume⟩
  case hold =>
    obtain ⟨op, hop⟩ := Option.ne_none_iff_exists'.mp hwr
    exact (step_of_writing hturn hop).trans (writeStep_of_pend op hp)
  case resume =>
    rw [step_of_writing hturn hwr]
    have hb : [b][0]? = some b := rfl
    cases hd : s.dec.feed s.params.lenOrder b with
    | error f =>
      rw [writeStep_of_fault (s := handOver s) hp hb hd,
        exec_frmDec_of_fault (s := { handOver s with wr := none }) hp hd]
    | ok d =>
      rw [writeStep_of_feed (s := handOver s) hp hb hd,
        exec_frmDec_of_feed (s := { handOver s with wr := none }) hp hd]
      rfl

/-- Settles O55: WRITER's step feeds the byte FRM_DEC would, and `writeAdvance` tells the last byte from the others. -/
theorem writerFeedsByteByByte : Obligations.WriterFeedsByteByByte := by
  refine ⟨fun s => ?empty, fun s bytes hne => if_neg hne, fun s t bytes idx replies b hturn hwr hp hb ht => ?byte⟩
  case empty =>
    have hzero : u16 s.params.lenOrder 0 = [0x00, 0x00] := by cases s.params.lenOrder <;> rfl
    rw [← hzero]
    rfl
  case byte =>
    cases hd : s.dec.feed s.params.lenOrder b with
    | error f => cases (exec_frmDec_of_fault (s := { handOver s with wr := none }) hp hd).symm.trans ht
    | ok d =>
      cases (exec_frmDec_of_feed (s := { handOver s with wr := none }) hp hd).symm.trans ht
      have hstep := (step_of_writing hturn hwr).trans (writeStep_of_feed (s := handOver s) hp hb hd)
      exact ⟨fun hmore => hstep.trans (congrArg _ (writeAdvance_of_more _ hmore)),
        fun hlast => hstep.trans (congrArg _ (writeAdvance_of_last _ hlast))⟩

/-! ### FRM_ACCEPT (R246) -/

theorem acceptStep_of_pend {s : State} {payload : List Byte} (hp : s.dec.pend = true)
    (hl : s.dec.buf.loadRange 0 s.dec.pendLen.toNat = some payload) :
    acceptStep s = .next { s with
      dec := { s.dec with pend := false }, sinkHeld := false
      replies := s.replies ++ [⟨.sink, [s.dec.pendType] ++ u16 s.params.lenOrder s.dec.pendLen ++ payload⟩] } := by
  simp only [acceptStep, hp, Decoder.message, hl, Option.map_some, if_true, State.reply, List.cons_append,
    List.nil_append]

theorem acceptStep_of_not_pend {s : State} (hp : s.dec.pend = false) :
    acceptStep s = .next { s with sinkHeld := true } := by
  simp only [acceptStep, hp, if_false, Bool.false_eq_true]

/-- A turn of a SINK that holds changes nothing while nothing is pending (R316). -/
theorem acceptStep_of_held {s : State} (hp : s.dec.pend = false) (hs : s.sinkHeld = true) :
    acceptStep s = .next s := by
  rw [acceptStep_of_not_pend hp, ← hs]

theorem step_of_accepting {s : State} (h : LiveTurn .sink s) (hs : s.sinkHeld = true) :
    step s = acceptStep (handOver s) :=
  (step_of_busy h hs).trans (if_pos hs)

/-- Settles O56: FRM_ACCEPT, issued or held, is one `acceptStep`. -/
theorem acceptRepliesTheMessage : Obligations.AcceptRepliesTheMessage :=
  ⟨fun _ _ => acceptStep_of_pend, fun _ => acceptStep_of_not_pend, fun s hturn hheld =>
    ⟨fun hp => (step_of_accepting hturn hheld).trans (acceptStep_of_held (s := handOver s) hp hheld),
      fun _ => step_of_accepting hturn hheld⟩⟩

end Sys2Proof.Machine

/-! ## A whole message through the decoder (R220, R221, R242) -/

namespace Sys2Proof.Machine

/-! ### The bytes the decoder takes -/

/-- The decoder takes the bytes one by one, nothing being pending before any of them. -/
inductive Decoder.Takes (o : LenOrder) : Decoder → List Byte → Decoder → Prop
  | nil {d : Decoder} : Decoder.Takes o d [] d
  | cons {d e f : Decoder} {b : Byte} {bs : List Byte} (hpend : d.pend = false) (hfeed : d.feed o b = .ok e)
      (hrest : Decoder.Takes o e bs f) : Decoder.Takes o d (b :: bs) f

section
variable {o : LenOrder} {d e f : Decoder} {b : Byte} {bs cs : List Byte}

theorem Decoder.Takes.eq_of_nil (h : d.Takes o [] e) : d = e := by
  cases h
  rfl

theorem Decoder.Takes.uncons (h : d.Takes o (b :: bs) f) :
    d.pend = false ∧ ∃ e, d.feed o b = .ok e ∧ e.Takes o bs f := by
  cases h with
  | cons hpend hfeed hrest => exact ⟨hpend, _, hfeed, hrest⟩

theorem Decoder.Takes.append (h : d.Takes o bs e) (h' : e.Takes o cs f) : d.Takes o (bs ++ cs) f := by
  induction h with
  | nil => exact h'
  | cons hpend hfeed _ ih => exact .cons hpend hfeed (ih h')

end

/-- The message (`ty`, `payload`) is pending, and the decoder is at a message boundary (R221, R239). -/
structure Decoder.Delivers (ty : Byte) (payload : List Byte) (d : Decoder) : Prop where
  pend : d.pend = true
  pendType : d.pendType = ty
  pendLen : d.pendLen.toNat = payload.length
  stored : d.buf.loadRange 0 payload.length = some payload
  phase : d.phase = .hdr
  hcnt : d.hcnt = 0

/-- In the payload of a message of type `ty`: `done` is in the buffer, and `more` is to come (R238). -/
structure Decoder.PayloadDue (ty : Byte) (done more : List Byte) (d : Decoder) : Prop where
  pend : d.pend = false
  phase : d.phase = .pay
  hcnt : d.hcnt = 0
  type : d.hdr[0] = ty
  stored : d.buf.loadRange 0 done.length = some done
  cnt : d.cnt.toNat = done.length
  len : d.len.toNat = done.length + more.length

section
variable {o : LenOrder} {ty b : Byte} {done more : List Byte} {d : Decoder}

theorem Decoder.PayloadDue.slot (h : d.PayloadDue ty done (b :: more)) : d.cnt.toNat < decBufSize := by
  have hlen := h.len
  have hcnt := h.cnt
  have hlt := d.len.isLt
  rw [List.length_cons] at hlen
  rw [decBufSize]
  omega

theorem Decoder.PayloadDue.stored_put (h : d.PayloadDue ty done (b :: more)) :
    (d.buf.put d.cnt.toNat b).loadRange 0 (done ++ [b]).length = some (done ++ [b]) := by
  rw [h.cnt, List.length_append]
  refine Memory.loadRange_succ ((Memory.loadRange_congr fun j hj => ?_).trans h.stored) ?_
  · exact Memory.load_put_other _ b (by omega)
  · rw [Nat.zero_add, Memory.load_put_same]

/-- The last payload byte dispatches the message. -/
theorem Decoder.PayloadDue.feed_last (h : d.PayloadDue ty done [b]) :
    ∃ e, d.feed o b = .ok e ∧ e.Delivers ty (done ++ [b]) := by
  have hlast : d.cnt + 1 = d.len := (add_one_eq_iff_toNat h.slot).mpr (by rw [h.len, h.cnt]; rfl)
  exact ⟨_, Decoder.feed_of_pay_last h.phase h.slot hlast, rfl, h.type, by rw [h.len, List.length_append],
    h.stored_put, rfl, h.hcnt⟩

/-- Any other payload byte leaves those after it to come. -/
theorem Decoder.PayloadDue.feed_more {c : Byte} (h : d.PayloadDue ty done (b :: c :: more)) :
    ∃ e, d.feed o b = .ok e ∧ e.PayloadDue ty (done ++ [b]) (c :: more) := by
  have hlen := h.len
  have hcnt := h.cnt
  simp only [List.length_cons] at hlen
  have hmore : d.cnt + 1 ≠ d.len := mt (add_one_eq_iff_toNat h.slot).mp (by omega)
  have hnext : (d.cnt + 1).toNat = d.cnt.toNat + 1 := toNat_add_one_of_lt (l := d.len) (by omega)
  refine ⟨_, Decoder.feed_of_pay_more h.phase h.slot hmore, h.pend, h.phase, h.hcnt, h.type, h.stored_put, ?_, ?_⟩
  · rw [hnext, hcnt, List.length_append, List.length_singleton]
  · simp only [hlen, List.length_append, List.length_cons, List.length_nil]
    omega

end

/-- The bytes of a payload, by induction on those to come. -/
theorem Decoder.PayloadDue.takes {o : LenOrder} {ty b : Byte} {done more : List Byte} {d : Decoder}
    (h : d.PayloadDue ty done (b :: more)) : ∃ e, d.Takes o (b :: more) e ∧ e.Delivers ty (done ++ b :: more) := by
  induction more generalizing b done d with
  | nil =>
    obtain ⟨e, hfeed, he⟩ := h.feed_last
    exact ⟨e, .cons h.pend hfeed .nil, he⟩
  | cons c more ih =>
    obtain ⟨e, hfeed, he⟩ := h.feed_more
    obtain ⟨f, htakes, hf⟩ := ih he
    exact ⟨f, .cons h.pend hfeed htakes, by rwa [List.append_cons]⟩

/-- Three header bytes with a length of 0 are a whole message. -/
theorem Decoder.takes_empty_message {o : LenOrder} (ty : Byte) {x1 x2 : Byte} {d : Decoder} (hpend : d.pend = false)
    (hphase : d.phase = .hdr) (hhcnt : d.hcnt = 0) (hlen : len16 o x1 x2 = 0) :
    ∃ e, d.Takes o [ty, x1, x2] e ∧ e.Delivers ty [] :=
  ⟨_, .cons hpend (feed_of_hcnt_zero hphase hhcnt) (.cons hpend (feed_of_hcnt_one hphase rfl)
    (.cons hpend (feed_of_len_zero hphase rfl hlen) .nil)), rfl, rfl, rfl, rfl, hphase, rfl⟩

/-- Three header bytes with another length leave the payload to come (R237). -/
theorem Decoder.takes_header {o : LenOrder} (ty : Byte) {x1 x2 : Byte} {payload : List Byte} {d : Decoder}
    (hpend : d.pend = false) (hphase : d.phase = .hdr) (hhcnt : d.hcnt = 0)
    (hlen : (len16 o x1 x2).toNat = payload.length) (hne : payload ≠ []) :
    ∃ e, d.Takes o [ty, x1, x2] e ∧ e.PayloadDue ty [] payload := by
  have hzero : len16 o x1 x2 ≠ 0 := fun h => hne (List.length_eq_zero_iff.mp (by rw [← hlen, h]; rfl))
  exact ⟨_, .cons hpend (feed_of_hcnt_zero hphase hhcnt) (.cons hpend (feed_of_hcnt_one hphase rfl)
    (.cons hpend (feed_of_len_ne_zero hphase rfl hzero) .nil)), hpend, rfl, rfl, rfl, rfl, rfl,
    hlen.trans (Nat.zero_add _).symm⟩

/-- From a message boundary `ser(T, P)` delivers (T, P), on its last byte (R221). -/
theorem Decoder.takes_ser {o : LenOrder} (ty : Byte) {payload : List Byte} {d : Decoder} (hpend : d.pend = false)
    (hphase : d.phase = .hdr) (hhcnt : d.hcnt = 0) (hlen : payload.length ≤ 65535) :
    ∃ e, d.Takes o (ser o ty payload) e ∧ e.Delivers ty payload := by
  obtain ⟨x1, x2, hu16, hlen16⟩ := Laws.PacketLength.count_read_back o hlen
  rw [ser, hu16]
  cases payload with
  | nil => exact Decoder.takes_empty_message ty hpend hphase hhcnt (BitVec.eq_of_toNat_eq hlen16)
  | cons b more =>
    obtain ⟨e, hheader, he⟩ := Decoder.takes_header ty hpend hphase hhcnt hlen16 (List.cons_ne_nil b more)
    obtain ⟨f, hpayload, hf⟩ := he.takes
    exact ⟨f, hheader.append hpayload, hf⟩

/-! ### WRITER's run -/

/-- WRITER is due to feed `bytes`, which take the decoder to `d`, and has a turn for each before the turns `rest`. -/
structure FeedsDue (bytes : List Byte) (d : Decoder) (rest : List Agent) (s : State) : Prop where
  due : ∃ op, s.wr = some op ∧ op.bytes.drop op.idx = bytes
  takes : s.dec.Takes s.params.lenOrder bytes d
  live : .writer ∉ s.halted
  turns : s.sched = List.replicate bytes.length .writer ++ rest

/-- What WRITER's bytes leave unchanged outside the decoder, its own operation and the replies. -/
structure Fed (s t : State) : Prop where
  params : t.params = s.params
  fifo : t.fifo = s.fifo
  ac : t.ac = s.ac
  enc : t.enc = s.enc

theorem Fed.trans {s t u : State} (h : Fed s t) (h' : Fed t u) : Fed s u :=
  ⟨h'.params.trans h.params, h'.fifo.trans h.fifo, h'.ac.trans h.ac, h'.enc.trans h.enc⟩

section
variable {b : Byte} {more : List Byte} {d : Decoder} {rest : List Agent} {s : State}

theorem FeedsDue.not_pend (h : FeedsDue (b :: more) d rest s) : s.dec.pend = false :=
  h.takes.uncons.1

/-- The step of the last byte ends the operation. -/
theorem FeedsDue.last_step (h : FeedsDue [b] d rest s) :
    ∃ t, step s = .next t ∧ Fed s t ∧ t.dec = d ∧ t.wr = none := by
  obtain ⟨op, hop, hdue⟩ := h.due
  obtain ⟨hpend, e, hfeed, hnil⟩ := h.takes.uncons
  obtain rfl := hnil.eq_of_nil
  obtain ⟨hturn, -⟩ := liveTurn_of_replicate h.live h.turns
  obtain ⟨hb, -, hlen⟩ := getElem?_of_drop_eq_cons hdue
  have hstep := (step_of_writing hturn hop).trans (writeStep_of_feed (s := handOver s) hpend hb hfeed)
  rw [writeAdvance_of_last _ hlen.symm] at hstep
  exact ⟨_, hstep, ⟨rfl, rfl, rfl, rfl⟩, rfl, rfl⟩

/-- The step of any other byte leaves the bytes after it due. -/
theorem FeedsDue.inner_step {c : Byte} (h : FeedsDue (b :: c :: more) d rest s) :
    ∃ t, step s = .next t ∧ Fed s t ∧ FeedsDue (c :: more) d rest t := by
  obtain ⟨op, hop, hdue⟩ := h.due
  obtain ⟨hpend, e, hfeed, htakes⟩ := h.takes.uncons
  obtain ⟨hturn, hsched⟩ := liveTurn_of_replicate h.live h.turns
  obtain ⟨hb, hdue', hlen⟩ := getElem?_of_drop_eq_cons hdue
  have hmore : op.idx + 1 ≠ op.bytes.length := by
    rw [hlen, List.length_cons]
    omega
  have hstep := (step_of_writing hturn hop).trans (writeStep_of_feed (s := handOver s) hpend hb hfeed)
  rw [writeAdvance_of_more _ hmore] at hstep
  exact ⟨_, hstep, ⟨rfl, rfl, rfl, rfl⟩, ⟨_, rfl, hdue'⟩, htakes, h.live, hsched⟩

end

/-- The run of the bytes due, by induction on them: the decoder ends where they take it, and nothing is pending before
the last of the steps. -/
theorem FeedsDue.run {b : Byte} {more : List Byte} {d : Decoder} {rest : List Agent} {s : State}
    (h : FeedsDue (b :: more) d rest s) :
    (∀ k, k < more.length + 1 → ∃ u, runFor k s = .next u ∧ u.dec.pend = false)
    ∧ ∃ t, runFor (more.length + 1) s = .next t ∧ Fed s t ∧ t.dec = d ∧ t.wr = none := by
  induction more generalizing b s with
  | nil =>
    obtain ⟨t, hstep, ht⟩ := h.last_step
    refine ⟨fun k hk => ?_, t, runFor_succ hstep, ht⟩
    obtain rfl : k = 0 := by simpa using hk
    exact ⟨s, rfl, h.not_pend⟩
  | cons c more ih =>
    obtain ⟨t, hstep, hfed, hdue⟩ := h.inner_step
    obtain ⟨hbefore, u, hrun, hfed', hu⟩ := ih hdue
    refine ⟨fun k hk => ?_, u, (runFor_succ hstep).trans hrun, hfed.trans hfed', hu⟩
    cases k with
    | zero => exact ⟨s, rfl, h.not_pend⟩
    | succ k =>
      obtain ⟨v, hv, hpend⟩ := hbefore k (Nat.lt_of_succ_lt_succ hk)
      exact ⟨v, (runFor_succ hstep).trans hv, hpend⟩

/-- FRM_ACCEPT of a message delivered replies its serialised bytes (R220, R246). -/
theorem Decoder.Delivers.accept {s : State} {ty : Byte} {payload : List Byte} (h : s.dec.Delivers ty payload) :
    ∃ u, exec .frmAccept s = .next u
      ∧ u.replies = s.replies ++ [⟨.sink, ser s.params.lenOrder ty payload⟩] ∧ u.dec.pend = false := by
  have hlen : s.dec.pendLen = BitVec.ofNat 16 payload.length := by
    rw [← h.pendLen, BitVec.ofNat_toNat, BitVec.setWidth_eq]
  have hser :
      [s.dec.pendType] ++ u16 s.params.lenOrder s.dec.pendLen ++ payload = ser s.params.lenOrder ty payload := by
    rw [h.pendType, hlen, ser]
    rfl
  have haccept := acceptStep_of_pend h.pend (h.pendLen ▸ h.stored)
  rw [hser] at haccept
  exact ⟨_, haccept, rfl, rfl⟩

/-- Settles O57: `ser(T, P)` takes the decoder to the delivered message, WRITER's run feeds it, and FRM_ACCEPT
replies it. -/
theorem serialisedMessageRoundTrips : Obligations.SerialisedMessageRoundTrips := by
  intro s ty payload replies rest hlen hphase hhcnt hpend hlive hwr hsched
  obtain ⟨d, htakes, hd⟩ := Decoder.takes_ser (o := s.params.lenOrder) ty hpend hphase hhcnt hlen
  obtain ⟨b, more, hser⟩ := List.exists_cons_of_ne_nil (ser_ne_nil s.params.lenOrder ty payload)
  have hcount : 3 + payload.length = more.length + 1 := by
    rw [← length_ser s.params.lenOrder ty, hser, List.length_cons]
  have hdue : FeedsDue (b :: more) d rest s :=
    ⟨⟨_, hwr, hser⟩, hser ▸ htakes, hlive, by rw [hsched, hcount, List.length_cons]⟩
  obtain ⟨hbefore, t, hrun, hfed, rfl, hdone⟩ := hdue.run
  obtain ⟨u, haccept, hreplies, hcleared⟩ := hd.accept
  rw [hcount]
  exact ⟨hbefore, t, hrun, hd.pend, hd.pendType, hd.pendLen, hd.stored, hd.phase, hd.hcnt, hdone, hfed.fifo, hfed.ac,
    hfed.enc, u, haccept, hfed.params ▸ hreplies, hcleared⟩

end Sys2Proof.Machine

/-! ## The FIFO: what its operations do to the queue (R271 to R285) -/

namespace Sys2Proof.Machine

/-! ### Occupancy (R271 to R273) -/

theorem Fifo.empty_iff_head_eq_tail {f : Fifo} : f.empty = true ↔ f.head = f.tail := beq_iff_eq

theorem Fifo.full_eq_false_iff {n : Nat} {f : Fifo} : f.full n = false ↔ f.occ n ≠ n - 1 := by
  rw [← Bool.not_eq_true, Fifo.full_iff]

/-- The occupancy as the spec writes it, on integers (R271). -/
theorem Fifo.occ_eq_emod {n : Nat} {f : Fifo} (ht : f.tail < n) :
    (f.occ n : Int) = ((f.head : Int) - (f.tail : Int)) % (n : Int) := by
  have hsum : ((f.head + (n - f.tail) : Nat) : Int) = (f.head : Int) - f.tail + n := by omega
  rw [Fifo.occ, Nat.mod_eq_of_lt ht, Int.natCast_emod, hsum, Int.add_emod_right]

/-- Settles O39: the bound is that of a residue, and the rest is what R271 to R273 define. -/
theorem occupancyIsTheResidue : Obligations.OccupancyIsTheResidue := by
  intro n f hn hhead htail
  exact ⟨Fifo.occ_eq_emod htail, Nat.le_sub_one_of_lt (Fifo.occ_lt f (by omega)), Fifo.empty_iff_head_eq_tail,
    Fifo.empty_iff hhead htail, Fifo.full_iff, fun _ => rfl, rfl, rfl⟩

/-- Settles O46: `FIFO_HEAD` is the slot at position `occ`, which is no position of the queue. -/
theorem pushNeverOverwritesTheQueue : Obligations.PushNeverOverwritesTheQueue := by
  intro n f j hhead htail _ hj
  have hocc : f.occ n < n := Fifo.occ_lt f (by omega)
  have hslot : (f.tail + f.occ n) % n = f.head := Fifo.head_eq_slot hhead htail
  exact hslot ▸ slot_ne htail (hj.trans hocc) hocc hj.ne

/-! ### The queue after a take -/

/-- `FIFO_OVF` is no part of the queue. -/
theorem Fifo.contents_withOvf (n : Nat) (f : Fifo) (o : Bool) : Fifo.contents n { f with ovf := o } = f.contents n :=
  rfl

/-- The FIFO after its oldest byte is taken (R277). -/
abbrev Fifo.popped (n : Nat) (f : Fifo) : Fifo := { f with tail := nextIndex n f.tail }

theorem Fifo.take_of_load {n : Nat} {f : Fifo} {b : Byte} (hb : f.mem.load f.tail = some b) :
    f.take n = .ok (b, f.popped n) := by
  simp only [Fifo.take, hb]

/-- A FIFO whose indices are equal holds no byte (R272). -/
theorem Fifo.contents_of_empty {n : Nat} {f : Fifo} (hf : FifoInv n f) (he : f.empty = true) : f.contents n = [] := by
  obtain ⟨-, -, hhead, htail, -⟩ := hf
  rw [Fifo.contents, (Fifo.empty_iff hhead htail).mp he]
  rfl

/-- The byte in the slot `FIFO_TAIL` names is the oldest, and the others stay queued behind it (R277, R282). -/
theorem Fifo.contents_of_load {n : Nat} {f : Fifo} {b : Byte} (hf : FifoInv n f) (he : f.empty = false)
    (hb : f.mem.load f.tail = some b) : f.contents n = b :: (f.popped n).contents n := by
  obtain ⟨-, -, hhead, htail, -⟩ := hf
  have hocc : f.occ n = (f.popped n).occ n + 1 := (Fifo.occ_take hhead htail he).symm
  have holdest : f.mem.load ((f.tail + 0) % n) = some b := by
    rwa [Nat.add_zero, Nat.mod_eq_of_lt htail]
  have hothers : ∀ j, f.mem.load ((f.tail + (j + 1)) % n) = f.mem.load ((nextIndex n f.tail + j) % n) :=
    fun j => congrArg _ slot_next.symm
  rw [Fifo.contents, hocc, List.range_succ_eq_map,
    List.filterMap_cons_some (f := fun j => f.mem.load ((f.tail + j) % n)) holdest, List.filterMap_map]
  exact congrArg _ (List.filterMap_congr fun j _ => hothers j)

theorem Fifo.contents_eq_nil_iff {n : Nat} {f : Fifo} (hf : FifoInv n f) : f.contents n = [] ↔ f.empty = true := by
  refine ⟨fun hnil => ?_, Fifo.contents_of_empty hf⟩
  cases he : f.empty with
  | true => rfl
  | false =>
    obtain ⟨b, hb, -⟩ := Fifo.take_ok hf he
    rw [Fifo.contents_of_load hf he hb] at hnil
    cases hnil

/-- The FIFO whose oldest byte is `b`: it is not empty, `FIFO_TAIL` names `b`, and a take leaves the bytes after it. -/
theorem Fifo.oldest_of_contents {n : Nat} {f : Fifo} {b : Byte} {later : List Byte} (hf : FifoInv n f)
    (h : f.contents n = b :: later) :
    f.empty = false ∧ f.mem.load f.tail = some b ∧ (f.popped n).contents n = later := by
  have he : f.empty = false := by
    rw [← Bool.not_eq_true, ← Fifo.contents_eq_nil_iff hf, h]
    exact List.cons_ne_nil b later
  obtain ⟨c, hc, -⟩ := Fifo.take_ok hf he
  have hcons := h.symm.trans (Fifo.contents_of_load hf he hc)
  rw [List.cons.injEq] at hcons
  obtain ⟨rfl, rfl⟩ := hcons
  exact ⟨he, hc, rfl⟩

/-! ### FIFO_PUSH and FIFO_POP (R275, R277) -/

section
variable {s : State} {b : Byte}

theorem exec_fifoPush_of_full (hf : s.fifo.full s.params.fifoDepth = true) :
    exec (.fifoPush b) s = .next { s with
      fifo := { s.fifo with ovf := true }, replies := s.replies ++ [⟨.worker, [0x01]⟩] } := by
  simp only [exec, execFifoPush, Fifo.push_of_full b hf, State.reply]

theorem exec_fifoPush_of_not_full (hh : s.fifo.head < s.params.fifoDepth)
    (hf : s.fifo.full s.params.fifoDepth = false) :
    exec (.fifoPush b) s = .next { s with
      fifo := s.fifo.pushed s.params.fifoDepth b, replies := s.replies ++ [⟨.worker, [0x00]⟩] } := by
  simp only [exec, execFifoPush, Fifo.push_of_not_full b hh hf, State.reply]

theorem exec_fifoPop_of_empty (he : s.fifo.empty = true) :
    exec .fifoPop s = .next { s with replies := s.replies ++ [⟨.consumer, [0x01]⟩] } :=
  if_pos he

theorem exec_fifoPop_of_not_empty (he : s.fifo.empty = false) (hb : s.fifo.mem.load s.fifo.tail = some b) :
    exec .fifoPop s = .next { s with
      fifo := s.fifo.popped s.params.fifoDepth, replies := s.replies ++ [⟨.consumer, [0x00, b]⟩] } := by
  simp only [exec, execFifoPop, he, Fifo.take_of_load hb, if_false, Bool.false_eq_true, State.reply]

end

/-- Settles O40: a full FIFO keeps the byte out, else it is written to the slot `FIFO_HEAD` names. -/
theorem pushQueuesOneByte : Obligations.PushQueuesOneByte := by
  intro s b hhead
  exact ⟨fun hocc => exec_fifoPush_of_full (Fifo.full_iff.mpr hocc), fun hocc =>
    ⟨s.fifo.mem.put s.fifo.head b, fun i => Memory.load_put _ _ _ _,
      exec_fifoPush_of_not_full hhead (Fifo.full_eq_false_iff.mpr hocc)⟩⟩

/-- Settles O41: an empty FIFO gives no byte, else the one in the slot `FIFO_TAIL` names is taken. -/
theorem popTakesTheOldestByte : Obligations.PopTakesTheOldestByte := by
  intro s
  exact ⟨fun heq => exec_fifoPop_of_empty (Fifo.empty_iff_head_eq_tail.mpr heq), fun b hne hb =>
    exec_fifoPop_of_not_empty (beq_eq_false_iff_ne.mpr hne) hb⟩

/-! ### FIFO_AVAIL and FIFO_SPACE (R280, R281) -/

/-- A legal FIFO has at most 65536 slots, so its counts fit in 16 bits (R10). -/
theorem toNat_ofNat_of_lt_depth {p : Params} (h : p.Legal) {k : Nat} (hk : k < p.fifoDepth) :
    (BitVec.ofNat 16 k).toNat = k := by
  obtain ⟨-, hmost⟩ := h
  exact (BitVec.toNat_ofNat k 16).trans (Nat.mod_eq_of_lt (hk.trans_le hmost))

/-- Settles O42: both counts are below the number of slots. -/
theorem availAndSpaceReplies : Obligations.AvailAndSpaceReplies := by
  intro s hlegal
  have hslots : 0 < s.params.fifoDepth := Nat.lt_of_lt_of_le Nat.two_pos hlegal.1
  have havail : s.fifo.avail s.params.fifoDepth < s.params.fifoDepth := Fifo.occ_lt _ hslots
  have hspace : s.fifo.space s.params.fifoDepth < s.params.fifoDepth := by
    rw [Fifo.space]
    omega
  exact ⟨_, _, toNat_ofNat_of_lt_depth hlegal havail, toNat_ofNat_of_lt_depth hlegal hspace, rfl, rfl⟩

/-! ### Pushes and pops keep the order (R282) -/

/-- Every push and pop answers a next state, whose FIFO keeps its invariant; the byte accepted comes last in the queue,
and the byte popped was its first. -/
theorem QueueOp.exec_keeps_order (q : QueueOp) {s : State} (hf : FifoInv s.params.fifoDepth s.fifo) :
    ∃ t, exec q.instr s = .next t ∧ t.params = s.params ∧ FifoInv s.params.fifoDepth t.fifo
      ∧ s.fifo.contents s.params.fifoDepth ++ q.accepted t = q.popped t ++ t.fifo.contents s.params.fifoDepth := by
  obtain ⟨-, -, hhead, htail, -⟩ := id hf
  cases q with
  | push b =>
    cases hfull : s.fifo.full s.params.fifoDepth with
    | true =>
      refine ⟨_, exec_fifoPush_of_full hfull, rfl, Fifo.push_keeps_inv hf (Fifo.push_of_full b hfull), ?_⟩
      simp [QueueOp.accepted, QueueOp.popped, Fifo.contents_withOvf]
    | false =>
      refine ⟨_, exec_fifoPush_of_not_full hhead hfull, rfl,
        Fifo.push_keeps_inv hf (Fifo.push_of_not_full b hhead hfull), ?_⟩
      simp [QueueOp.accepted, QueueOp.popped, Fifo.contents_pushed b hhead htail hfull]
  | pop =>
    cases hempty : s.fifo.empty with
    | true =>
      refine ⟨_, exec_fifoPop_of_empty hempty, rfl, hf, ?_⟩
      simp [QueueOp.accepted, QueueOp.popped]
    | false =>
      obtain ⟨b, hb, htake⟩ := Fifo.take_ok hf hempty
      refine ⟨_, exec_fifoPop_of_not_empty hempty hb, rfl, Fifo.take_keeps_inv hf hempty htake, ?_⟩
      simp [QueueOp.accepted, QueueOp.popped, Fifo.contents_of_load hf hempty hb]

theorem runQueue_cons {q : QueueOp} {qs : List QueueOp} {s t u : State} {inn out : List Byte}
    (ht : exec q.instr s = .next t) (hu : runQueue qs t = some (u, inn, out)) :
    runQueue (q :: qs) s = some (u, q.accepted t ++ inn, q.popped t ++ out) := by
  simp only [runQueue, ht, hu]

/-- Settles O45, by induction on the operations: each keeps the order, and what is queued between it and the rest cancels. -/
theorem queueKeepsPushOrder : Obligations.QueueKeepsPushOrder := by
  intro qs s hlegal hf
  induction qs generalizing s with
  | nil => exact ⟨s, [], [], rfl, List.append_nil _⟩
  | cons q qs ih =>
    obtain ⟨t, ht, hparams, hf', horder⟩ := q.exec_keeps_order hf
    obtain ⟨u, inn, out, hu, horder'⟩ := ih t (hparams ▸ hlegal) (hparams ▸ hf')
    rw [hparams] at horder'
    refine ⟨u, _, _, runQueue_cons ht hu, ?_⟩
    rw [← List.append_assoc, horder, List.append_assoc, horder', List.append_assoc]

/-! ### FIFO_READ's steps (R279) -/

theorem u16_zero (o : LenOrder) : u16 o 0 = [0x00, 0x00] := by cases o <;> rfl

section
variable {op : ReadOp} {s : State}

theorem step_of_reading (h : LiveTurn .consumer s) (hop : s.rd = some op) : step s = readStep op (handOver s) := by
  rw [step_of_busy h (by rw [State.busy, hop]; rfl)]
  simp only [continueOp, hop]

theorem readStep_of_hold (hg : op.got = []) (he : s.fifo.empty = true) : readStep op s = .next s :=
  if_pos ⟨hg, he⟩

theorem readStep_of_done (hg : op.got ≠ []) (hd : op.got.length = op.n.toNat ∨ s.fifo.empty = true) :
    readStep op s = .next { s with
      rd := none
      replies := s.replies ++ [⟨.consumer, u16 s.params.lenOrder (BitVec.ofNat 16 op.got.length) ++ op.got⟩] } := by
  rw [readStep, if_neg fun h => hg h.1, if_pos hd]
  rfl

theorem readStep_of_more {b : Byte} (hm : op.got.length ≠ op.n.toNat) (he : s.fifo.empty = false)
    (hb : s.fifo.mem.load s.fifo.tail = some b) :
    readStep op s = .next { s with
      fifo := s.fifo.popped s.params.fifoDepth, rd := some { op with got := op.got ++ [b] } } := by
  simp only [readStep, hm, he, Fifo.take_of_load hb, Bool.false_eq_true, and_false, or_false, if_false]

end

/-- Settles O43: FIFO_READ begins, and each later step holds, replies or takes a byte, as `readStep` tells them apart. -/
theorem readStepsAsStated : Obligations.ReadStepsAsStated := by
  refine ⟨fun s => ?none_asked, fun s n hn => if_neg hn, fun s n got hturn hrd hn => ⟨fun hgot heq => ?hold,
    fun hdone => ?done, fun b hmore hne hb => ?more⟩⟩
  case none_asked =>
    rw [← u16_zero s.params.lenOrder]
    rfl
  all_goals rw [step_of_reading hturn hrd]
  case hold => exact readStep_of_hold hgot (Fifo.empty_iff_head_eq_tail.mpr heq)
  case done =>
    have hgot : got ≠ [] := by
      rcases hdone with hall | ⟨hgot, -⟩
      · rintro rfl
        exact hn (BitVec.eq_of_toNat_eq hall.symm)
      · exact hgot
    exact readStep_of_done (s := handOver s) hgot
      (hdone.imp_right fun ⟨_, heq⟩ => Fifo.empty_iff_head_eq_tail.mpr heq)
  case more => exact readStep_of_more (s := handOver s) hmore (beq_eq_false_iff_ne.mpr hne) hb

/-! ### A run of FIFO_READ (R279, R285) -/

/-- What CONSUMER's takes of `bytes` leave: these were the oldest and are no longer queued, and nothing else of the block
but its own operation and the replies differs. -/
structure Drained (bytes : List Byte) (s t : State) : Prop where
  params : t.params = s.params
  contents : s.fifo.contents s.params.fifoDepth = bytes ++ t.fifo.contents s.params.fifoDepth
  mem : t.fifo.mem = s.fifo.mem
  head : t.fifo.head = s.fifo.head
  ovf : t.fifo.ovf = s.fifo.ovf
  ac : t.ac = s.ac
  dec : t.dec = s.dec
  enc : t.enc = s.enc

theorem Drained.trans {xs ys : List Byte} {s t u : State} (h : Drained xs s t) (h' : Drained ys t u) :
    Drained (xs ++ ys) s u where
  params := h'.params.trans h.params
  contents := by
    have := h'.contents
    rw [h.params] at this
    rw [h.contents, this, List.append_assoc]
  mem := h'.mem.trans h.mem
  head := h'.head.trans h.head
  ovf := h'.ovf.trans h.ovf
  ac := h'.ac.trans h.ac
  dec := h'.dec.trans h.dec
  enc := h'.enc.trans h.enc

theorem Drained.keepsStorage {bytes : List Byte} {s t : State} (h : Drained bytes s t) : KeepsStorage s t :=
  fun _ => ⟨by rw [h.mem], by rw [h.dec]⟩

/-- CONSUMER reads `n` bytes, has `got` of them and is due to take `due`, the oldest of the queue it still asks for; it has
a turn for each and one for the reply before the turns `rest`. -/
structure TakesDue (n : U16) (got due : List Byte) (rest : List Agent) (s : State) : Prop where
  inv : FifoInv s.params.fifoDepth s.fifo
  reading : s.rd = some ⟨n, got⟩
  asked : got.length ≤ n.toNat
  oldest : (s.fifo.contents s.params.fifoDepth).take (n.toNat - got.length) = due
  begun : got ++ due ≠ []
  live : .consumer ∉ s.halted
  turns : s.sched = List.replicate (due.length + 1) .consumer ++ rest

section
variable {n : U16} {got more : List Byte} {b : Byte} {rest : List Agent} {s : State}

/-- A byte that is due was asked for, is the oldest, and the bytes due after it come next. -/
theorem TakesDue.uncons (h : TakesDue n got (b :: more) rest s) :
    got.length < n.toNat ∧ ∃ later, s.fifo.contents s.params.fifoDepth = b :: later
      ∧ later.take (n.toNat - (got.length + 1)) = more := by
  have hdue := h.oldest
  have hasked : n.toNat - got.length ≠ 0 := fun h0 => by
    rw [h0, List.take_zero] at hdue
    cases hdue
  obtain ⟨k, hk⟩ := Nat.exists_eq_succ_of_ne_zero hasked
  cases hq : s.fifo.contents s.params.fifoDepth with
  | nil =>
    rw [hq, List.take_nil] at hdue
    cases hdue
  | cons c later =>
    rw [hq, hk, Nat.succ_eq_add_one, List.take_succ_cons, List.cons.injEq] at hdue
    obtain ⟨rfl, hmore⟩ := hdue
    exact ⟨by omega, later, rfl, by rwa [Nat.sub_add_eq, hk]⟩

/-- With nothing more to take, the step replies and ends the read. -/
theorem TakesDue.reply_step (h : TakesDue n got [] rest s) :
    ∃ t, step s = .next t ∧ Drained [] s t ∧ t.rd = none ∧ t.sched = rest
      ∧ t.replies
        = s.replies ++ [⟨.consumer, u16 s.params.lenOrder (BitVec.ofNat 16 got.length) ++ got⟩] := by
  obtain ⟨hturn, hsched⟩ := liveTurn_of_replicate h.live h.turns
  have hgot : got ≠ [] := by simpa using h.begun
  have hdone : got.length = n.toNat ∨ s.fifo.empty = true := by
    rcases List.take_eq_nil_iff.mp h.oldest with hall | hnil
    · exact .inl (h.asked.antisymm (Nat.le_of_sub_eq_zero hall))
    · exact .inr ((Fifo.contents_eq_nil_iff h.inv).mp hnil)
  have hstep := (step_of_reading hturn h.reading).trans (readStep_of_done (s := handOver s) hgot hdone)
  exact ⟨_, hstep, ⟨rfl, rfl, rfl, rfl, rfl, rfl, rfl, rfl⟩, rfl, hsched, rfl⟩

/-- The step of a byte that is due takes it, and leaves the bytes after it due. -/
theorem TakesDue.take_step (h : TakesDue n got (b :: more) rest s) :
    ∃ t, step s = .next t ∧ Drained [b] s t ∧ TakesDue n (got ++ [b]) more rest t ∧ t.replies = s.replies := by
  obtain ⟨hturn, hsched⟩ := liveTurn_of_replicate h.live h.turns
  obtain ⟨hasked, later, hqueue, hmore⟩ := h.uncons
  obtain ⟨hne, hb, hpopped⟩ := Fifo.oldest_of_contents h.inv hqueue
  have hinv : FifoInv s.params.fifoDepth (s.fifo.popped s.params.fifoDepth) :=
    Fifo.take_keeps_inv h.inv hne (Fifo.take_of_load hb)
  have hlen : (got ++ [b]).length = got.length + 1 := List.length_append
  have hdue : ((s.fifo.popped s.params.fifoDepth).contents s.params.fifoDepth).take (n.toNat - (got ++ [b]).length)
      = more := by
    rw [hlen, hpopped, hmore]
  have hstep := (step_of_reading hturn h.reading).trans (readStep_of_more (s := handOver s) hasked.ne hne hb)
  exact ⟨_, hstep, ⟨rfl, hqueue.trans (congrArg _ hpopped.symm), rfl, rfl, rfl, rfl, rfl, rfl⟩,
    ⟨hinv, rfl, hlen ▸ hasked, hdue, by simp, h.live, hsched⟩, rfl⟩

end

/-- The run of the bytes due, by induction on them: each step takes one, and one more step replies them all. -/
theorem TakesDue.run {n : U16} {got due : List Byte} {rest : List Agent} {s : State} (h : TakesDue n got due rest s) :
    ∃ t, runFor (due.length + 1) s = .next t ∧ Drained due s t ∧ t.rd = none ∧ t.sched = rest
      ∧ t.replies = s.replies
        ++ [⟨.consumer, u16 s.params.lenOrder (BitVec.ofNat 16 (got ++ due).length) ++ (got ++ due)⟩] := by
  induction due generalizing got s with
  | nil =>
    obtain ⟨t, hstep, ht⟩ := h.reply_step
    rw [List.append_nil]
    exact ⟨t, runFor_succ hstep, ht⟩
  | cons b more ih =>
    obtain ⟨t, hstep, hdrained, hdue, hreplies⟩ := h.take_step
    obtain ⟨u, hrun, hdrained', hrd, hsched, hreplies'⟩ := ih hdue
    rw [hdrained.params, hreplies, List.append_assoc, List.singleton_append] at hreplies'
    exact ⟨u, (runFor_succ hstep).trans hrun, hdrained.trans hdrained', hrd, hsched, hreplies'⟩

/-- Settles O44: the oldest `n` bytes are due at first, the run takes them one by one, and the queue is what they leave. -/
theorem readDrainsTheQueue : Obligations.ReadDrainsTheQueue := by
  intro s n rest hinv _ hn hqueue hlive hrd hsched
  have hcount : 0 < n.toNat := Nat.pos_of_ne_zero fun h0 => hn (BitVec.eq_of_toNat_eq h0)
  rw [← List.length_take] at hsched ⊢
  have hbegun : (s.fifo.contents s.params.fifoDepth).take n.toNat ≠ [] := fun hnil =>
    (List.take_eq_nil_iff.mp hnil).elim hcount.ne' hqueue
  obtain ⟨t, hrun, hdrained, hdone, hrest, hreplies⟩ :=
    TakesDue.run ⟨hinv, hrd, Nat.zero_le _, rfl, hbegun, hlive, hsched⟩
  have hleft : t.fifo.contents s.params.fifoDepth = (s.fifo.contents s.params.fifoDepth).drop n.toNat :=
    List.append_cancel_left (hdrained.contents.symm.trans (List.take_append_drop n.toNat _).symm)
  exact ⟨t, hrun, hreplies, hleft, hdone, hrest, hdrained.ac, hdrained.dec, hdrained.enc, hdrained.head, hdrained.ovf,
    hdrained.keepsStorage⟩

end Sys2Proof.Machine

/-! ## RESET and CANCEL (R340 to R343) -/

namespace Sys2Proof.Machine

/-! ### RESET -/

theorem exec_reset (s : State) : exec .reset s = .next s.applyReset := rfl

@[simp] theorem State.applyReset_applyReset (s : State) : s.applyReset.applyReset = s.applyReset := rfl

/-- Settles O16: each register has its reset value by definition, and the arbiter is in IDLE, which drops the outstanding
frame and refuses every response. -/
theorem resetGivesTheResetState : Obligations.ResetGivesTheResetState := by
  intro s
  have hidle : s.applyReset.ac.state = .idle := rfl
  have hrefused : ∀ i, isResponse i = true → exec i s.applyReset = .next (s.applyReset.refuse .transport) :=
    fun i hi => (cancelledRunEnds s.applyReset i hi).left hidle
  have hagain : exec .reset s.applyReset = .next s.applyReset := by
    rw [exec_reset, State.applyReset_applyReset]
  refine ⟨s.applyReset, exec_reset s, ?arbiter, ?head, ?tail, ?ovf, ?phase, ?hcnt, ?hdr, ?len, ?cnt, ?pend, ?pendType,
    ?pendLen, ?busy, ?bytes, ?idx, ?rd, ?wr, ?sinkHeld, ?refused, ?params, ?replies, acTx_of_idle hidle, hrefused, hagain⟩
  all_goals rfl

/-! ### CANCEL -/

section
variable {s t : State}

theorem exec_cancel_of_idle (h : s.ac.state = .idle) : exec .cancel s = .next s := by
  simp only [exec, execCancel, h, if_true]

theorem exec_cancel_of_ne_idle (h : s.ac.state ≠ .idle) :
    exec .cancel s = .next { s with ac := { s.ac with cancel := true } } := by
  simp only [exec, execCancel, h, if_false]

/-- CANCEL of the state it leaves: IDLE was left as it was, and a run in progress is already marked. -/
theorem exec_cancel_again (h : exec .cancel s = .next t) : exec .cancel t = .next t := by
  by_cases hs : s.ac.state = .idle
  · cases (exec_cancel_of_idle hs).symm.trans h
    exact h
  · cases (exec_cancel_of_ne_idle hs).symm.trans h
    exact exec_cancel_of_ne_idle hs

end

/-- Settles O17: the two cases are those of `AC_STATE`, and each is its own result. -/
theorem cancelMarksTheRun : Obligations.CancelMarksTheRun :=
  fun _ => ⟨exec_cancel_of_idle, exec_cancel_of_ne_idle, fun _ => exec_cancel_again⟩

end Sys2Proof.Machine
